-- ==== Sys2Proof/Word.lean ====
section
/-! DEFINITION. The word types of the block's bus, files and buffers (00_scope R10, 20_memory R90). -/

namespace Sys2Proof

/-- One bus word, and the width of a control register (20_memory R90). -/
abbrev Word := BitVec 32

/-- One stored sample, residual, or quantized coefficient: the pattern of an `S16` (00_scope R10). -/
abbrev Half := BitVec 16

/-- One symbol of the entropy coder, and one cell of memory (43_entropy R230). -/
abbrev Byte := BitVec 8

/-- A word address of the host bus space, 0x00000 to 0x7FFFF (20_memory R90). -/
abbrev Addr := BitVec 19

end Sys2Proof
end

