-- ==== Sys2Proof/Syntax.lean ====
section
/-! DEFINITION. The twelve commands, one constructor per row of spec/opcode_table.json (30_encoding R124). -/

namespace Sys2Proof

/-- A command. Every operand but `sel`, `g` and `t` is implicit (30_encoding R121); the fields hold the bits of the
word as they stand (R121), so that a reserved `sel` can be written down and is refused by `Instr.wf`. -/
inductive Instr where
  /-- NOP, format N, opcode 0x00 (46_system R300). -/
  | nop
  /-- ACORR, format N, opcode 0x01 (40_estimator R161). -/
  | acorr
  /-- LEVD, format N, opcode 0x02 (40_estimator R162). -/
  | levd
  /-- QCOEF, format N, opcode 0x03 (41_quantizer R194). -/
  | qcoef
  /-- DQCOEF, format N, opcode 0x04 (41_quantizer R195). -/
  | dqcoef
  /-- ANALYZE, format N, opcode 0x05 (42_filter R211). -/
  | analyze
  /-- SYNTH, format N, opcode 0x06 (42_filter R212). -/
  | synth
  /-- HBUILD sel, format S, opcode 0x07 (43_entropy R235). -/
  | hbuild (sel : BitVec 2)
  /-- HENC sel, format S, opcode 0x08 (43_entropy R236). -/
  | henc (sel : BitVec 2)
  /-- HDEC sel, format S, opcode 0x09 (43_entropy R238). -/
  | hdec (sel : BitVec 2)
  /-- ERASE, format M, opcode 0x0A; `g` = 0 erases bits, `g` = 1 whole codewords (44_channel R273, R274). -/
  | erase (g : BitVec 1)
  /-- FIDEL, format M, opcode 0x0B; `t` = 0 is strict, `t` = 1 truncates (45_fidelity R290). -/
  | fidel (t : BitVec 1)
deriving DecidableEq, Repr

end Sys2Proof
end

