-- ==== Sys2Proof/WellFormed.lean ====
section
/-! DEFINITION. Which commands are well formed: the operand values that are not reserved (30_encoding R122). -/

namespace Sys2Proof

/-- `sel` names an array exactly when it is 0 (QC) or 1 (QE); 2 and 3 are reserved (30_encoding R122). -/
def selLegal (sel : BitVec 2) : Bool := sel.toNat < 2

/-- The command is one of the 17 legal ones (30_encoding R124): its `sel`, where it has one, is not reserved. -/
def Instr.wf : Instr → Bool
  | .nop => true
  | .acorr => true
  | .levd => true
  | .qcoef => true
  | .dqcoef => true
  | .analyze => true
  | .synth => true
  | .hbuild sel => selLegal sel
  | .henc sel => selLegal sel
  | .hdec sel => selLegal sel
  | .erase _ => true
  | .fidel _ => true

end Sys2Proof
end

