-- ==== Sys2Proof/Decode.lean ====
section
/-! DEFINITION. Decoding a command word (30_encoding R131), total on all 2^32 words and rejecting by name, and the
encoder written from the same formats (R120). -/

namespace Sys2Proof

/-- Why a word is an illegal command (30_encoding R126). -/
inductive DecodeReject where
  /-- The opcode, bits 7:0, is 0x0C to 0xFF. -/
  | unknownOpcode
  /-- A must-be-zero bit of the format is 1. -/
  | mustBeZero
  /-- `sel` is 2 or 3. -/
  | reservedSel
deriving DecidableEq, Repr

/-- The opcode field, bits 7:0 in every format (30_encoding R120). -/
def opcodeOf (w : Word) : BitVec 8 := w.extractLsb' 0 8

/-- Format N: bits 31:8 must be 0 (30_encoding R120). -/
def decodeN (i : Instr) (w : Word) : Except DecodeReject Instr :=
  if w.extractLsb' 8 24 = 0#24 then .ok i else .error .mustBeZero

/-- Format S: bits 31:10 must be 0 and `sel`, bits 9:8, must be 0 or 1 (30_encoding R120, R122). -/
def decodeS (mk : BitVec 2 → Instr) (w : Word) : Except DecodeReject Instr :=
  if w.extractLsb' 10 22 = 0#22 then
    if selLegal (w.extractLsb' 8 2) then .ok (mk (w.extractLsb' 8 2)) else .error .reservedSel
  else .error .mustBeZero

/-- Format M: bits 31:9 must be 0; the mode bit is bit 8 (30_encoding R120, R123). -/
def decodeM (mk : BitVec 1 → Instr) (w : Word) : Except DecodeReject Instr :=
  if w.extractLsb' 9 23 = 0#23 then .ok (mk (w.extractLsb' 8 1)) else .error .mustBeZero

/-- Decoding a command word (30_encoding R131). -/
def decode (w : Word) : Except DecodeReject Instr :=
  match (opcodeOf w).toNat with
  | 0x00 => decodeN .nop w
  | 0x01 => decodeN .acorr w
  | 0x02 => decodeN .levd w
  | 0x03 => decodeN .qcoef w
  | 0x04 => decodeN .dqcoef w
  | 0x05 => decodeN .analyze w
  | 0x06 => decodeN .synth w
  | 0x07 => decodeS .hbuild w
  | 0x08 => decodeS .henc w
  | 0x09 => decodeS .hdec w
  | 0x0A => decodeM .erase w
  | 0x0B => decodeM .fidel w
  | _ => .error .unknownOpcode

/-- The word of a format N command (30_encoding R120). -/
def encodeN (op : BitVec 8) : Word := 0#24 ++ op

/-- The word of a format S command (30_encoding R120). -/
def encodeS (op : BitVec 8) (sel : BitVec 2) : Word := 0#22 ++ (sel ++ op)

/-- The word of a format M command (30_encoding R120). -/
def encodeM (op : BitVec 8) (m : BitVec 1) : Word := 0#23 ++ (m ++ op)

/-- The command word of a command (30_encoding R124). -/
def encode : Instr → Word
  | .nop => encodeN 0x00#8
  | .acorr => encodeN 0x01#8
  | .levd => encodeN 0x02#8
  | .qcoef => encodeN 0x03#8
  | .dqcoef => encodeN 0x04#8
  | .analyze => encodeN 0x05#8
  | .synth => encodeN 0x06#8
  | .hbuild sel => encodeS 0x07#8 sel
  | .henc sel => encodeS 0x08#8 sel
  | .hdec sel => encodeS 0x09#8 sel
  | .erase g => encodeM 0x0A#8 g
  | .fidel t => encodeM 0x0B#8 t

/-- The command that the decoder reads from a row's bits `w`, numbered as spec/opcode_table.json numbers them (bit 0
is bit 0 of the command word; every bit from `nbits` up is 0). -/
def decodeTableWord (nbits w : Nat) : Option Instr := (decode (BitVec.ofNat 32 (w % 2 ^ nbits))).toOption

end Sys2Proof
end

