-- ==== Sys2Proof/Machine/Arith.lean ====
section
/-! DEFINITION. The pseudocode primitives over the integers: rounding, clamping, bit length, sums (00_scope R12 to
R16). -/

namespace Sys2Proof.Machine

/-- `rshr(x, n)`, for `n ≥ 1`: division by `2^n` rounded to nearest, a tie toward +∞ (00_scope R13). -/
def rshr (x : Int) (n : Nat) : Int := (x + 2 ^ (n - 1)) / 2 ^ n

/-- `rdiv(n, d)`, for `d > 0`: `n / d` rounded to nearest, a tie toward +∞ (00_scope R14). -/
def rdiv (n d : Int) : Int := (2 * n + d) / (2 * d)

/-- `sat_N(v)`: `v` clamped to the signed `N`-bit range (00_scope R15). -/
def sat (bits : Nat) (v : Int) : Int :=
  if v < -(2 ^ (bits - 1)) then -(2 ^ (bits - 1))
  else if v > 2 ^ (bits - 1) - 1 then 2 ^ (bits - 1) - 1
  else v

/-- `clamped_N(v)`: the clamp acts (00_scope R15). -/
def clamped (bits : Nat) (v : Int) : Bool := sat bits v != v

/-- `bitlen(v)`, for `v > 0`: the number of bits of `v` without leading zeros (00_scope R12). -/
def bitlen (v : Int) : Nat := Nat.log2 v.toNat + 1

/-- `Σ_{i=0}^{n-1} f(i)`, zero when `n = 0` (00_scope R16). -/
def sumTo : Nat → (Nat → Int) → Int
  | 0, _ => 0
  | n + 1, f => sumTo n f + f n

/-- A 32-bit event counter moved by `n` events, saturating at 2^32 - 1 (10_state R58). -/
def satCount (c : Word) (n : Nat) : Word := BitVec.ofNat 32 (min (c.toNat + n) (2 ^ 32 - 1))

end Sys2Proof.Machine
end

