-- ==== Sys2Proof/Config.lean ====
section
/-! DEFINITION. What an implementation fixes: the capacities and constants of 00_scope R8, and the free values
of the points the spec leaves open (each an opaque constant: nothing can be proved of its value). -/

namespace Sys2Proof.Config

/-- Capacity of X, QE and Y in samples (00_scope R8). -/
abbrev nmax : Nat := 65536

/-- The largest prediction order, and the number of registers of A and QC (00_scope R8). -/
abbrev pmax : Nat := 32

/-- Capacity of BS in bits (00_scope R8). -/
abbrev bsmax : Nat := 1048576

/-- The longest codeword a code table entry can hold, in bits (00_scope R8). -/
abbrev cwmax : Nat := 32

/-- What `ID` reads, ASCII "LPCC" (10_state R40). -/
def idWord : Word := 0x4C504343#32

/-- What `VERSION` reads (10_state R40). -/
def versionWord : Word := 0x00010000#32

/-- What `QSCALE` reads, the base-2 logarithm of the coefficient scale (10_state R56). -/
def qscaleWord : Word := 15#32

/-- The default of the open parameter BUSY_LEN (92_eei_decisions, Open parameters). -/
def busyLenDefault : Nat := 0

/-- FREE VALUE (the open parameter MEM_INIT; 10_state R68, item I1 of 93; assumption 5): the byte that a cell of
X, QE, Y or BS holds while nothing has written it since power-on, by byte address. -/
opaque memInit : Nat → Byte

/-- FREE VALUE (46_system R301, item I2 of 93; assumption 6): which bits of a byte that an abandoned command could
write hold the new contents (1) and which the old (0), by the number of the abandonment and the byte address. -/
opaque abandonMask : Nat → Nat → Byte

/-- FREE VALUE (the open parameter DRAW_SOURCE in its injectable form; 44_channel R271; assumption 7): the n-th
injected draw, any integer in 0..65535. -/
opaque injectedDraw : Nat → BitVec 16

end Sys2Proof.Config
end

