-- ==== Sys2Proof/Machine/State.lean ====
section
/-! DEFINITION. The state of the block as plain data (10_state R30), the reasons a step could stop, and the state
after reset (70_reset R361, R362). -/

namespace Sys2Proof.Machine

/-- The four buffer memories, by byte address: the byte `b` of the word at word address `w` is the cell `4 * w + b`
(assumption 4). A cell that is not listed has not been written since power-on (10_state R68). -/
abbrev Memory := List Host.Cell

/-- An entry of the code table CT (10_state R62). -/
structure CodeEntry where
  /-- The codeword's length in bits; 0 means the symbol has no codeword. -/
  len : BitVec 6
  /-- The codeword, right-aligned. -/
  code : Word
deriving DecidableEq, Repr

/-- One thing the outside world does to the block (00_scope R6, 30_encoding R129). -/
inductive HostOp where
  /-- `MemWrite(addr, 1, data)`, the script line WR (20_memory R93). -/
  | write (addr : Addr) (data : Word)
  /-- `MemRead(addr, 1)`, the script line RD (20_memory R92). -/
  | read (addr : Addr)
  /-- The script line WAIT: read STATUS until BUSY reads 0 (30_encoding R129). -/
  | wait
  /-- A pulse on the block's reset input (70_reset R360). -/
  | hardReset
deriving DecidableEq, Repr

/-- Where ERASE's draws come from, the open parameter DRAW_SOURCE (44_channel R271, assumption 7). -/
inductive DrawSource where
  /-- The generator of 44_channel R271, the default. -/
  | lcg
  /-- An unconstrained draw in 0..65535 per unit. -/
  | injected
deriving DecidableEq, Repr

/-- The state of the block: the buffers, the register files and control registers of 10_state R30 and R65, the
pending command of R63 (`busy`, its word in `cmd`), and the model's own fields at the end. -/
structure State where
  /-- X, QE, Y and BS (10_state R31 to R34). -/
  mem : Memory
  /-- A[1..32], `A[k]` at index `k - 1` (10_state R36). -/
  a : Vector Word 32
  /-- QC[1..32], `QC[k]` at index `k - 1` (10_state R37). -/
  qc : Vector Half 32
  /-- R[0..32] (10_state R38). -/
  r : Vector (BitVec 64) 33
  /-- FREQ[0..255] (10_state R39). -/
  freq : Vector Word 256
  /-- CT[0..255] (10_state R62). -/
  ct : Vector CodeEntry 256
  /-- CMD, the last accepted command word (10_state R42). -/
  cmd : Word
  /-- STATUS.BUSY: a command is pending (10_state R43, R63). -/
  busy : Bool
  /-- STATUS.DONE (10_state R43). -/
  done : Bool
  /-- RESULT (10_state R44). -/
  result : Word
  /-- STICKY (10_state R45). -/
  sticky : Word
  /-- IE (10_state R46). -/
  ie : Word
  /-- IP (10_state R46). -/
  ip : Word
  /-- CMDCNT (10_state R48). -/
  cmdcnt : Word
  /-- ORDER (10_state R49). -/
  order : Word
  /-- LEN (10_state R50). -/
  len : Word
  /-- CLEN (10_state R51). -/
  clen : Word
  /-- ELEN (10_state R51). -/
  elen : Word
  /-- YLEN (10_state R51). -/
  ylen : Word
  /-- BLEN (10_state R52). -/
  blen : Word
  /-- SYMCOUNT (10_state R53). -/
  symcount : Word
  /-- DCOUNT (10_state R53). -/
  dcount : Word
  /-- NSYM (10_state R53). -/
  nsym : Word
  /-- LOSS_T (10_state R54). -/
  lossT : Word
  /-- RNG (10_state R55). -/
  rng : Word
  /-- BITRATE (10_state R57). -/
  bitrate : Word
  /-- The counter QOVF (10_state R58). -/
  qovf : Word
  /-- The counter YSAT (10_state R58). -/
  ysat : Word
  /-- The counter LOSSEV (10_state R58). -/
  lossev : Word
  /-- DROPCNT (10_state R59). -/
  dropcnt : Word
  /-- RSH, an `S32` pattern (10_state R60). -/
  rsh : Word
  /-- EFIN (10_state R60). -/
  efin : Word
  /-- LDORD (10_state R60). -/
  ldord : Word
  /-- ES, energy of the original (10_state R61). -/
  es : BitVec 64
  /-- EN, energy of the noise (10_state R61). -/
  en : BitVec 64
  /-- FLEN (10_state R61). -/
  flen : Word
  /-- The MODEL's own: what the outside world still does, in order (assumption 2). -/
  script : List HostOp
  /-- The MODEL's own: the words the host's reads returned, newest first (assumption 3). -/
  reads : List Word
  /-- The MODEL's own: for each acceptance still to come, the number of host accesses in its busy window (the
  parameter BUSY_LEN, assumption 1). -/
  windows : List Nat
  /-- The MODEL's own: how many host accesses the running command's busy window still takes (assumption 1). -/
  windowLeft : Nat
  /-- The MODEL's own: the parameter DRAW_SOURCE (assumption 7). -/
  drawSource : DrawSource
  /-- The MODEL's own: how many free values have been used (assumptions 6 and 7). -/
  freeCount : Nat
deriving DecidableEq, Repr

/-- The reasons a step stops with a fault: there are none. The block has no traps (60_exceptions R320), and every
command completes for every state (70_reset R373), an error being a result code (R321). Safe: nothing is stopped
that the hardware would run (assumption 15). -/
inductive Fault where
deriving DecidableEq, Repr

/-- The reasons a step is refused. -/
inductive Refusal where
  /-- Raised by `exec` alone, for a command that has no meaning yet, by its mnemonic. Safe. No arm raises it: every
  command of the opcode table has its meaning. -/
  | notModelled (mnemonic : String)
deriving DecidableEq, Repr

/-- The state after power-on and reset (70_reset R361, R362; 10_state R65, R66, R68): `ORDER` 10, `LOSS_T` 6554,
`RNG` 1, every other register and file element 0, no buffer element written. The model's own fields: no host access
to come, BUSY_LEN and DRAW_SOURCE at their defaults (DESIGN CHOICE, assumption 10). -/
def State.reset : State where
  mem := []
  a := Vector.replicate 32 0#32
  qc := Vector.replicate 32 0#16
  r := Vector.replicate 33 0#64
  freq := Vector.replicate 256 0#32
  ct := Vector.replicate 256 ⟨0#6, 0#32⟩
  cmd := 0#32
  busy := false
  done := false
  result := 0#32
  sticky := 0#32
  ie := 0#32
  ip := 0#32
  cmdcnt := 0#32
  order := 10#32
  len := 0#32
  clen := 0#32
  elen := 0#32
  ylen := 0#32
  blen := 0#32
  symcount := 0#32
  dcount := 0#32
  nsym := 0#32
  lossT := 6554#32
  rng := 1#32
  bitrate := 0#32
  qovf := 0#32
  ysat := 0#32
  lossev := 0#32
  dropcnt := 0#32
  rsh := 0#32
  efin := 0#32
  ldord := 0#32
  es := 0#64
  en := 0#64
  flen := 0#32
  script := []
  reads := []
  windows := []
  windowLeft := 0
  drawSource := .lcg
  freeCount := 0

end Sys2Proof.Machine
end

