-- ==== Sys2Proof/Machine/Flags.lean ====
section
/-! DEFINITION. Result codes, condition flags and the words made of them (60_exceptions R321, 10_state R44 to R47). -/

namespace Sys2Proof.Machine

/-- The result codes, complete (60_exceptions R321). -/
inductive ErrCode where
  | ok
  | invalidOrder
  | invalidLength
  | incompleteCodeword
  | lengthMismatch
  | illegalCommand
  | symbolNotInTable
  | codeTooLong
  | streamOverflow
  | destOverflow
  | invalidAutocorr
deriving DecidableEq, Repr

/-- The number of a result code, the value of `RESULT[7:0]` (60_exceptions R321). -/
def ErrCode.code : ErrCode → Nat
  | .ok => 0
  | .invalidOrder => 1
  | .invalidLength => 2
  | .incompleteCodeword => 3
  | .lengthMismatch => 4
  | .illegalCommand => 5
  | .symbolNotInTable => 6
  | .codeTooLong => 7
  | .streamOverflow => 8
  | .destOverflow => 9
  | .invalidAutocorr => 10

/-- The condition flags (10_state R47). -/
inductive Flag where
  | qovf
  | degen
  | ldstop
  | satA
  | satY
  | incomplete
  | degraded
  | enZero
  | esZero
  | busErr
deriving DecidableEq, Repr

/-- The bit of a flag in `RESULT` and `STICKY` (10_state R47). -/
def Flag.bit : Flag → Nat
  | .qovf => 16
  | .degen => 17
  | .ldstop => 18
  | .satA => 19
  | .satY => 20
  | .incomplete => 21
  | .degraded => 22
  | .enZero => 23
  | .esZero => 24
  | .busErr => 25

/-- The word with the one bit of a flag set. -/
def Flag.mask (f : Flag) : Word := 1#32 <<< f.bit

/-- The word with exactly the bits of a set of flags set. -/
def flagWord : List Flag → Word
  | [] => 0#32
  | f :: fs => f.mask ||| flagWord fs

/-- A flag set on a condition. -/
def flagIf (c : Bool) (f : Flag) : List Flag := if c then [f] else []

/-- `RESULT` at completion: the code in bits 7:0, the flags in bits 31:16 (46_system R305). -/
def resultWord (err : ErrCode) (fs : List Flag) : Word := BitVec.ofNat 32 err.code ||| flagWord fs

/-- `STICKY` at completion: the flags are ORed in (46_system R305). -/
def stickyAfter (sticky result : Word) : Word := sticky ||| (result &&& 0xFFFF0000#32)

/-- `IP` at completion: `DONE_IP` is set, and `ERR_IP` when the code is not 0 (46_system R305). -/
def ipAfter (ip : Word) (err : ErrCode) : Word := ip ||| (if err = .ok then 0x1#32 else 0x3#32)

/-- The interrupt line: some pending source is enabled (60_exceptions R336). -/
def State.irq (s : State) : Bool := (s.ie &&& s.ip &&& 0x3#32) != 0#32

/-- `STATUS.ERR`: the result code is not 0 (10_state R43). -/
def State.errBit (s : State) : Bool := s.result.extractLsb' 0 8 != 0#8

/-- What `STATUS` reads: BUSY, DONE, ERR, IRQ in bits 0 to 3 (10_state R43). -/
def State.status (s : State) : Word :=
  (if s.busy then 0x1#32 else 0#32) ||| (if s.done then 0x2#32 else 0#32) |||
    (if s.errBit then 0x4#32 else 0#32) ||| (if s.irq then 0x8#32 else 0#32)

end Sys2Proof.Machine
end

