-- ==== Sys2Proof/Machine/Memory.lean ====
section
/-! DEFINITION. The buffer memories as a list of cells in one canonical form, and the word layouts of the stored
elements (20_memory R94, R95, R97; assumptions 4 and 5). -/

namespace Sys2Proof.Machine

/-- First word address of X (20_memory R94). -/
abbrev xBase : Nat := 0x10000

/-- First word address of QE (20_memory R94). -/
abbrev qeBase : Nat := 0x20000

/-- First word address of Y (20_memory R94). -/
abbrev yBase : Nat := 0x30000

/-- First word address of BS (20_memory R94). -/
abbrev bsBase : Nat := 0x40000

/-- What is listed at a byte address: `none` when nothing has written it since power-on. -/
def Memory.lookup : Memory → Nat → Option Byte
  | [], _ => none
  | (a, b) :: m, k => if a = k then some b else Memory.lookup m k

/-- The byte at an address; one that nothing has written reads as the free value MEM_INIT (10_state R68). -/
def Memory.byteAt (m : Memory) (k : Nat) : Byte := (m.lookup k).getD (Config.memInit k)

/-- One byte written, at its place in the rising order of addresses. -/
def Memory.insert : Memory → Nat → Byte → Memory
  | [], k, v => [(k, v)]
  | (a, b) :: m, k, v =>
    if k < a then (k, v) :: (a, b) :: m
    else if k = a then (k, v) :: m
    else (a, b) :: Memory.insert m k v

/-- The byte addresses that storage stands behind: two bytes of each word of X, QE, Y, four of each word of BS
(20_memory R94, R95, R97). -/
def bufferByte (k : Nat) : Bool :=
  (xBase ≤ k / 4 && k / 4 < bsBase && k % 4 < 2) || (bsBase ≤ k / 4 && k / 4 < bsBase + 0x8000)

/-- The canonical form: addresses strictly rising, and every one the address of a stored byte. -/
abbrev Memory.wf (m : Memory) : Prop :=
  m.Pairwise (fun c d => c.1 < d.1) ∧ ∀ c ∈ m, bufferByte c.1 = true

/-- The `S16` pattern stored at a word address: the low half of the word (20_memory R95). -/
def Memory.half (m : Memory) (w : Nat) : Half := m.byteAt (4 * w + 1) ++ m.byteAt (4 * w)

/-- An `S16` pattern stored at a word address (20_memory R95). -/
def Memory.setHalf (m : Memory) (w : Nat) (v : Half) : Memory :=
  (m.insert (4 * w) (v.extractLsb' 0 8)).insert (4 * w + 1) (v.extractLsb' 8 8)

/-- The whole word stored at a word address (20_memory R97). -/
def Memory.word (m : Memory) (w : Nat) : Word :=
  (m.byteAt (4 * w + 3) ++ m.byteAt (4 * w + 2)) ++ (m.byteAt (4 * w + 1) ++ m.byteAt (4 * w))

/-- A whole word stored at a word address (20_memory R97). -/
def Memory.setWord (m : Memory) (w : Nat) (v : Word) : Memory :=
  (((m.insert (4 * w) (v.extractLsb' 0 8)).insert (4 * w + 1) (v.extractLsb' 8 8)).insert (4 * w + 2)
    (v.extractLsb' 16 8)).insert (4 * w + 3) (v.extractLsb' 24 8)

/-- `S16` patterns stored at consecutive word addresses. -/
def Memory.setHalves (m : Memory) (w : Nat) : List Half → Memory
  | [] => m
  | v :: vs => Memory.setHalves (m.setHalf w v) (w + 1) vs

/-- Whole words stored at consecutive word addresses. -/
def Memory.setWords (m : Memory) (w : Nat) : List Word → Memory
  | [] => m
  | v :: vs => Memory.setWords (m.setWord w v) (w + 1) vs

/-- Stream bit `i`: bit `31 - (i mod 32)` of the word at `0x40000 + i / 32`, so bit `(31 - i mod 32) mod 8` of that
word's byte `(31 - i mod 32) / 8` (20_memory R97). -/
def Memory.streamBit (m : Memory) (i : Nat) : Bool :=
  (m.byteAt (4 * (bsBase + i / 32) + (31 - i % 32) / 8)).getLsbD ((31 - i % 32) % 8)

/-- 32 stream bits as a word, the first at bit 31; missing ones are 0 (20_memory R97, 43_entropy R240). -/
def packWord (bits : List Bool) : Word :=
  BitVec.ofNat 32 ((List.range 32).foldl (fun n i => 2 * n + (bits.getD i false).toNat) 0)

/-- A bit sequence as `n` words, the last filled with 0 (43_entropy R240). -/
def packWords : Nat → List Bool → List Word
  | 0, _ => []
  | n + 1, bits => packWord (bits.take 32) :: packWords n (bits.drop 32)

/-- How many words a stream of `n` bits takes, `ceil(n / 32)` (43_entropy R240). -/
def streamWords (n : Nat) : Nat := (n + 31) / 32

end Sys2Proof.Machine
end

