-- ==== Sys2Proof/Machine/Operands.lean ====
section
/-! DEFINITION. The implicit operands of the commands: elements of the files and buffers as integers, the array that
`sel` names, its byte view, and the checks several commands share (00_scope R17, 30_encoding R122, 20_memory R96). -/

namespace Sys2Proof.Machine

/-- `A[k]`, `k` from 1, as an integer (10_state R36). -/
def State.coef (s : State) (k : Nat) : Int := ((s.a[k - 1]?).getD 0#32).toInt

/-- `QC[k]`, `k` from 1, as its pattern (10_state R37). -/
def State.qcHalf (s : State) (k : Nat) : Half := (s.qc[k - 1]?).getD 0#16

/-- `R[k]`, `k` from 0, as an integer (10_state R38). -/
def State.lag (s : State) (k : Nat) : Int := ((s.r[k]?).getD 0#64).toInt

/-- `CT[b]` (10_state R62). -/
def State.entry (s : State) (b : Byte) : CodeEntry := (s.ct[b.toNat]?).getD ⟨0#6, 0#32⟩

/-- `X[i]` as an integer (10_state R31). -/
def State.sample (s : State) (i : Nat) : Int := (s.mem.half (xBase + i)).toInt

/-- `QE[i]` as its pattern (10_state R32). -/
def State.qeHalf (s : State) (i : Nat) : Half := s.mem.half (qeBase + i)

/-- `Y[i]` as an integer (10_state R33). -/
def State.recon (s : State) (i : Nat) : Int := (s.mem.half (yBase + i)).toInt

/-- The stream `BS[0..n-1]` (10_state R34). -/
def State.stream (s : State) (n : Nat) : List Bool := (List.range n).map s.mem.streamBit

/-- The byte at an address of the buffers' storage. -/
def State.byteAt (s : State) (k : Nat) : Byte := s.mem.byteAt k

/-- The array the entropy coder works on (30_encoding R122). -/
inductive Sel where
  /-- The coefficient stream: `QC[1..CLEN]`. -/
  | qc
  /-- The residual stream: `QE[0..ELEN-1]`. -/
  | qe
deriving DecidableEq, Repr

/-- The array a `sel` field names; 2 and 3 are reserved (30_encoding R122). -/
def Sel.ofField (f : BitVec 2) : Option Sel :=
  if f = 0#2 then some .qc else if f = 1#2 then some .qe else none

/-- The register that holds the array's length (30_encoding R122). -/
def State.selLen (s : State) : Sel → Nat
  | .qc => s.clen.toNat
  | .qe => s.elen.toNat

/-- The capacity of the array in elements (00_scope R8). -/
def Sel.capacity : Sel → Nat
  | .qc => Config.pmax
  | .qe => Config.nmax

/-- Element `i`, from 0, of the array: `QC[i + 1]` or `QE[i]` (20_memory R96). -/
def State.selHalf (s : State) (sel : Sel) (i : Nat) : Half :=
  match sel with
  | .qc => s.qcHalf (i + 1)
  | .qe => s.qeHalf i

/-- The two bytes of an `S16` value, low byte first (20_memory R96). -/
def halfBytes (v : Half) : List Byte := [v.extractLsb' 0 8, v.extractLsb' 8 8]

/-- The byte view of a sequence of `S16` values (20_memory R96). -/
def bytesOf (vs : List Half) : List Byte := vs.flatMap halfBytes

/-- Bytes back to `S16` values, low byte first; an odd last byte is dropped (43_entropy R239). -/
def halvesOf : List Byte → List Half
  | lo :: hi :: bs => (hi ++ lo) :: halvesOf bs
  | _ => []

/-- The array `sel` names, its first `n` elements. -/
def State.selArray (s : State) (sel : Sel) (n : Nat) : List Half := (List.range n).map (s.selHalf sel)

/-- `src(sel)`, the byte sequence the encoder side reads (43_entropy R230). -/
def State.src (s : State) (sel : Sel) : List Byte := bytesOf (s.selArray sel (s.selLen sel))

/-- The length check of `src(sel)` (43_entropy R230). -/
def srcCheck (s : State) (sel : Sel) : Option ErrCode :=
  if s.selLen sel > sel.capacity then some .invalidLength else none

/-- `est_check` of ACORR and LEVD (40_estimator R160). -/
def estCheck (s : State) : Option ErrCode :=
  if s.len.toNat > Config.nmax then some .invalidLength
  else if s.order.toNat = 0 ∨ s.order.toNat > Config.pmax ∨ s.order.toNat ≥ s.len.toNat then some .invalidOrder
  else none

/-- `order_check` of QCOEF, DQCOEF, ANALYZE and SYNTH (41_quantizer R193). -/
def orderCheck (s : State) : Option ErrCode :=
  if s.order.toNat = 0 ∨ s.order.toNat > Config.pmax then some .invalidOrder else none

/-- The length check that stands first in a command's rule, for a length register and a capacity (60_exceptions R323). -/
def lengthCheck (len : Word) (cap : Nat) : Option ErrCode :=
  if len.toNat > cap then some .invalidLength else none

/-- Two checks in the order they are written; the first failing one is reported (60_exceptions R331). -/
def firstOf (c d : Option ErrCode) : Option ErrCode :=
  match c with
  | some e => some e
  | none => d

end Sys2Proof.Machine
end

