-- ==== Sys2Proof/Machine/Ops.lean ====
section
/-! DEFINITION. The shared operations over the state: the life of a command (46_system R302 to R305), the raising of
a result code (the block's only exception, 60_exceptions R320), reset (46_system R301, 70_reset R360), the draws of
the random source (44_channel R271), and the stores of whole arrays and streams. -/

namespace Sys2Proof.Machine

/-- Acceptance of a command word (46_system R302). How many host accesses the busy window takes is the model's own
input, 0 when none is given (R303, assumption 1). -/
def accept (s : State) (w : Word) : State :=
  { s with
    cmd := w
    result := 0#32
    busy := true
    done := false
    windowLeft := s.windows.headD Config.busyLenDefault
    windows := s.windows.tail }

/-- The completion bookkeeping of every accepted command (46_system R305). -/
def complete (s : State) (err : ErrCode) (fs : List Flag) : State :=
  { s with
    result := resultWord err fs
    sticky := stickyAfter s.sticky (resultWord err fs)
    cmdcnt := s.cmdcnt + 1#32
    ip := ipAfter s.ip err
    busy := false
    done := true }

/-- `raise <Code>`: TAKING AN EXCEPTION, which on this block is completing with a non-zero result code and nothing
else written (00_scope R16, 60_exceptions R320). What an instruction set saves is `RESULT` and `CMD`; the handler is
the host; the return is the next `CMD` write (`accept`), and no state is restored for it (R320). -/
def raise (s : State) (err : ErrCode) : State := complete s err []

/-- The illegal command (46_system R306). -/
def illegalCommand (s : State) : State := raise s .illegalCommand

/-- The word the engine decodes: the accepted command word, held in `CMD` (46_system R304, 10_state R63). -/
def fetchWord (s : State) : Word := s.cmd

/-- Every control register at its reset value and every file element 0, the memory as given; the model's own fields
as they are (46_system R301, 70_reset R360, R361; assumption 11). -/
def resetRegisters (s : State) (mem : Memory) : State :=
  { State.reset with
    mem := mem
    script := s.script
    reads := s.reads
    windows := s.windows
    drawSource := s.drawSource
    freeCount := s.freeCount }

/-- A byte of the mixture that an abandoned command leaves: each bit old or new (46_system R301, assumption 6). -/
def mixByte (mask old new : Byte) : Byte := (new &&& mask) ||| (old &&& ~~~mask)

/-- The buffers after a command was abandoned part-way: every byte the whole command would have changed (from `old`
to `new`) is a mixture of old and new (46_system R301, item I2 of 93; assumption 6). -/
def mixMemory (n : Nat) (old new : Memory) : Memory :=
  new.map fun c => (c.1, mixByte (Config.abandonMask n c.1) (old.byteAt c.1) c.2)

/-- The random source as ERASE uses it (44_channel R271, assumption 7). -/
structure Draws where
  source : DrawSource
  rng : Word
  count : Nat
deriving DecidableEq, Repr

/-- The random source of a state. -/
def State.draws (s : State) : Draws := ⟨s.drawSource, s.rng, s.freeCount⟩

/-- One step of the generator (44_channel R271). -/
def lcgNext (rng : Word) : Word := rng * 1664525#32 + 1013904223#32

/-- `draw()`: an integer 0..65535 and the source after it (44_channel R271). With injected draws `RNG` has no effect
and is not changed (92_eei_decisions, Open parameters; assumption 7). -/
def draw (d : Draws) : Nat × Draws :=
  match d.source with
  | .lcg => (((lcgNext d.rng).extractLsb' 16 16).toNat, { d with rng := lcgNext d.rng })
  | .injected => ((Config.injectedDraw d.count).toNat, { d with count := d.count + 1 })

/-- `store_stream(bits)` on the buffers: the bits, and 0 to the end of the last word (43_entropy R240). -/
def storeBits (m : Memory) (bits : List Bool) : Memory := m.setWords bsBase (packWords (streamWords bits.length) bits)

/-- An `S16` array stored from integers, each of which is in range, at a buffer's base. -/
def storeInts (m : Memory) (base : Nat) (vs : List Int) : Memory := m.setHalves base (vs.map (BitVec.ofInt 16))

end Sys2Proof.Machine
end

