-- ==== Sys2Proof/Machine/Entropy.lean ====
section
/-! DEFINITION. Unit U4, the Entropy Coder: HBUILD, HENC and HDEC (43_entropy). -/

namespace Sys2Proof.Machine

/-- The tree of 43_entropy R232: a leaf is a symbol; of a merged node the left child is the one taken first. -/
inductive HTree where
  | leaf (sym : Nat)
  | node (left right : HTree)
deriving DecidableEq, Repr

/-- A node with its index and weight (43_entropy R232). -/
structure HNode where
  weight : Nat
  index : Nat
  tree : HTree
deriving DecidableEq, Repr

/-- The order of the nodes: weight, then index (43_entropy R232). -/
def HNode.before (u v : HNode) : Bool := u.weight < v.weight || (u.weight == v.weight && u.index < v.index)

/-- A node made active. The active nodes are kept in the order of R232, so that the least is the first. -/
def activate (n : HNode) : List HNode → List HNode
  | [] => [n]
  | u :: us => if u.before n then u :: activate n us else n :: u :: us

/-- The merges of 43_entropy R232, `fuel` of them, the next created node having index `idx`: the two least active
nodes are removed and the node over them becomes active. -/
def mergeNodes : Nat → Nat → List HNode → List HNode
  | fuel + 1, idx, u :: v :: rest =>
    mergeNodes fuel (idx + 1) (activate ⟨u.weight + v.weight, idx, .node u.tree v.tree⟩ rest)
  | _, _, active => active

/-- The leaves of a tree with their paths from the root: (symbol, steps, path as a number), 0 = left, 1 = right, the
step out of the root most significant (43_entropy R233). -/
def HTree.codewords : HTree → Nat → Nat → List (Nat × Nat × Nat)
  | .leaf s, len, code => [(s, len, code)]
  | .node l r, len, code => l.codewords (len + 1) (2 * code) ++ r.codewords (len + 1) (2 * code + 1)

/-- How often each byte value occurs (43_entropy R231). -/
def countBytes (bs : List Byte) : List Nat := (List.range 256).map fun s => bs.count (BitVec.ofNat 8 s)

/-- The leaves of the distinct symbols, all active (43_entropy R231, R232). -/
def activeLeaves (freq : List Nat) : List HNode :=
  ((List.range 256).filter fun s => freq.getD s 0 != 0).foldr
    (fun s us => activate ⟨freq.getD s 0, s, .leaf s⟩ us) []

/-- The codewords of the distinct symbols: by the tree when there are two or more, the codeword "0" for a single
symbol, none for no symbol (43_entropy R233, R234). -/
def codewordsOf (freq : List Nat) : List (Nat × Nat × Nat) :=
  match activeLeaves freq with
  | [] => []
  | [u] => [(u.index, 1, 0)]
  | us =>
    match mergeNodes (us.length - 1) 256 us with
    | root :: _ => root.tree.codewords 0 0
    | [] => []

/-- `(len(s), code(s))`, (0, 0) for a symbol that does not occur (43_entropy R233, R234). -/
def codeOf (cws : List (Nat × Nat × Nat)) (s : Nat) : Nat × Nat :=
  match cws.find? (fun c => c.1 == s) with
  | some c => c.2
  | none => (0, 0)

/-- The number of distinct symbols, `nsym` (43_entropy R231). -/
def distinctCount (freq : List Nat) : Nat := freq.countP (· != 0)

/-- HBUILD on an array: the frequency table and the code table (43_entropy R235). -/
def buildTable (s : State) (sel : Sel) : State :=
  match srcCheck s sel with
  | some e => raise s e
  | none =>
    let freq := countBytes (s.src sel)
    let cws := codewordsOf freq
    if cws.any (fun c => decide (c.2.1 > Config.cwmax)) then raise s .codeTooLong
    else
      complete
        { s with
          freq := Vector.ofFn fun b : Fin 256 => BitVec.ofNat 32 (freq.getD b.val 0)
          ct := Vector.ofFn fun b : Fin 256 =>
            ⟨BitVec.ofNat 6 (codeOf cws b.val).1, BitVec.ofNat 32 (codeOf cws b.val).2⟩
          nsym := BitVec.ofNat 32 (distinctCount freq) }
        .ok (flagIf (distinctCount freq == 1) .degen)

/-- HBUILD sel (43_entropy R235); a reserved `sel` is an illegal command (30_encoding R122). -/
def execHbuild (sel : BitVec 2) (s : State) : Host.Outcome State Fault Refusal :=
  match Sel.ofField sel with
  | none => .next (illegalCommand s)
  | some v => .next (buildTable s v)

/-- The codeword of an entry: the low `len` bits of `code`, bit `len - 1` first in time (10_state R62, 43_entropy R236). -/
def CodeEntry.bits (e : CodeEntry) : List Bool :=
  (List.range e.len.toNat).map fun j => e.code.getLsbD (e.len.toNat - 1 - j)

/-- The entry holds a codeword that HENC can use: length 1 to 32 (43_entropy R236). -/
def CodeEntry.usable (e : CodeEntry) : Bool := e.len.toNat != 0 && e.len.toNat ≤ Config.cwmax

/-- The stream of a byte sequence under the table in CT (43_entropy R236). -/
def encodeBytes (s : State) (bs : List Byte) : List Bool := bs.flatMap fun b => (s.entry b).bits

/-- The length of that stream, found before a bit is stored (43_entropy R236). -/
def encodedLength (s : State) (bs : List Byte) : Nat := (bs.map fun b => (s.entry b).len.toNat).sum

/-- HENC on an array: its stream under CT into BS (43_entropy R236). -/
def encodeArray (s : State) (sel : Sel) : State :=
  match srcCheck s sel with
  | some e => raise s e
  | none =>
    let bs := s.src sel
    if bs.any (fun b => !(s.entry b).usable) then raise s .symbolNotInTable
    else if encodedLength s bs > Config.bsmax then raise s .streamOverflow
    else
      complete
        { s with
          mem := storeBits s.mem (encodeBytes s bs)
          blen := BitVec.ofNat 32 (encodeBytes s bs).length
          symcount := BitVec.ofNat 32 bs.length }
        .ok []

/-- HENC sel (43_entropy R236); a reserved `sel` is an illegal command (30_encoding R122). -/
def execHenc (sel : BitVec 2) (s : State) : Host.Outcome State Fault Refusal :=
  match Sel.ofField sel with
  | none => .next (illegalCommand s)
  | some v => .next (encodeArray s v)

/-- `match(L, c)`: the least symbol whose codeword is the `L`-bit buffer `c` (43_entropy R237). -/
def matchCode (ct : List CodeEntry) (len code : Nat) : Option Byte :=
  if len < 1 ∨ len > 32 then none
  else (ct.findIdx? fun e => e.len.toNat == len && e.code.toNat % 2 ^ len == code).map (BitVec.ofNat 8)

/-- A stream parsed into codewords: each symbol with its bits, and the bits after the last whole codeword. -/
structure Parsed where
  units : List (Byte × List Bool)
  rest : List Bool
deriving DecidableEq, Repr

/-- The scan that HDEC and `ERASE cw` share: the buffer holds `len` bits of value `code`, its bits newest first in
`buf`; whenever it matches a codeword that codeword is a unit and the buffer is cleared (43_entropy R238, 44_channel
R274). -/
def parseStream (ct : List CodeEntry) : List Bool → Nat → Nat → List Bool → Parsed
  | [], _, _, buf => ⟨[], buf.reverse⟩
  | b :: bs, len, code, buf =>
    match matchCode ct (len + 1) (2 * code + b.toNat) with
    | some sym =>
      ⟨(sym, (b :: buf).reverse) :: (parseStream ct bs 0 0 []).units, (parseStream ct bs 0 0 []).rest⟩
    | none => parseStream ct bs (len + 1) (2 * code + b.toNat) (b :: buf)

/-- The stream `BS[0..BLEN-1]` parsed by CT from an empty buffer. -/
def State.parsed (s : State) : Parsed := parseStream s.ct.toList (s.stream s.blen.toNat) 0 0 []

/-- `reassemble(sel, out)`: decoded bytes into the array and its length register (43_entropy R239). -/
def reassemble (s : State) (sel : Sel) (out : List Byte) : State :=
  match sel with
  | .qc =>
    { s with
      qc := Vector.ofFn fun k : Fin 32 => (halvesOf out).getD k.val 0#16
      clen := BitVec.ofNat 32 (halvesOf out).length }
  | .qe =>
    { s with
      mem := s.mem.setHalves qeBase (halvesOf out)
      elen := BitVec.ofNat 32 (halvesOf out).length }

/-- HDEC into an array: decodes until the input is exhausted or the array's capacity in bytes is exceeded, and commits
what was decoded in every case but InvalidLength (43_entropy R238). -/
def decodeArray (s : State) (sel : Sel) : State :=
  match lengthCheck s.blen Config.bsmax with
  | some e => raise s e
  | none =>
    let p := s.parsed
    let out := (p.units.map Prod.fst).take (2 * sel.capacity)
    let t := { reassemble s sel out with dcount := BitVec.ofNat 32 out.length }
    if p.units.length > 2 * sel.capacity then complete t .destOverflow []
    else if p.rest != [] then
      complete { t with lossev := satCount t.lossev 1 } .incompleteCodeword [.incomplete]
    else complete t .ok []

/-- HDEC sel (43_entropy R238); a reserved `sel` is an illegal command (30_encoding R122). -/
def execHdec (sel : BitVec 2) (s : State) : Host.Outcome State Fault Refusal :=
  match Sel.ofField sel with
  | none => .next (illegalCommand s)
  | some v => .next (decodeArray s v)

end Sys2Proof.Machine
end

