-- ==== Sys2Proof/Machine/Channel.lean ====
section
/-! DEFINITION. Unit U5, the Channel Simulator: ERASE (44_channel). -/

namespace Sys2Proof.Machine

/-- What the channel does to a sequence of units: the bits kept, how many units were dropped, and the random source
after one draw per unit. -/
structure Erased where
  kept : List Bool
  dropped : Nat
  draws : Draws
deriving DecidableEq, Repr

/-- One draw per unit, in stream order; a unit is dropped iff its draw is below `LOSS_T` (44_channel R272). -/
def eraseUnits (lossT : Nat) : Draws → List (List Bool) → Erased
  | d, [] => ⟨[], 0, d⟩
  | d, u :: us =>
    if (draw d).1 ≥ lossT then
      { eraseUnits lossT (draw d).2 us with kept := u ++ (eraseUnits lossT (draw d).2 us).kept }
    else
      { eraseUnits lossT (draw d).2 us with dropped := (eraseUnits lossT (draw d).2 us).dropped + 1 }

/-- The surviving stream `kept` stored, and the report of what was erased (44_channel R273, R274). -/
def storeErased (s : State) (e : Erased) (kept : List Bool) : State :=
  { s with
    mem := storeBits s.mem kept
    blen := BitVec.ofNat 32 kept.length
    rng := e.draws.rng
    freeCount := e.draws.count
    dropcnt := BitVec.ofNat 32 e.dropped }

/-- ERASE bit: the units are the bits of the stream (44_channel R273). -/
def eraseBits (s : State) : State :=
  let e := eraseUnits s.lossT.toNat s.draws ((s.stream s.blen.toNat).map fun b => [b])
  storeErased s e e.kept

/-- ERASE cw: the units are the codewords CT parses the stream into; the bits after the last one are kept without a
draw (44_channel R274). -/
def eraseCodewords (s : State) : State :=
  let e := eraseUnits s.lossT.toNat s.draws (s.parsed.units.map Prod.snd)
  storeErased s e (e.kept ++ s.parsed.rest)

/-- ERASE: `g` = 0 erases bits, `g` = 1 whole codewords (44_channel R270, R273, R274). -/
def execErase (g : BitVec 1) (s : State) : Host.Outcome State Fault Refusal :=
  match lengthCheck s.blen Config.bsmax with
  | some e => .next (raise s e)
  | none => .next (complete (if g = 0#1 then eraseBits s else eraseCodewords s) .ok [])

end Sys2Proof.Machine
end

