-- ==== Sys2Proof/Machine/Estimator.lean ====
section
/-! DEFINITION. Unit U1, the Predictor Estimator: ACORR and LEVD (40_estimator). -/

namespace Sys2Proof.Machine

/-- The autocorrelation of `X[0..LEN-1]` at lag `k`: the plain sum, exact (40_estimator R161). -/
def autocorr (s : State) (k : Nat) : Int :=
  sumTo (s.len.toNat - k) fun n => s.sample n * s.sample (n + k)

/-- ACORR: `R[0..ORDER]` from X; higher lags are left (40_estimator R161). -/
def execAcorr (s : State) : Host.Outcome State Fault Refusal :=
  match estCheck s with
  | some e => .next (raise s e)
  | none =>
    .next (complete
      { s with r := Vector.ofFn fun k : Fin 33 =>
          if k.val ≤ s.order.toNat then BitVec.ofInt 64 (autocorr s k.val) else s.r[k] }
      .ok [])

/-- The normalisation shift: `Rn[0]` gets 31 significant bits (40_estimator R162). -/
def normShift (r0 : Int) : Int := 31 - (bitlen r0 : Int)

/-- A lag on the normalised scale: shifted left, or right with floor (40_estimator R162). -/
def normLag (sh : Int) (v : Int) : Int := if sh ≥ 0 then v * 2 ^ sh.toNat else v / 2 ^ (-sh).toNat

/-- What the recursion carries from step to step: the error energy, `a[1..i]` (at index `j - 1`; the entries above are
0), how far it got, and the flags so far (40_estimator R162). -/
structure LevWork where
  energy : Int
  coefs : List Int
  achieved : Nat
  satA : Bool
  stopped : Bool
deriving DecidableEq, Repr

/-- The working coefficient `a[j]`, `j` from 1. -/
def LevWork.coef (w : LevWork) (j : Nat) : Int := w.coefs.getD (j - 1) 0

/-- The reflection coefficient of step `i`, in Q7.24 (40_estimator R162). -/
def reflection (rn : List Int) (i : Nat) (w : LevWork) : Int :=
  rdiv (-(rn.getD i 0 * 2 ^ 24 + sumTo (i - 1) fun j => w.coef (j + 1) * rn.getD (i - (j + 1)) 0)) w.energy

/-- The update of `a[j]` in step `i`, before its clamp, from the old coefficients (40_estimator R162). -/
def levUpdate (k : Int) (i : Nat) (w : LevWork) (j : Nat) : Int := w.coef j + rshr (k * w.coef (i - j)) 24

/-- The work after step `i` with the reflection coefficient `k`, of magnitude below 1 (40_estimator R162). -/
def levStep (k : Int) (i : Nat) (w : LevWork) : LevWork :=
  let ts := (List.range (i - 1)).map fun j => levUpdate k i w (j + 1)
  { energy := w.energy - rshr (rshr (k * k) 24 * w.energy) 24
    coefs := ts.map (sat 32) ++ [k]
    achieved := i
    satA := w.satA || ts.any (clamped 32)
    stopped := w.stopped }

/-- The loop of the recursion, at step `i` with `n` steps left (so `P = i + n - 1`): it leaves with LDSTOP when the
reflection coefficient has magnitude 1 or more, or when the energy is used up before step `P` (40_estimator R162). -/
def levLoop (rn : List Int) : Nat → Nat → LevWork → LevWork
  | 0, _, w => w
  | n + 1, i, w =>
    if (reflection rn i w).natAbs ≥ 2 ^ 24 then { w with stopped := true }
    else if (levStep (reflection rn i w) i w).energy ≤ 0 then
      { levStep (reflection rn i w) i w with stopped := w.stopped || n != 0 }
    else levLoop rn n (i + 1) (levStep (reflection rn i w) i w)

/-- The normalised lags `Rn[0..P]` (40_estimator R162). -/
def normLags (s : State) : List Int :=
  (List.range (s.order.toNat + 1)).map fun k => normLag (normShift (s.lag 0)) (s.lag k)

/-- The whole recursion on a state's lags (40_estimator R162). -/
def levRun (s : State) : LevWork :=
  levLoop (normLags s) s.order.toNat 1
    { energy := (normLags s).getD 0 0, coefs := [], achieved := 0, satA := false, stopped := false }

/-- Some lag in `1..P` exceeds `R[0]` in magnitude (40_estimator R162). -/
def lagsExceed (s : State) : Bool :=
  (List.range s.order.toNat).any fun k => decide (((s.lag (k + 1)).natAbs : Int) > s.lag 0)

/-- LEVD: the Levinson-Durbin recursion (40_estimator R162). -/
def execLevd (s : State) : Host.Outcome State Fault Refusal :=
  match estCheck s with
  | some e => .next (raise s e)
  | none =>
    if s.lag 0 < 0 then .next (raise s .invalidAutocorr)
    else if s.lag 0 = 0 then
      .next (complete
        { s with a := Vector.replicate 32 0#32, rsh := 0#32, efin := 0#32, ldord := 0#32 } .ok [.degen])
    else if lagsExceed s then .next (raise s .invalidAutocorr)
    else
      let w := levRun s
      .next (complete
        { s with
          a := Vector.ofFn fun k : Fin 32 => BitVec.ofInt 32 (w.coef (k.val + 1))
          rsh := BitVec.ofInt 32 (normShift (s.lag 0))
          efin := BitVec.ofInt 32 (max w.energy 0)
          ldord := BitVec.ofNat 32 w.achieved }
        .ok (flagIf w.stopped .ldstop ++ flagIf w.satA .satA))

end Sys2Proof.Machine
end

