-- ==== Sys2Proof/Machine/Fidelity.lean ====
section
/-! DEFINITION. Unit U6, the Fidelity Evaluator: FIDEL (45_fidelity). -/

namespace Sys2Proof.Machine

/-- The energy of the original over `n` samples, exact (45_fidelity R290). -/
def signalEnergy (s : State) (n : Nat) : Int := sumTo n fun i => s.sample i * s.sample i

/-- The energy of the noise, the element-wise difference, over `n` samples, exact (45_fidelity R290). -/
def noiseEnergy (s : State) (n : Nat) : Int :=
  sumTo n fun i => (s.sample i - s.recon i) * (s.sample i - s.recon i)

/-- The energies over `n` samples stored, with the flags of the undefined cases (45_fidelity R290, R292). -/
def storeEnergies (s : State) (n : Nat) (fs : List Flag) : State :=
  complete
    { s with
      es := BitVec.ofInt 64 (signalEnergy s n)
      en := BitVec.ofInt 64 (noiseEnergy s n)
      flen := BitVec.ofNat 32 n }
    .ok (fs ++ flagIf (noiseEnergy s n == 0) .enZero ++ flagIf (signalEnergy s n == 0) .esZero)

/-- FIDEL: `t` = 0 raises LengthMismatch on unequal lengths, `t` = 1 compares the common prefix (45_fidelity R290). -/
def execFidel (t : BitVec 1) (s : State) : Host.Outcome State Fault Refusal :=
  match firstOf (lengthCheck s.len Config.nmax) (lengthCheck s.ylen Config.nmax) with
  | some e => .next (raise s e)
  | none =>
    if s.len = s.ylen then .next (storeEnergies s s.len.toNat [])
    else if t = 0#1 then .next (raise s .lengthMismatch)
    else .next (storeEnergies s (min s.len.toNat s.ylen.toNat) [.degraded])

end Sys2Proof.Machine
end

