-- ==== Sys2Proof/Machine/Filter.lean ====
section
/-! DEFINITION. Unit U3, the Predictive Filter Pair: ANALYZE and SYNTH (42_filter). -/

namespace Sys2Proof.Machine

/-- The residual sample `n` before its clamp: `X[n] + rshr(Σ A[k]·X[n-k], 24)`, over the history that exists
(42_filter R211). -/
def residualAt (s : State) (n : Nat) : Int :=
  s.sample n + rshr (sumTo (min s.order.toNat n) fun j => s.coef (j + 1) * s.sample (n - (j + 1))) 24

/-- The residual before its clamp, all of it (42_filter R211). -/
def residual (s : State) : List Int := (List.range s.len.toNat).map (residualAt s)

/-- ANALYZE: the analysis filter and the residual quantization (42_filter R211). -/
def execAnalyze (s : State) : Host.Outcome State Fault Refusal :=
  match firstOf (lengthCheck s.len Config.nmax) (orderCheck s) with
  | some e => .next (raise s e)
  | none =>
    .next (complete
      { s with
        mem := storeInts s.mem qeBase ((residual s).map (sat 16))
        elen := s.len
        qovf := satCount s.qovf ((residual s).countP (clamped 16)) }
      .ok (flagIf ((residual s).any (clamped 16)) .qovf))

/-- The synthesis loop over the residual still to come: `n` outputs are written, `ys` is those outputs, newest first,
after their clamp; the result is the outputs before their clamp, in order (42_filter R212). -/
def synthLoop (coef : Nat → Int) (p : Nat) : List Int → Nat → List Int → List Int
  | [], _, _ => []
  | e :: es, n, ys =>
    (e - rshr (sumTo (min p n) fun j => coef (j + 1) * ys.getD j 0) 24) ::
      synthLoop coef p es (n + 1)
        (sat 16 (e - rshr (sumTo (min p n) fun j => coef (j + 1) * ys.getD j 0) 24) :: ys)

/-- The reconstruction before its clamps, all of it (42_filter R212). -/
def reconstruction (s : State) : List Int :=
  synthLoop s.coef s.order.toNat ((List.range s.elen.toNat).map fun i => (s.qeHalf i).toInt) 0 []

/-- SYNTH: the residual dequantization and the synthesis filter (42_filter R212). -/
def execSynth (s : State) : Host.Outcome State Fault Refusal :=
  match firstOf (lengthCheck s.elen Config.nmax) (orderCheck s) with
  | some e => .next (raise s e)
  | none =>
    .next (complete
      { s with
        mem := storeInts s.mem yBase ((reconstruction s).map (sat 16))
        ylen := s.elen
        ysat := satCount s.ysat ((reconstruction s).countP (clamped 16)) }
      .ok (flagIf ((reconstruction s).any (clamped 16)) .satY))

end Sys2Proof.Machine
end

