-- ==== Sys2Proof/Machine/Quantizer.lean ====
section
/-! DEFINITION. Unit U2, the Quantizer: the four pure transforms, QCOEF and DQCOEF (41_quantizer). -/

namespace Sys2Proof.Machine

/-- Coefficient quantization, Q7.24 to Q15 (41_quantizer R190). -/
def qcoef (v : Int) : Int := sat 16 (rshr v 9)

/-- Coefficient dequantization, Q15 to Q7.24 (41_quantizer R191). -/
def dqcoef (q : Int) : Int := q * 2 ^ 9

/-- Residual quantization, from 24 fraction bits to an integer (41_quantizer R192). -/
def qres (w : Int) : Int := sat 16 (rshr w 24)

/-- Residual dequantization: the integer itself (41_quantizer R192). -/
def dqres (q : Int) : Int := q

/-- How many of `A[1..p]` the quantizer clamps (41_quantizer R194). -/
def coefClamps (s : State) (p : Nat) : Nat :=
  (List.range p).countP fun k => clamped 16 (rshr (s.coef (k + 1)) 9)

/-- QCOEF: `QC[1..32]` from A (41_quantizer R194). -/
def execQcoef (s : State) : Host.Outcome State Fault Refusal :=
  match orderCheck s with
  | some e => .next (raise s e)
  | none =>
    .next (complete
      { s with
        qc := Vector.ofFn fun k : Fin 32 =>
          if k.val < s.order.toNat then BitVec.ofInt 16 (qcoef (s.coef (k.val + 1))) else 0#16
        clen := s.order
        qovf := satCount s.qovf (coefClamps s s.order.toNat) }
      .ok (flagIf (coefClamps s s.order.toNat != 0) .qovf))

/-- DQCOEF: `A[1..32]` from QC (41_quantizer R195). -/
def execDqcoef (s : State) : Host.Outcome State Fault Refusal :=
  match firstOf (orderCheck s) (lengthCheck s.clen Config.pmax) with
  | some e => .next (raise s e)
  | none =>
    .next (complete
      { s with a := Vector.ofFn fun k : Fin 32 =>
          if k.val < s.order.toNat ∧ k.val < s.clen.toNat then
            BitVec.ofInt 32 (dqcoef (s.qcHalf (k.val + 1)).toInt)
          else 0#32 }
      .ok (flagIf (s.clen != s.order) .degraded))

end Sys2Proof.Machine
end

