-- ==== Sys2Proof/Machine/System.lean ====
section
/-! DEFINITION. The command of no unit: NOP (46_system R300). -/

namespace Sys2Proof.Machine

/-- NOP: completes with code 0 and no flags (46_system R300). -/
def execNop (s : State) : Host.Outcome State Fault Refusal := .next (complete s .ok [])

end Sys2Proof.Machine
end

