-- ==== Sys2Proof/Machine/Dispatch.lean ====
section
/-! DEFINITION. The meaning of every command, one arm per constructor: its own rule and the completion bookkeeping
(46_system R304, R305). -/

namespace Sys2Proof.Machine

def exec (i : Instr) (s : State) : Host.Outcome State Fault Refusal :=
  match i with
  | .nop => Sys2Proof.Machine.execNop s
  | .acorr => Sys2Proof.Machine.execAcorr s
  | .levd => Sys2Proof.Machine.execLevd s
  | .qcoef => Sys2Proof.Machine.execQcoef s
  | .dqcoef => Sys2Proof.Machine.execDqcoef s
  | .analyze => Sys2Proof.Machine.execAnalyze s
  | .synth => Sys2Proof.Machine.execSynth s
  | .hbuild sel => Sys2Proof.Machine.execHbuild sel s
  | .henc sel => Sys2Proof.Machine.execHenc sel s
  | .hdec sel => Sys2Proof.Machine.execHdec sel s
  | .erase g => Sys2Proof.Machine.execErase g s
  | .fidel t => Sys2Proof.Machine.execFidel t s

end Sys2Proof.Machine
end

