-- ==== Sys2Proof/Machine/Engine.lean ====
section
/-! DEFINITION. The command engine: the pending command decoded and performed, and the resets, which abandon it
(46_system R301, R304, R306; 70_reset R360). -/

namespace Sys2Proof.Machine

/-- The engine's step: the word in `CMD` is decoded and performed as one atomic step; a word that is not legal
completes with IllegalCommand (46_system R304, R306). -/
def runEngine (s : State) : Host.Outcome State Fault Refusal :=
  match decode (fetchWord s) with
  | .ok i => exec i s
  | .error _ => .next (illegalCommand s)

/-- The state a pending command would leave (itself, should it answer no next state). -/
def completedState (s : State) : State :=
  match runEngine s with
  | .next t => t
  | .fault _ => s
  | .refused _ => s

/-- A reset, soft or by the reset input: the same effect on registers and files; the buffers keep their contents,
except that a running command, which is abandoned without bookkeeping, leaves a mixture of old and new in what it
could write (46_system R301, 70_reset R360, R362; assumptions 6 and 11). -/
def performReset (s : State) : State :=
  if s.busy then
    resetRegisters { s with freeCount := (completedState s).freeCount + 1 }
      (mixMemory (completedState s).freeCount s.mem (completedState s).mem)
  else resetRegisters s s.mem

end Sys2Proof.Machine
end

