-- ==== Sys2Proof/Machine/Bus.lean ====
section
/-! DEFINITION. The host bus: the address map (20_memory R94, 10_state R65), the word layouts, reads and writes and
their side effects (R92, R93), and the refusals while busy (R101). -/

namespace Sys2Proof.Machine

/-- The control registers (10_state R65). -/
inductive CtrlReg where
  | id | version | ctrl | cmd | status | result | sticky | ie | ip | cmdcnt
  | order | len | clen | elen | ylen | blen | symcount | dcount | nsym
  | lossT | rng | bitrate | qscale | qovf | ysat | lossev | dropcnt
  | rsh | efin | ldord | esLo | esHi | enLo | enHi | flen
deriving DecidableEq, Repr

/-- The word address of a control register (10_state R65). -/
def CtrlReg.addr : CtrlReg → Nat
  | .id => 0x00 | .version => 0x01 | .ctrl => 0x02 | .cmd => 0x03 | .status => 0x04
  | .result => 0x05 | .sticky => 0x06 | .ie => 0x07 | .ip => 0x08 | .cmdcnt => 0x09
  | .order => 0x10 | .len => 0x11 | .clen => 0x12 | .elen => 0x13 | .ylen => 0x14
  | .blen => 0x15 | .symcount => 0x16 | .dcount => 0x17 | .nsym => 0x18
  | .lossT => 0x19 | .rng => 0x1A | .bitrate => 0x1B | .qscale => 0x1C
  | .qovf => 0x20 | .ysat => 0x21 | .lossev => 0x22 | .dropcnt => 0x23
  | .rsh => 0x28 | .efin => 0x29 | .ldord => 0x2A
  | .esLo => 0x30 | .esHi => 0x31 | .enLo => 0x32 | .enHi => 0x33 | .flen => 0x34

/-- All control registers, in the order of their addresses. -/
def CtrlReg.all : List CtrlReg :=
  [.id, .version, .ctrl, .cmd, .status, .result, .sticky, .ie, .ip, .cmdcnt,
   .order, .len, .clen, .elen, .ylen, .blen, .symcount, .dcount, .nsym,
   .lossT, .rng, .bitrate, .qscale, .qovf, .ysat, .lossev, .dropcnt,
   .rsh, .efin, .ldord, .esLo, .esHi, .enLo, .enHi, .flen]

/-- A location of the address map (20_memory R94): a register, an element of a file (`a` and `qc` counted from 1, the
others from 0), an element of a buffer, a stream word, or nothing. -/
inductive Loc where
  | reg (r : CtrlReg)
  | freq (s : Nat)
  | ctLen (s : Nat)
  | ctCode (s : Nat)
  | a (k : Nat)
  | qc (k : Nat)
  | rLo (k : Nat)
  | rHi (k : Nat)
  | x (i : Nat)
  | qe (i : Nat)
  | y (i : Nat)
  | bsWord (j : Nat)
  | unmapped
deriving DecidableEq, Repr

/-- The location at a word address (20_memory R94, R102; 10_state R65). -/
def Loc.ofAddr (n : Nat) : Loc :=
  if n < 0x100 then
    match CtrlReg.all.find? (fun r => r.addr == n) with
    | some r => .reg r
    | none => .unmapped
  else if n < 0x200 then .freq (n - 0x100)
  else if n < 0x400 then if n % 2 = 0 then .ctLen ((n - 0x200) / 2) else .ctCode ((n - 0x200) / 2)
  else if n < 0x420 then .a (n - 0x400 + 1)
  else if n < 0x440 then .unmapped
  else if n < 0x460 then .qc (n - 0x440 + 1)
  else if n < 0x480 then .unmapped
  else if n < 0x4C2 then if n % 2 = 0 then .rLo ((n - 0x480) / 2) else .rHi ((n - 0x480) / 2)
  else if n < xBase then .unmapped
  else if n < qeBase then .x (n - xBase)
  else if n < yBase then .qe (n - qeBase)
  else if n < bsBase then .y (n - yBase)
  else if n < bsBase + 0x8000 then .bsWord (n - bsBase)
  else .unmapped

/-- The word address of a location (20_memory R94); an unmapped one has none of its own. -/
def Loc.addr : Loc → Nat
  | .reg r => r.addr
  | .freq s => 0x100 + s
  | .ctLen s => 0x200 + 2 * s
  | .ctCode s => 0x201 + 2 * s
  | .a k => 0x400 + (k - 1)
  | .qc k => 0x440 + (k - 1)
  | .rLo k => 0x480 + 2 * k
  | .rHi k => 0x481 + 2 * k
  | .x i => xBase + i
  | .qe i => qeBase + i
  | .y i => yBase + i
  | .bsWord j => bsBase + j
  | .unmapped => 0x7FFFF

/-- What a control register reads as (10_state R40 to R61). -/
def readReg (s : State) : CtrlReg → Word
  | .id => Config.idWord
  | .version => Config.versionWord
  | .ctrl => 0#32
  | .cmd => s.cmd
  | .status => s.status
  | .result => s.result
  | .sticky => s.sticky
  | .ie => s.ie
  | .ip => s.ip
  | .cmdcnt => s.cmdcnt
  | .order => s.order
  | .len => s.len
  | .clen => s.clen
  | .elen => s.elen
  | .ylen => s.ylen
  | .blen => s.blen
  | .symcount => s.symcount
  | .dcount => s.dcount
  | .nsym => s.nsym
  | .lossT => s.lossT
  | .rng => s.rng
  | .bitrate => s.bitrate
  | .qscale => Config.qscaleWord
  | .qovf => s.qovf
  | .ysat => s.ysat
  | .lossev => s.lossev
  | .dropcnt => s.dropcnt
  | .rsh => s.rsh
  | .efin => s.efin
  | .ldord => s.ldord
  | .esLo => s.es.extractLsb' 0 32
  | .esHi => s.es.extractLsb' 32 32
  | .enLo => s.en.extractLsb' 0 32
  | .enHi => s.en.extractLsb' 32 32
  | .flen => s.flen

/-- What a location reads as, by its layout (20_memory R95, R97, R98, R102, R109). -/
def readLoc (s : State) : Loc → Word
  | .reg r => readReg s r
  | .freq b => (s.freq[b]?).getD 0#32
  | .ctLen b => ((s.ct[b]?).getD ⟨0#6, 0#32⟩).len.setWidth 32
  | .ctCode b => ((s.ct[b]?).getD ⟨0#6, 0#32⟩).code
  | .a k => (s.a[k - 1]?).getD 0#32
  | .qc k => (s.qcHalf k).signExtend 32
  | .rLo k => ((s.r[k]?).getD 0#64).extractLsb' 0 32
  | .rHi k => ((s.r[k]?).getD 0#64).extractLsb' 32 32
  | .x i => (s.mem.half (xBase + i)).signExtend 32
  | .qe i => (s.mem.half (qeBase + i)).signExtend 32
  | .y i => (s.mem.half (yBase + i)).signExtend 32
  | .bsWord j => s.mem.word (bsBase + j)
  | .unmapped => 0#32

/-- A write to a control register: storing, or the register's side effect; a read-only one ignores it (10_state R40
to R61, 20_memory R93, R107). -/
def writeReg (s : State) (v : Word) : CtrlReg → State
  | .ctrl => if v.getLsbD 0 then performReset s else s
  | .cmd => accept s v
  | .sticky => { s with sticky := s.sticky &&& ~~~v }
  | .ie => { s with ie := v &&& 0x3#32 }
  | .ip => { s with ip := s.ip &&& ~~~v }
  | .order => { s with order := v }
  | .len => { s with len := v }
  | .clen => { s with clen := v }
  | .elen => { s with elen := v }
  | .ylen => { s with ylen := v }
  | .blen => { s with blen := v }
  | .symcount => { s with symcount := v }
  | .lossT => { s with lossT := if v.toNat > 65536 then 65536#32 else v }
  | .rng => { s with rng := v }
  | .bitrate => { s with bitrate := v }
  | .qovf => { s with qovf := 0#32 }
  | .ysat => { s with ysat := 0#32 }
  | .lossev => { s with lossev := 0#32 }
  | .id => s
  | .version => s
  | .status => s
  | .result => s
  | .cmdcnt => s
  | .dcount => s
  | .nsym => s
  | .qscale => s
  | .dropcnt => s
  | .rsh => s
  | .efin => s
  | .ldord => s
  | .esLo => s
  | .esHi => s
  | .enLo => s
  | .enHi => s
  | .flen => s

/-- A write to a location, by its layout (20_memory R93, R95, R97, R98, R102, R109). -/
def writeLoc (s : State) (v : Word) : Loc → State
  | .reg r => writeReg s v r
  | .freq b => { s with freq := s.freq.setIfInBounds b v }
  | .ctLen b =>
    { s with ct := s.ct.setIfInBounds b { (s.ct[b]?).getD ⟨0#6, 0#32⟩ with len := v.extractLsb' 0 6 } }
  | .ctCode b => { s with ct := s.ct.setIfInBounds b { (s.ct[b]?).getD ⟨0#6, 0#32⟩ with code := v } }
  | .a k => { s with a := s.a.setIfInBounds (k - 1) v }
  | .qc k => { s with qc := s.qc.setIfInBounds (k - 1) (v.extractLsb' 0 16) }
  | .rLo k => { s with r := s.r.setIfInBounds k (((s.r[k]?).getD 0#64).extractLsb' 32 32 ++ v) }
  | .rHi k => { s with r := s.r.setIfInBounds k (v ++ ((s.r[k]?).getD 0#64).extractLsb' 0 32) }
  | .x i => { s with mem := s.mem.setHalf (xBase + i) (v.extractLsb' 0 16) }
  | .qe i => { s with mem := s.mem.setHalf (qeBase + i) (v.extractLsb' 0 16) }
  | .y i => { s with mem := s.mem.setHalf (yBase + i) (v.extractLsb' 0 16) }
  | .bsWord j => { s with mem := s.mem.setWord (bsBase + j) v }
  | .unmapped => s

/-- While busy, reads of 0x00 to 0x0F are performed normally (20_memory R101). -/
def readAllowed (busy : Bool) (addr : Addr) : Bool := !busy || addr.toNat ≤ 0x0F

/-- While busy, writes to CTRL, STICKY, IE and IP are performed normally (20_memory R101), and a write to a read-only
register of 0x00 to 0x0F is ignored without a flag (R107, assumption 8). -/
def writeAllowed (busy : Bool) (addr : Addr) : Bool :=
  !busy || [CtrlReg.ctrl, .sticky, .ie, .ip, .id, .version, .status, .result, .cmdcnt].any
    (fun r => r.addr == addr.toNat)

/-- A refused access sets `STICKY.BUSERR` (20_memory R101). -/
def refuse (s : State) : State := { s with sticky := s.sticky ||| Flag.busErr.mask }

/-- A host read: the word it returns and the state after it (20_memory R92, R101). -/
def busRead (s : State) (addr : Addr) : Word × State :=
  if readAllowed s.busy addr then (readLoc s (Loc.ofAddr addr.toNat), s) else (0#32, refuse s)

/-- A host write (20_memory R93, R101). -/
def busWrite (s : State) (addr : Addr) (v : Word) : State :=
  if writeAllowed s.busy addr then writeLoc s v (Loc.ofAddr addr.toNat) else refuse s

/-- What one item of the host's list does to the block; a read's word goes to the host's record (assumption 3). -/
def hostEffect (s : State) : HostOp → State
  | .write addr v => busWrite s addr v
  | .read addr => { (busRead s addr).2 with reads := (busRead s addr).1 :: (busRead s addr).2.reads }
  | .wait => s
  | .hardReset => performReset s

/-- The host's turn: the first item of its list is performed; WAIT stays at the head while the STATUS it polls shows
BUSY (30_encoding R129); with an empty list nothing happens, as an idle block does nothing (60_exceptions R346). -/
def hostTurn (s : State) : State :=
  match s.script with
  | [] => s
  | op :: ops =>
    if op = .wait ∧ s.busy then { s with windowLeft := s.windowLeft - 1 }
    else hostEffect { s with script := ops, windowLeft := s.windowLeft - 1 } op

end Sys2Proof.Machine
end

