-- ==== Sys2Proof/Machine/Step.lean ====
section
/-! DEFINITION. One step of the block: the engine completes the pending command, or the host takes its turn. -/

namespace Sys2Proof.Machine

/-- The engine moves next: a command is pending and its busy window takes no more host accesses, or the host has none
(46_system R303, assumption 1). -/
def engineTurn (s : State) : Bool := s.busy && (s.windowLeft == 0 || s.script.isEmpty)

/-- One step (00_scope R6): the engine's, when it is its turn, else the host's. -/
def step (s : State) : Host.Outcome State Fault Refusal :=
  if engineTurn s then runEngine s else .next (hostTurn s)

/-- The command word `w` put where the engine fetches: accepted, as a `CMD` write accepts it, with an empty busy
window, so that the next step performs it (46_system R302, assumption 2). -/
def State.withFetchWord (s : State) (nbits w : Nat) : State :=
  { accept s (BitVec.ofNat 32 (w % 2 ^ nbits)) with windowLeft := 0, windows := s.windows }

end Sys2Proof.Machine
end

