-- ==== Sys2Proof/Safety.lean ====
section
/-! DEFINITION. The terms the statements are written in: what a completion leaves, what a raise is, the invariant of
the state, and the spec's own descriptions of the draws, the parse of a stream and the merging of a Huffman tree. -/

namespace Sys2Proof.Machine

/-- The bookkeeping of a completion with a code and a set of flags, from `s` to `t` (46_system R305). -/
def CompletedWith (s t : State) (err : ErrCode) (fs : List Flag) : Prop :=
  t.result = BitVec.ofNat 32 err.code ||| flagWord fs ∧
  t.sticky = s.sticky ||| flagWord fs ∧
  t.cmdcnt = s.cmdcnt + 1#32 ∧
  t.ip = s.ip ||| (if err = .ok then 0x1#32 else 0x3#32) ∧
  t.busy = false ∧
  t.done = true

/-- `s` with the six fields that the completion bookkeeping writes taken from `t` (46_system R305). A state `t` that
equals it differs from `s` in nothing else. -/
def State.bookFrom (s t : State) : State :=
  { s with
    result := t.result
    sticky := t.sticky
    cmdcnt := t.cmdcnt
    ip := t.ip
    busy := t.busy
    done := t.done }

/-- The command completes with a code and writes nothing but the bookkeeping (00_scope R16, 60_exceptions R320). -/
def Raises (i : Instr) (s : State) (err : ErrCode) : Prop :=
  ∃ t, exec i s = .next t ∧ CompletedWith s t err [] ∧ t = s.bookFrom t ∧ ∀ k, t.byteAt k = s.byteAt k

/-- `RESULT[7:0]` (10_state R44). -/
def State.errByte (s : State) : Nat := (s.result.extractLsb' 0 8).toNat

/-- The state is as every step keeps it: the memory is in canonical form, `LOSS_T` is at most 65536 (10_state R54),
reserved bits of RESULT, STICKY, IE and IP are 0 (R44 to R47), the result code is one of the eleven (60_exceptions
R321), and while a command is pending RESULT and STATUS.DONE are 0 (20_memory R101). -/
def State.Inv (s : State) : Prop :=
  s.mem.wf ∧
  s.lossT.toNat ≤ 65536 ∧
  s.result &&& 0xFE00FF00#32 = 0#32 ∧
  s.errByte ≤ 10 ∧
  s.sticky &&& 0xFC00FFFF#32 = 0#32 ∧
  s.ie &&& 0xFFFFFFFC#32 = 0#32 ∧
  s.ip &&& 0xFFFFFFFC#32 = 0#32 ∧
  (s.busy = true → s.result = 0#32 ∧ s.done = false)

/-- One step of the generator, over the integers (44_channel R271). -/
def lcgStep (x : Nat) : Nat := (x * 1664525 + 1013904223) % 2 ^ 32

/-- The draw for unit `i`, counted from 0: with the generator, the upper half of RNG after `i + 1` steps (44_channel
R271, R272); injected, a free value (assumption 7). -/
def State.drawAt (s : State) (i : Nat) : Nat :=
  match s.drawSource with
  | .lcg => lcgStep^[i + 1] s.rng.toNat / 65536
  | .injected => (Config.injectedDraw (s.freeCount + i)).toNat

/-- RNG after `n` draws (44_channel R271); injected draws leave it (assumption 7). -/
def State.rngAfter (s : State) (n : Nat) : Nat :=
  match s.drawSource with
  | .lcg => lcgStep^[n] s.rng.toNat
  | .injected => s.rng.toNat

/-- A bit sequence read as a number, its first bit most significant (43_entropy R237). -/
def bitValue (w : List Bool) : Nat := w.foldl (fun n b => 2 * n + b.toNat) 0

/-- The bit sequence is the codeword of the symbol: equality of length and of bits (43_entropy R237). -/
def State.IsCodeword (s : State) (b : Byte) (w : List Bool) : Prop :=
  1 ≤ w.length ∧ w.length ≤ 32 ∧ (s.entry b).len.toNat = w.length ∧
    (s.entry b).code.toNat % 2 ^ w.length = bitValue w

/-- The symbol that a buffer matches: the least whose codeword it is (43_entropy R237). -/
def State.Matches (s : State) (w : List Bool) (b : Byte) : Prop :=
  s.IsCodeword b w ∧ ∀ c : Byte, c.toNat < b.toNat → ¬ s.IsCodeword c w

/-- The parse of a bit sequence into codewords: the units in order and a rest are the sequence; each unit matches its
symbol and no shorter beginning of it matches any; no beginning of the rest matches any (43_entropy R238, 44_channel
R274). -/
def State.Parses (s : State) (bits : List Bool) (units : List (Byte × List Bool)) (rest : List Bool) : Prop :=
  units.flatMap Prod.snd ++ rest = bits ∧
  (∀ u ∈ units, s.Matches u.2 u.1 ∧ ∀ w, w <+: u.2 → w ≠ u.2 → ∀ c, ¬ s.IsCodeword c w) ∧
  ∀ w, w <+: rest → ∀ c, ¬ s.IsCodeword c w

/-- The merging of active nodes into one tree: `u` is the least active node in the order (weight, index), `v` the least
of the rest; the new node has the next index, `u` left and `v` right (43_entropy R232). -/
inductive Merges : Multiset HNode → Nat → HTree → Prop where
  | root (n : HNode) (idx : Nat) : Merges {n} idx n.tree
  | merge (u v : HNode) (rest : Multiset HNode) (idx : Nat) (tree : HTree)
      (hu : ∀ x ∈ v ::ₘ rest, u.before x = true)
      (hv : ∀ x ∈ rest, v.before x = true)
      (h : Merges (⟨u.weight + v.weight, idx, .node u.tree v.tree⟩ ::ₘ rest) (idx + 1) tree) :
      Merges (u ::ₘ v ::ₘ rest) idx tree

/-- The branch labels from the root of a tree to the leaf of a symbol, 0 = left, 1 = right (43_entropy R233). -/
inductive HTree.Path : HTree → Nat → List Bool → Prop where
  | leaf (sym : Nat) : HTree.Path (.leaf sym) sym []
  | left (l r : HTree) (sym : Nat) (p : List Bool) (h : HTree.Path l sym p) : HTree.Path (.node l r) sym (false :: p)
  | right (l r : HTree) (sym : Nat) (p : List Bool) (h : HTree.Path r sym p) : HTree.Path (.node l r) sym (true :: p)

/-- The leaves of the distinct symbols of a byte sequence, with index and weight as 43_entropy R232 gives them. -/
def leavesOf (bs : List Byte) : List HNode :=
  ((List.range 256).filter fun b => 0 < bs.count (BitVec.ofNat 8 b)).map fun b =>
    ⟨bs.count (BitVec.ofNat 8 b), b, .leaf b⟩

/-- The word addresses that a command may store to: `some (lo, hi)` for `lo ≤ w < hi` (10_state R67, 20_memory R94). -/
def storeRange : Instr → Option (Nat × Nat)
  | .analyze => some (qeBase, yBase)
  | .synth => some (yBase, bsBase)
  | .henc _ => some (bsBase, bsBase + 0x8000)
  | .hdec sel => if sel = 1#2 then some (qeBase, yBase) else none
  | .erase _ => some (bsBase, bsBase + 0x8000)
  | .nop => none
  | .acorr => none
  | .levd => none
  | .qcoef => none
  | .dqcoef => none
  | .hbuild _ => none
  | .fidel _ => none

/-- The word addresses that hold nothing: the reserved control addresses (10_state R65) and the unmapped ones
(20_memory R102). -/
def holdsNothing (a : Nat) : Prop :=
  (0x0A ≤ a ∧ a ≤ 0x0F) ∨ (0x1D ≤ a ∧ a ≤ 0x1F) ∨ (0x24 ≤ a ∧ a ≤ 0x27) ∨ (0x2B ≤ a ∧ a ≤ 0x2F) ∨
  (0x35 ≤ a ∧ a ≤ 0xFF) ∨ (0x420 ≤ a ∧ a ≤ 0x43F) ∨ (0x460 ≤ a ∧ a ≤ 0x47F) ∨ (0x4C2 ≤ a ∧ a ≤ 0xFFFF) ∨
  0x48000 ≤ a

/-- The part of a written word that a file or buffer location keeps, as it reads back (20_memory R95, R97, R98, R109). -/
def keptPart (a : Nat) (v : Word) : Word :=
  if 0x200 ≤ a ∧ a ≤ 0x3FF ∧ a % 2 = 0 then v &&& 0x3F#32
  else if (0x440 ≤ a ∧ a ≤ 0x45F) ∨ (0x10000 ≤ a ∧ a ≤ 0x3FFFF) then (v.extractLsb' 0 16).signExtend 32
  else if (0x100 ≤ a ∧ a ≤ 0x41F) ∨ (0x480 ≤ a ∧ a ≤ 0x4C1) ∨ (0x40000 ≤ a ∧ a ≤ 0x47FFF) then v
  else 0#32

/-- The control registers with the value each has after any reset (10_state R65). -/
def resetTable : List (Nat × Word) :=
  [(0x00, 0x4C504343#32), (0x01, 0x00010000#32), (0x02, 0#32), (0x03, 0#32), (0x04, 0#32), (0x05, 0#32),
   (0x06, 0#32), (0x07, 0#32), (0x08, 0#32), (0x09, 0#32), (0x10, 10#32), (0x11, 0#32), (0x12, 0#32), (0x13, 0#32),
   (0x14, 0#32), (0x15, 0#32), (0x16, 0#32), (0x17, 0#32), (0x18, 0#32), (0x19, 6554#32), (0x1A, 1#32), (0x1B, 0#32),
   (0x1C, 15#32), (0x20, 0#32), (0x21, 0#32), (0x22, 0#32), (0x23, 0#32), (0x28, 0#32), (0x29, 0#32), (0x2A, 0#32),
   (0x30, 0#32), (0x31, 0#32), (0x32, 0#32), (0x33, 0#32), (0x34, 0#32)]

/-- The addresses of the read-only control registers (10_state R65). -/
def readOnlyAddrs : List Nat :=
  [0x00, 0x01, 0x04, 0x05, 0x09, 0x17, 0x18, 0x1C, 0x23, 0x28, 0x29, 0x2A, 0x30, 0x31, 0x32, 0x33, 0x34]

end Sys2Proof.Machine
end

