-- ==== Sys2Proof/Certificates/Slice0/Obligations.lean ====
section
/-! DEFINITION. The statements for the provers, from the numbered rules of the spec. -/

open Sys2Proof Sys2Proof.Machine

/-! Decoding (30_encoding) -/

/-- 30_encoding R124: the 17 legal command words and the command of each; no other word decodes. -/
def Obligations.LegalWordsAreExactlySeventeen : Prop :=
  ∀ (w : Word) (i : Instr), decode w = .ok i ↔
    (w, i) ∈ [(0x000#32, Instr.nop), (0x001#32, .acorr), (0x002#32, .levd), (0x003#32, .qcoef), (0x004#32, .dqcoef),
      (0x005#32, .analyze), (0x006#32, .synth), (0x007#32, .hbuild 0#2), (0x107#32, .hbuild 1#2),
      (0x008#32, .henc 0#2), (0x108#32, .henc 1#2), (0x009#32, .hdec 0#2), (0x109#32, .hdec 1#2),
      (0x00A#32, .erase 0#1), (0x10A#32, .erase 1#1), (0x00B#32, .fidel 0#1), (0x10B#32, .fidel 1#1)]

/-- 30_encoding R120, R131: decoding and encoding agree in both directions, over every word and every command. -/
def Obligations.DecodeEncodeAgree : Prop :=
  ∀ (w : Word) (i : Instr), decode w = .ok i ↔ (i.wf = true ∧ encode i = w)

/-- 46_system R306: words of the spec that decode, and words that it calls illegal, with the reason. -/
def Obligations.WordsOfTheSpecDecode : Prop :=
  decode 0x00000001#32 = .ok .acorr ∧ decode 0x00000107#32 = .ok (.hbuild 1#2) ∧
  decode 0x00000009#32 = .ok (.hdec 0#2) ∧ decode 0x0000010A#32 = .ok (.erase 1#1) ∧
  decode 0x0000010B#32 = .ok (.fidel 1#1) ∧
  decode 0x0000000C#32 = .error .unknownOpcode ∧ decode 0x00000207#32 = .error .reservedSel ∧
  decode 0x00000101#32 = .error .mustBeZero ∧ decode 0x0000020A#32 = .error .mustBeZero

/-! The engine (46_system) -/

/-- A step runs the decoded command: when a command is pending and the host's accesses of its busy window are done
(none left, or the host has none: the model's choice of who moves next, assumptions 1 and 2), the step is exactly `exec`
of the command that the word in CMD decodes to. -/
def Obligations.StepRunsTheDecodedCommand : Prop :=
  ∀ (s : State) (i : Instr), s.busy = true → (s.windowLeft = 0 ∨ s.script = []) → decode s.cmd = .ok i →
    step s = exec i s

/-- 46_system R302: a write to CMD is accepted when no command is pending, and changes only CMD, RESULT, BUSY and DONE
(and the model's own list and window, assumptions 1 and 2); while one is pending it is dropped, with BUSERR. -/
def Obligations.CommandWriteIsAcceptedOrRefused : Prop :=
  ∀ (s : State) (w : Word) (ops : List HostOp), s.script = .write 0x03#19 w :: ops →
    (s.busy = false →
      step s = .next { s with
        cmd := w, result := 0#32, busy := true, done := false
        script := ops, windowLeft := s.windows.headD 0, windows := s.windows.tail }) ∧
    (s.busy = true → s.windowLeft ≠ 0 →
      step s = .next { s with
        sticky := s.sticky ||| 0x02000000#32, script := ops, windowLeft := s.windowLeft - 1 })

/-- 46_system R305: every command, raising or not, ends with the completion bookkeeping, in which BUSERR is never a
flag; one that ends with a code other than 0 has written nothing else, HDEC excepted. -/
def Obligations.EveryCommandEndsWithTheBookkeeping : Prop :=
  ∀ (i : Instr) (s : State), ∃ (t : State) (err : ErrCode) (fs : List Flag),
    exec i s = .next t ∧ CompletedWith s t err fs ∧ Flag.busErr ∉ fs ∧
    (err ≠ .ok → (∀ sel, i ≠ .hdec sel) → t = s.bookFrom t ∧ fs = [])

/-- 46_system R306: a word that is not legal changes no state and completes with code 5 and no flags. -/
def Obligations.IllegalWordCompletesWithCodeFive : Prop :=
  ∀ s : State, engineTurn s = true → (∀ i, decode s.cmd ≠ .ok i) →
    ∃ t, step s = .next t ∧ CompletedWith s t .illegalCommand [] ∧ t = s.bookFrom t

/-- 30_encoding R122: the encoder's commands with `sel` 2 or 3 are illegal commands. -/
def Obligations.ReservedSelIsIllegal : Prop :=
  ∀ (s : State) (sel : BitVec 2), sel = 2#2 ∨ sel = 3#2 →
    Raises (.hbuild sel) s .illegalCommand ∧ Raises (.henc sel) s .illegalCommand ∧
      Raises (.hdec sel) s .illegalCommand

/-- 70_reset R373: from every state the step answers a next state; nothing stops the block. -/
def Obligations.EveryStepAnswersNext : Prop := ∀ s : State, ∃ t, step s = .next t

/-- 46_system R303: the busy window is finite. From any state with a command pending, the block is idle after at most
one step more than the host accesses that the window takes (counted in the model's own steps, assumption 1). -/
def Obligations.BusyWindowIsFinite : Prop :=
  ∀ s : State, s.busy = true → ∃ n t, n ≤ s.windowLeft + 1 ∧ Host.Core.run Sys2Proof.core n s = .next t ∧ t.busy = false

/-- 46_system R304, 20_memory R101: a host access inside the busy window, other than a reset, changes nothing but
STICKY, IE and IP (and the model's own record, list and count, assumptions 1 to 3). -/
def Obligations.WindowAccessesTouchOnlyTheStatusGroup : Prop :=
  ∀ (s : State) (op : HostOp) (ops : List HostOp), s.busy = true → engineTurn s = false → s.script = op :: ops →
    op ≠ .hardReset → (∀ v, op = .write 0x02#19 v → v.getLsbD 0 = false) →
    ∃ t, step s = .next t ∧
      t = { s with
        sticky := t.sticky, ie := t.ie, ip := t.ip, reads := t.reads, script := t.script, windowLeft := t.windowLeft }

/-- 46_system R304: what a command does is independent of the registers that the host may write during the window
(STICKY, IE, IP) and of the model's own host fields; the bookkeeping is added to whatever they hold. -/
def Obligations.CommandsIgnoreTheStatusGroup : Prop :=
  ∀ (i : Instr) (s : State) (sticky ie ip : Word) (reads : List Word) (script : List HostOp) (left : Nat),
    ∃ t, exec i s = .next t ∧
      exec i { s with sticky := sticky, ie := ie, ip := ip, reads := reads, script := script, windowLeft := left } =
        .next { t with
          sticky := sticky ||| (t.result &&& 0xFFFF0000#32)
          ie := ie
          ip := ip ||| (if t.errByte = 0 then 0x1#32 else 0x3#32)
          reads := reads
          script := script
          windowLeft := left }

/-- 10_state R67, the frame of every command: it writes the bookkeeping and the state its line of the table lists, and
no byte of memory outside the buffer that the line names. -/
def Obligations.CommandsWriteOnlyWhatTheTableLists : Prop :=
  ∀ (i : Instr) (s t : State), exec i s = .next t →
    (t = match i with
      | .nop => s.bookFrom t
      | .acorr => { s.bookFrom t with r := t.r }
      | .levd => { s.bookFrom t with a := t.a, rsh := t.rsh, efin := t.efin, ldord := t.ldord }
      | .qcoef => { s.bookFrom t with qc := t.qc, clen := t.clen, qovf := t.qovf }
      | .dqcoef => { s.bookFrom t with a := t.a }
      | .analyze => { s.bookFrom t with mem := t.mem, elen := t.elen, qovf := t.qovf }
      | .synth => { s.bookFrom t with mem := t.mem, ylen := t.ylen, ysat := t.ysat }
      | .hbuild _ => { s.bookFrom t with freq := t.freq, ct := t.ct, nsym := t.nsym }
      | .henc _ => { s.bookFrom t with mem := t.mem, blen := t.blen, symcount := t.symcount }
      | .hdec sel =>
        if sel = 0#2 then { s.bookFrom t with qc := t.qc, clen := t.clen, dcount := t.dcount, lossev := t.lossev }
        else { s.bookFrom t with mem := t.mem, elen := t.elen, dcount := t.dcount, lossev := t.lossev }
      | .erase _ =>
        { s.bookFrom t with
          mem := t.mem, blen := t.blen, rng := t.rng, dropcnt := t.dropcnt, freeCount := t.freeCount }
      | .fidel _ => { s.bookFrom t with es := t.es, en := t.en, flen := t.flen }) ∧
    ∀ k, (∀ lo hi, storeRange i = some (lo, hi) → ¬ (lo ≤ k / 4 ∧ k / 4 < hi)) → t.byteAt k = s.byteAt k

/-- Every step, the engine's and the host's, keeps the invariant of the state. -/
def Obligations.EveryStepKeepsTheInvariant : Prop :=
  ∀ s t : State, s.Inv → step s = .next t → t.Inv

/-- The state after reset has the invariant. -/
def Obligations.ResetHasTheInvariant : Prop := State.reset.Inv

/-- 46_system R300: NOP is the word 0 and does nothing but complete. -/
def Obligations.NopOnlyCompletes : Prop :=
  decode 0x00000000#32 = .ok .nop ∧
  ∀ s : State, ∃ t, exec .nop s = .next t ∧ CompletedWith s t .ok [] ∧ t = s.bookFrom t ∧
    ∀ k, t.byteAt k = s.byteAt k

/-! The Predictor Estimator (40_estimator) -/

/-- 40_estimator R160: the common check of ACORR and LEVD, in its order. -/
def Obligations.EstimatorCheckRaises : Prop :=
  ∀ s : State,
    (65536 < s.len.toNat → Raises .acorr s .invalidLength ∧ Raises .levd s .invalidLength) ∧
    (s.len.toNat ≤ 65536 → (s.order.toNat = 0 ∨ 32 < s.order.toNat ∨ s.len.toNat ≤ s.order.toNat) →
      Raises .acorr s .invalidOrder ∧ Raises .levd s .invalidOrder)

/-- 40_estimator R161: ACORR writes the exact autocorrelation at lags 0..ORDER and nothing else. -/
def Obligations.AcorrWritesTheAutocorrelation : Prop :=
  ∀ s : State, s.len.toNat ≤ 65536 → 1 ≤ s.order.toNat → s.order.toNat ≤ 32 → s.order.toNat < s.len.toNat →
    ∃ t, exec .acorr s = .next t ∧ CompletedWith s t .ok [] ∧
      (∀ k ≤ s.order.toNat, t.lag k = ∑ n ∈ Finset.range (s.len.toNat - k), s.sample n * s.sample (n + k)) ∧
      (∀ k, s.order.toNat < k → t.lag k = s.lag k) ∧
      t = { s.bookFrom t with r := t.r } ∧ ∀ k, t.byteAt k = s.byteAt k

/-- 60_exceptions R338: what ACORR wrote, LEVD accepts: it completes with code 0. -/
def Obligations.LevdAcceptsWhatAcorrWrote : Prop :=
  ∀ s t : State, s.len.toNat ≤ 65536 → 1 ≤ s.order.toNat → s.order.toNat ≤ 32 → s.order.toNat < s.len.toNat →
    exec .acorr s = .next t → ∃ u, exec .levd t = .next u ∧ u.errByte = 0

/-- 60_exceptions R338: LEVD raises InvalidAutocorr on lags no signal can have. -/
def Obligations.LevdRaisesOnImpossibleLags : Prop :=
  ∀ s : State, s.len.toNat ≤ 65536 → 1 ≤ s.order.toNat → s.order.toNat ≤ 32 → s.order.toNat < s.len.toNat →
    (s.lag 0 < 0 ∨ (0 < s.lag 0 ∧ ∃ k, 1 ≤ k ∧ k ≤ s.order.toNat ∧ s.lag 0 < |s.lag k|)) →
    Raises .levd s .invalidAutocorr

/-- 40_estimator R162: silent input gives the zero vector, without a division, with the flag DEGEN. -/
def Obligations.LevdOfSilenceIsZero : Prop :=
  ∀ s : State, s.len.toNat ≤ 65536 → 1 ≤ s.order.toNat → s.order.toNat ≤ 32 → s.order.toNat < s.len.toNat →
    s.lag 0 = 0 →
    ∃ t, exec .levd s = .next t ∧ CompletedWith s t .ok [.degen] ∧
      (∀ k, t.coef k = 0) ∧ t.rsh = 0#32 ∧ t.efin = 0#32 ∧ t.ldord = 0#32 ∧
      t = { s.bookFrom t with a := t.a, rsh := t.rsh, efin := t.efin, ldord := t.ldord } ∧
      ∀ k, t.byteAt k = s.byteAt k

/-- 40_estimator R162: on lags a signal can have, LEVD is the fixed-point recursion: there are an error energy `e i` and
a coefficient vector `a i` for every order `i` reached, each made from the one before as the rule says, on lags
normalised to 31 significant bits; it stops before ORDER exactly when the energy is used up or the next reflection
coefficient has magnitude 1 or more; what it stores is exact. -/
def Obligations.LevdIsTheFixedPointRecursion : Prop :=
  ∀ s : State, s.len.toNat ≤ 65536 → 1 ≤ s.order.toNat → s.order.toNat ≤ 32 → s.order.toNat < s.len.toNat →
    0 < s.lag 0 → (∀ k, 1 ≤ k → k ≤ s.order.toNat → |s.lag k| ≤ s.lag 0) →
    ∃ (t : State) (rn : Nat → Int) (e : Nat → Int) (a : Nat → Nat → Int) (refl : Nat → Int) (sat : Bool),
      exec .levd s = .next t ∧
      (∀ k ≤ s.order.toNat, rn k = ⌊(s.lag k : ℚ) * (2 : ℚ) ^ t.rsh.toInt⌋) ∧
      2 ^ 30 ≤ rn 0 ∧ rn 0 < 2 ^ 31 ∧
      e 0 = rn 0 ∧ (∀ j, a 0 j = 0) ∧
      (∀ i, 1 ≤ i → i ≤ s.order.toNat →
        refl i = rdiv (-(rn i * 2 ^ 24 + ∑ j ∈ Finset.Ico 1 i, a (i - 1) j * rn (i - j))) (e (i - 1))) ∧
      (∀ i, 1 ≤ i → i ≤ t.ldord.toNat →
        0 < e (i - 1) ∧ |refl i| < 2 ^ 24 ∧
        (∀ j, 1 ≤ j → j < i → a i j = Machine.sat 32 (a (i - 1) j + rshr (refl i * a (i - 1) (i - j)) 24)) ∧
        a i i = refl i ∧ (∀ j, i < j → a i j = 0) ∧
        e i = e (i - 1) - rshr (rshr (refl i * refl i) 24 * e (i - 1)) 24) ∧
      t.ldord.toNat ≤ s.order.toNat ∧
      (t.ldord.toNat < s.order.toNat →
        e t.ldord.toNat ≤ 0 ∨ 2 ^ 24 ≤ |refl (t.ldord.toNat + 1)|) ∧
      (sat = true ↔ ∃ i j, 1 ≤ j ∧ j < i ∧ i ≤ t.ldord.toNat ∧
        clamped 32 (a (i - 1) j + rshr (refl i * a (i - 1) (i - j)) 24) = true) ∧
      CompletedWith s t .ok (flagIf (t.ldord.toNat < s.order.toNat) .ldstop ++ flagIf sat .satA) ∧
      (∀ k, 1 ≤ k → k ≤ 32 → t.coef k = if k ≤ t.ldord.toNat then a t.ldord.toNat k else 0) ∧
      (t.efin.toNat : Int) = max (e t.ldord.toNat) 0 ∧
      t = { s.bookFrom t with a := t.a, rsh := t.rsh, efin := t.efin, ldord := t.ldord } ∧
      ∀ k, t.byteAt k = s.byteAt k

/-! The Quantizer (41_quantizer) -/

/-- 00_scope R13, R14: the two roundings are the floors that the rules write, over the rationals. -/
def Obligations.RoundingsAreTheFloorsOfTheRules : Prop :=
  (∀ (x : Int) (n : Nat), 1 ≤ n → rshr x n = ⌊((x : ℚ) + 2 ^ (n - 1)) / 2 ^ n⌋) ∧
  (∀ n d : Int, 0 < d → rdiv n d = ⌊(2 * (n : ℚ) + d) / (2 * d)⌋)

/-- 41_quantizer R196: the transforms round-trip on the grid, err by at most 511 below magnitude 1 (256 without the
clamp), and are monotonic. -/
def Obligations.QuantizersRoundTripAndAreMonotonic : Prop :=
  (∀ q : Int, -32768 ≤ q → q ≤ 32767 → qcoef (dqcoef q) = q ∧ qres (dqres q * 2 ^ 24) = q) ∧
  (∀ v : Int, |v| < 2 ^ 24 → |dqcoef (qcoef v) - v| ≤ 511 ∧
    (clamped 16 (rshr v 9) = false → |dqcoef (qcoef v) - v| ≤ 256)) ∧
  |dqcoef (qcoef (2 ^ 24 - 1)) - (2 ^ 24 - 1)| = 511 ∧
  (∀ v w : Int, v ≤ w → qcoef v ≤ qcoef w ∧ qres v ≤ qres w)

/-- 41_quantizer R194: QCOEF raises InvalidOrder on a bad ORDER; else it quantizes `A[1..ORDER]`, clears the rest of QC,
and counts the clamped ones. -/
def Obligations.QcoefQuantizesTheCoefficients : Prop :=
  decode 0x00000003#32 = .ok .qcoef ∧
  ∀ s : State,
    ((s.order.toNat = 0 ∨ 32 < s.order.toNat) → Raises .qcoef s .invalidOrder) ∧
    (1 ≤ s.order.toNat → s.order.toNat ≤ 32 →
      let clamps := ((Finset.range s.order.toNat).filter fun k =>
        rshr (s.coef (k + 1)) 9 < -32768 ∨ 32767 < rshr (s.coef (k + 1)) 9).card
      ∃ t, exec .qcoef s = .next t ∧ CompletedWith s t .ok (flagIf (0 < clamps) .qovf) ∧
        (∀ k, 1 ≤ k → k ≤ 32 →
          (t.qcHalf k).toInt = if k ≤ s.order.toNat then sat 16 (rshr (s.coef k) 9) else 0) ∧
        t.clen = s.order ∧ t.qovf.toNat = min (s.qovf.toNat + clamps) (2 ^ 32 - 1) ∧
        t = { s.bookFrom t with qc := t.qc, clen := t.clen, qovf := t.qovf } ∧ ∀ k, t.byteAt k = s.byteAt k)

/-- 41_quantizer R195: DQCOEF checks ORDER, then CLEN; it takes `QC[k] · 2^9` where both reach, 0 elsewhere, with
DEGRADED when they differ. -/
def Obligations.DqcoefDequantizesTheCoefficients : Prop :=
  decode 0x00000004#32 = .ok .dqcoef ∧
  ∀ s : State,
    ((s.order.toNat = 0 ∨ 32 < s.order.toNat) → Raises .dqcoef s .invalidOrder) ∧
    (1 ≤ s.order.toNat → s.order.toNat ≤ 32 → 32 < s.clen.toNat → Raises .dqcoef s .invalidLength) ∧
    (1 ≤ s.order.toNat → s.order.toNat ≤ 32 → s.clen.toNat ≤ 32 →
      ∃ t, exec .dqcoef s = .next t ∧ CompletedWith s t .ok (flagIf (s.clen ≠ s.order) .degraded) ∧
        (∀ k, 1 ≤ k → k ≤ 32 →
          t.coef k = if k ≤ s.order.toNat ∧ k ≤ s.clen.toNat then (s.qcHalf k).toInt * 2 ^ 9 else 0) ∧
        t = { s.bookFrom t with a := t.a } ∧ ∀ k, t.byteAt k = s.byteAt k)

/-! The Predictive Filter Pair (42_filter) -/

/-- 42_filter R211: ANALYZE checks LEN, then ORDER; it writes the rounded, clamped residual of the prediction-error
filter, started from rest. -/
def Obligations.AnalyzeWritesTheResidual : Prop :=
  decode 0x00000005#32 = .ok .analyze ∧
  ∀ s : State,
    (65536 < s.len.toNat → Raises .analyze s .invalidLength) ∧
    (s.len.toNat ≤ 65536 → (s.order.toNat = 0 ∨ 32 < s.order.toNat) → Raises .analyze s .invalidOrder) ∧
    (s.len.toNat ≤ 65536 → 1 ≤ s.order.toNat → s.order.toNat ≤ 32 →
      let res := fun n => s.sample n + rshr (∑ k ∈ Finset.Icc 1 (min s.order.toNat n), s.coef k * s.sample (n - k)) 24
      let clamps := ((Finset.range s.len.toNat).filter fun n => res n < -32768 ∨ 32767 < res n).card
      ∃ t, exec .analyze s = .next t ∧ CompletedWith s t .ok (flagIf (0 < clamps) .qovf) ∧
        (∀ n < s.len.toNat, (t.qeHalf n).toInt = sat 16 (res n)) ∧
        t.elen = s.len ∧ t.qovf.toNat = min (s.qovf.toNat + clamps) (2 ^ 32 - 1) ∧
        t = { s.bookFrom t with mem := t.mem, elen := t.elen, qovf := t.qovf } ∧
        ∀ k, (∀ n < s.len.toNat, k ≠ 4 * (qeBase + n) ∧ k ≠ 4 * (qeBase + n) + 1) → t.byteAt k = s.byteAt k)

/-- 42_filter R212: SYNTH checks ELEN, then ORDER; it writes the output of the all-pole filter, each output rounded and
clamped before it is fed back: the equation holds of the stored outputs themselves. -/
def Obligations.SynthWritesTheReconstruction : Prop :=
  decode 0x00000006#32 = .ok .synth ∧
  ∀ s : State,
    (65536 < s.elen.toNat → Raises .synth s .invalidLength) ∧
    (s.elen.toNat ≤ 65536 → (s.order.toNat = 0 ∨ 32 < s.order.toNat) → Raises .synth s .invalidOrder) ∧
    (s.elen.toNat ≤ 65536 → 1 ≤ s.order.toNat → s.order.toNat ≤ 32 →
      ∃ t, exec .synth s = .next t ∧
        let out := fun n =>
          (s.qeHalf n).toInt - rshr (∑ k ∈ Finset.Icc 1 (min s.order.toNat n), s.coef k * t.recon (n - k)) 24
        let clamps := ((Finset.range s.elen.toNat).filter fun n => out n < -32768 ∨ 32767 < out n).card
        CompletedWith s t .ok (flagIf (0 < clamps) .satY) ∧
        (∀ n < s.elen.toNat, t.recon n = sat 16 (out n)) ∧
        t.ylen = s.elen ∧ t.ysat.toNat = min (s.ysat.toNat + clamps) (2 ^ 32 - 1) ∧
        t = { s.bookFrom t with mem := t.mem, ylen := t.ylen, ysat := t.ysat } ∧
        ∀ k, (∀ n < s.elen.toNat, k ≠ 4 * (yBase + n) ∧ k ≠ 4 * (yBase + n) + 1) → t.byteAt k = s.byteAt k)

/-- 42_filter R213: when ANALYZE clamped no residual sample, SYNTH with the same order, coefficients and residual gives
the signal back, every sample of it, and clamps nothing. -/
def Obligations.SynthInvertsAnalyze : Prop :=
  ∀ s t u : State, s.len.toNat ≤ 65536 → 1 ≤ s.order.toNat → s.order.toNat ≤ 32 →
    exec .analyze s = .next t → t.result.getLsbD 16 = false →
    u.order = s.order → (∀ k, 1 ≤ k → k ≤ s.order.toNat → u.coef k = s.coef k) →
    u.elen = s.len → (∀ n < s.len.toNat, u.qeHalf n = t.qeHalf n) →
    ∃ v, exec .synth u = .next v ∧ (∀ n < s.len.toNat, v.recon n = s.sample n) ∧ v.result = 0#32

/-! The Entropy Coder (43_entropy) -/

/-- 43_entropy R231, R234, R235: HBUILD checks the array's length; it counts every byte value, gives a codeword to
exactly the symbols that occur, and the codeword "0" to a single one. (That every codeword fits in 32 bits, the
hypothesis here, holds always: `CodeTooLongCannotOccur`.) -/
def Obligations.HbuildCountsTheSymbols : Prop :=
  decode 0x00000007#32 = .ok (.hbuild 0#2) ∧ decode 0x00000107#32 = .ok (.hbuild 1#2) ∧
  ∀ (s : State) (f : BitVec 2) (v : Sel), Sel.ofField f = some v →
    (v.capacity < s.selLen v → Raises (.hbuild f) s .invalidLength) ∧
    (s.selLen v ≤ v.capacity → (∀ c ∈ codewordsOf (countBytes (s.src v)), c.2.1 ≤ 32) →
      ∃ t, exec (.hbuild f) s = .next t ∧
        CompletedWith s t .ok (flagIf ((s.src v).toFinset.card = 1) .degen) ∧
        (∀ b : Byte, (readLoc t (.freq b.toNat)).toNat = (s.src v).count b) ∧
        t.nsym.toNat = (s.src v).toFinset.card ∧
        (∀ b : Byte, b ∉ s.src v → t.entry b = ⟨0#6, 0#32⟩) ∧
        (∀ b ∈ s.src v, 1 ≤ (t.entry b).len.toNat ∧ (t.entry b).len.toNat ≤ 32 ∧
          (t.entry b).code.toNat < 2 ^ (t.entry b).len.toNat) ∧
        ((s.src v).toFinset.card = 1 → ∀ b ∈ s.src v, t.entry b = ⟨1#6, 0#32⟩) ∧
        t = { s.bookFrom t with freq := t.freq, ct := t.ct, nsym := t.nsym } ∧ ∀ k, t.byteAt k = s.byteAt k)

/-- 43_entropy R232, R233: the codewords HBUILD writes are the root-to-leaf paths of a tree that the merge rule builds
from the leaves of the distinct symbols, the first created node having index 256; an entry's length is the number of
steps, its code the labels read as a number, and a symbol that does not occur has (0, 0). -/
def Obligations.HbuildFollowsTheMergeRule : Prop :=
  ∀ (s : State) (f : BitVec 2) (v : Sel), Sel.ofField f = some v → s.selLen v ≤ v.capacity →
    (∀ c ∈ codewordsOf (countBytes (s.src v)), c.2.1 ≤ 32) → 2 ≤ (s.src v).toFinset.card →
    ∃ t tree, exec (.hbuild f) s = .next t ∧ Merges (leavesOf (s.src v) : Multiset HNode) 256 tree ∧
      (∀ b ∈ s.src v, ∃ path, HTree.Path tree b.toNat path ∧ (t.entry b).bits = path ∧
        (t.entry b).len.toNat = path.length ∧ (t.entry b).code.toNat = bitValue path) ∧
      ∀ b, b ∉ s.src v → t.entry b = ⟨0#6, 0#32⟩

/-- 43_entropy R260 (a): in a table that HBUILD wrote no codeword is a prefix of another. -/
def Obligations.HbuildCodesArePrefixFree : Prop :=
  ∀ (s t : State) (f : BitVec 2) (v : Sel), Sel.ofField f = some v → exec (.hbuild f) s = .next t → t.errByte = 0 →
    ∀ b c : Byte, b ≠ c → (t.entry b).len ≠ 0#6 → (t.entry c).len ≠ 0#6 → ¬ (t.entry b).bits <+: (t.entry c).bits

/-- 43_entropy R261, 60_exceptions R328: HBUILD never reports CodeTooLong, and no codeword is longer than 24 bits. -/
def Obligations.CodeTooLongCannotOccur : Prop :=
  ∀ (s : State) (f : BitVec 2) (v : Sel), Sel.ofField f = some v → s.selLen v ≤ v.capacity →
    (∀ c ∈ codewordsOf (countBytes (s.src v)), c.2.1 ≤ 24) ∧
    ∃ t, exec (.hbuild f) s = .next t ∧ t.errByte = 0

/-- 43_entropy R236: HENC checks the array's length, then that every byte has a codeword, then the stream's length; it
writes the concatenated codewords of the array's bytes, 0 to the end of the last word, and nothing beyond it. -/
def Obligations.HencWritesTheStream : Prop :=
  decode 0x00000008#32 = .ok (.henc 0#2) ∧ decode 0x00000108#32 = .ok (.henc 1#2) ∧
  ∀ (s : State) (f : BitVec 2) (v : Sel), Sel.ofField f = some v →
    let coded := ∀ b ∈ s.src v, 1 ≤ (s.entry b).len.toNat ∧ (s.entry b).len.toNat ≤ 32
    let total := ((s.src v).map fun b => (s.entry b).len.toNat).sum
    (v.capacity < s.selLen v → Raises (.henc f) s .invalidLength) ∧
    (s.selLen v ≤ v.capacity → ¬ coded → Raises (.henc f) s .symbolNotInTable) ∧
    (s.selLen v ≤ v.capacity → coded → 1048576 < total → Raises (.henc f) s .streamOverflow) ∧
    (s.selLen v ≤ v.capacity → coded → total ≤ 1048576 →
      ∃ t, exec (.henc f) s = .next t ∧ CompletedWith s t .ok [] ∧
        t.blen.toNat = total ∧ t.symcount.toNat = 2 * s.selLen v ∧
        t.stream total = (s.src v).flatMap (fun b => (s.entry b).bits) ∧
        (∀ i, total ≤ i → i < 32 * ((total + 31) / 32) → t.mem.streamBit i = false) ∧
        t = { s.bookFrom t with mem := t.mem, blen := t.blen, symcount := t.symcount } ∧
        ∀ k, ¬ (bsBase ≤ k / 4 ∧ k / 4 < bsBase + (total + 31) / 32) → t.byteAt k = s.byteAt k)

/-- 43_entropy R237 to R239: HDEC checks BLEN; it parses the stream codeword by codeword, stores the whole values
decoded up to the array's capacity, and reports DestOverflow, IncompleteCodeword or 0. -/
def Obligations.HdecDecodesTheStream : Prop :=
  decode 0x00000009#32 = .ok (.hdec 0#2) ∧ decode 0x00000109#32 = .ok (.hdec 1#2) ∧
  ∀ (s : State) (f : BitVec 2) (v : Sel), Sel.ofField f = some v →
    (1048576 < s.blen.toNat → Raises (.hdec f) s .invalidLength) ∧
    (s.blen.toNat ≤ 1048576 →
      ∃ (t : State) (units : List (Byte × List Bool)) (rest : List Bool),
        s.Parses (s.stream s.blen.toNat) units rest ∧ exec (.hdec f) s = .next t ∧
        let out := (units.map Prod.fst).take (2 * v.capacity)
        let n := out.length / 2
        (if 2 * v.capacity < units.length then CompletedWith s t .destOverflow [] ∧ t.lossev = s.lossev
          else if rest ≠ [] then CompletedWith s t .incompleteCodeword [.incomplete] ∧
            t.lossev.toNat = min (s.lossev.toNat + 1) (2 ^ 32 - 1)
          else CompletedWith s t .ok [] ∧ t.lossev = s.lossev) ∧
        t.dcount.toNat = out.length ∧ t.selLen v = n ∧
        (∀ i < n, t.selHalf v i = out.getD (2 * i + 1) 0#8 ++ out.getD (2 * i) 0#8) ∧
        (v = .qc →
          (∀ k, n < k → k ≤ 32 → t.qcHalf k = 0#16) ∧
          t = { s.bookFrom t with qc := t.qc, clen := t.clen, dcount := t.dcount, lossev := t.lossev }) ∧
        (v = .qe → t = { s.bookFrom t with mem := t.mem, elen := t.elen, dcount := t.dcount, lossev := t.lossev }) ∧
        ∀ k, (v = .qe → ∀ i < n, k ≠ 4 * (qeBase + i) ∧ k ≠ 4 * (qeBase + i) + 1) → t.byteAt k = s.byteAt k)

/-- 43_entropy R260 (b): HBUILD, HENC and HDEC of one array, with nothing in between, give the array and its length
back, with code 0 and DCOUNT equal to SYMCOUNT. (That HENC cannot raise here is `HencAfterHbuildCannotRaise`.) -/
def Obligations.EntropyCodingIsLossless : Prop :=
  ∀ (s t u : State) (f : BitVec 2) (v : Sel), Sel.ofField f = some v →
    exec (.hbuild f) s = .next t → t.errByte = 0 → exec (.henc f) t = .next u → u.errByte = 0 →
    ∃ w, exec (.hdec f) u = .next w ∧ w.errByte = 0 ∧ w.dcount = u.symcount ∧ w.selLen v = s.selLen v ∧
      ∀ i < s.selLen v, w.selHalf v i = s.selHalf v i

/-! The Channel Simulator (44_channel) -/

/-- 44_channel R271 to R273: `ERASE bit` checks BLEN; it keeps exactly the bits whose draw is at least LOSS_T, in
order, one draw a bit; the rest of the last word is 0 and no later word is written. (With injected draws the draw is a
free value and RNG is not moved: the model's choice, assumption 7.) -/
def Obligations.EraseBitKeepsByDraw : Prop :=
  decode 0x0000000A#32 = .ok (.erase 0#1) ∧
  ∀ s : State,
    (1048576 < s.blen.toNat → Raises (.erase 0#1) s .invalidLength) ∧
    (s.blen.toNat ≤ 1048576 →
      let kept := ((s.stream s.blen.toNat).zipIdx.filter fun p => s.lossT.toNat ≤ s.drawAt p.2).map Prod.fst
      ∃ t, exec (.erase 0#1) s = .next t ∧ CompletedWith s t .ok [] ∧
        t.blen.toNat = kept.length ∧ t.stream kept.length = kept ∧
        t.dropcnt.toNat + kept.length = s.blen.toNat ∧ t.rng.toNat = s.rngAfter s.blen.toNat ∧
        (∀ i, kept.length ≤ i → i < 32 * ((kept.length + 31) / 32) → t.mem.streamBit i = false) ∧
        t = { s.bookFrom t with
          mem := t.mem, blen := t.blen, rng := t.rng, dropcnt := t.dropcnt, freeCount := t.freeCount } ∧
        ∀ k, ¬ (bsBase ≤ k / 4 ∧ k / 4 < bsBase + (kept.length + 31) / 32) → t.byteAt k = s.byteAt k)

/-- 44_channel R271, R272, R274: `ERASE cw` checks BLEN; it keeps exactly the codewords whose draw is at least LOSS_T,
whole and in order, one draw a codeword, and the bits after the last whole codeword without a draw (draws as in
assumption 7). -/
def Obligations.EraseCodewordKeepsByDraw : Prop :=
  decode 0x0000010A#32 = .ok (.erase 1#1) ∧
  ∀ s : State,
    (1048576 < s.blen.toNat → Raises (.erase 1#1) s .invalidLength) ∧
    (s.blen.toNat ≤ 1048576 →
      ∃ (t : State) (units : List (Byte × List Bool)) (rest : List Bool),
        s.Parses (s.stream s.blen.toNat) units rest ∧ exec (.erase 1#1) s = .next t ∧ CompletedWith s t .ok [] ∧
        let survivors := units.zipIdx.filter fun p => s.lossT.toNat ≤ s.drawAt p.2
        let kept := survivors.flatMap (fun p => p.1.2) ++ rest
        t.blen.toNat = kept.length ∧ t.stream kept.length = kept ∧
        t.dropcnt.toNat + survivors.length = units.length ∧ t.rng.toNat = s.rngAfter units.length ∧
        (∀ i, kept.length ≤ i → i < 32 * ((kept.length + 31) / 32) → t.mem.streamBit i = false) ∧
        t = { s.bookFrom t with
          mem := t.mem, blen := t.blen, rng := t.rng, dropcnt := t.dropcnt, freeCount := t.freeCount } ∧
        ∀ k, ¬ (bsBase ≤ k / 4 ∧ k / 4 < bsBase + (kept.length + 31) / 32) → t.byteAt k = s.byteAt k)

/-- 44_channel R275 (a), (b): at loss rate 0 the stream is unchanged, in either granularity; at loss rate 1 `ERASE bit`
leaves an empty stream, and so does `ERASE cw` of a stream that is whole codewords of CT; no byte of BS is written. -/
def Obligations.EraseAtTheEndsOfTheLossRate : Prop :=
  ∀ s : State, s.blen.toNat ≤ 1048576 →
    (s.lossT = 0#32 → ∀ g, ∃ t, exec (.erase g) s = .next t ∧
      t.blen = s.blen ∧ t.stream s.blen.toNat = s.stream s.blen.toNat ∧ t.dropcnt = 0#32) ∧
    (s.lossT = 65536#32 → ∃ t, exec (.erase 0#1) s = .next t ∧
      t.blen = 0#32 ∧ t.dropcnt = s.blen ∧ ∀ k, t.byteAt k = s.byteAt k) ∧
    (s.lossT = 65536#32 → ∀ units, s.Parses (s.stream s.blen.toNat) units [] → ∃ t, exec (.erase 1#1) s = .next t ∧
      t.blen = 0#32 ∧ t.dropcnt.toNat = units.length ∧ ∀ k, t.byteAt k = s.byteAt k)

/-! The Fidelity Evaluator (45_fidelity) -/

/-- 45_fidelity R290: FIDEL checks LEN and YLEN, and in its strict form that they are equal; it sums the two energies
exactly over the samples compared, and flags the undefined cases. -/
def Obligations.FidelSumsTheEnergies : Prop :=
  decode 0x0000000B#32 = .ok (.fidel 0#1) ∧ decode 0x0000010B#32 = .ok (.fidel 1#1) ∧
  ∀ (s : State) (m : BitVec 1),
    ((65536 < s.len.toNat ∨ 65536 < s.ylen.toNat) → Raises (.fidel m) s .invalidLength) ∧
    (s.len.toNat ≤ 65536 → s.ylen.toNat ≤ 65536 → s.len ≠ s.ylen → m = 0#1 → Raises (.fidel m) s .lengthMismatch) ∧
    (s.len.toNat ≤ 65536 → s.ylen.toNat ≤ 65536 → (s.len = s.ylen ∨ m = 1#1) →
      let n := min s.len.toNat s.ylen.toNat
      let es := ∑ i ∈ Finset.range n, s.sample i ^ 2
      let en := ∑ i ∈ Finset.range n, (s.sample i - s.recon i) ^ 2
      ∃ t, exec (.fidel m) s = .next t ∧
        CompletedWith s t .ok
          (flagIf (s.len ≠ s.ylen) .degraded ++ flagIf (en = 0) .enZero ++ flagIf (es = 0) .esZero) ∧
        (t.es.toNat : Int) = es ∧ (t.en.toNat : Int) = en ∧ t.flen.toNat = n ∧
        t = { s.bookFrom t with es := t.es, en := t.en, flen := t.flen } ∧ ∀ k, t.byteAt k = s.byteAt k)

/-! The host bus (20_memory) -/

/-- 20_memory R94, R102, 10_state R65: the address map, the 35 control registers at the addresses of R65, the files and
buffers element by element, and which addresses hold nothing. -/
def Obligations.AddressMapIsTheTable : Prop :=
  (∀ p ∈ ([
    (0x00, .id), (0x01, .version), (0x02, .ctrl), (0x03, .cmd), (0x04, .status), (0x05, .result), (0x06, .sticky),
      (0x07, .ie), (0x08, .ip), (0x09, .cmdcnt), (0x10, .order), (0x11, .len), (0x12, .clen), (0x13, .elen),
      (0x14, .ylen), (0x15, .blen), (0x16, .symcount), (0x17, .dcount), (0x18, .nsym), (0x19, .lossT),
      (0x1A, .rng), (0x1B, .bitrate), (0x1C, .qscale), (0x20, .qovf), (0x21, .ysat), (0x22, .lossev),
      (0x23, .dropcnt), (0x28, .rsh), (0x29, .efin), (0x2A, .ldord), (0x30, .esLo), (0x31, .esHi), (0x32, .enLo),
      (0x33, .enHi), (0x34, .flen)] : List (Nat × CtrlReg)), Loc.ofAddr p.1 = .reg p.2) ∧
  (∀ b < 256, Loc.ofAddr (0x100 + b) = .freq b ∧ Loc.ofAddr (0x200 + 2 * b) = .ctLen b ∧
    Loc.ofAddr (0x201 + 2 * b) = .ctCode b) ∧
  (∀ k, 1 ≤ k → k ≤ 32 → Loc.ofAddr (0x400 + (k - 1)) = .a k ∧ Loc.ofAddr (0x440 + (k - 1)) = .qc k) ∧
  (∀ k ≤ 32, Loc.ofAddr (0x480 + 2 * k) = .rLo k ∧ Loc.ofAddr (0x481 + 2 * k) = .rHi k) ∧
  (∀ i < 65536, Loc.ofAddr (0x10000 + i) = .x i ∧ Loc.ofAddr (0x20000 + i) = .qe i ∧
    Loc.ofAddr (0x30000 + i) = .y i) ∧
  (∀ j < 32768, Loc.ofAddr (0x40000 + j) = .bsWord j) ∧
  (∀ n < 2 ^ 19, Loc.ofAddr n = .unmapped ↔ holdsNothing n)

/-- 20_memory R93, R95, R97, R98, R109: a write to a file or buffer address reads back as the part its layout keeps,
and every other address of the bus reads as before. -/
def Obligations.BusWriteThenRead : Prop :=
  ∀ (s : State) (a b : Addr) (v : Word), s.busy = false → 0x100 ≤ a.toNat →
    (busRead (busWrite s a v) b).1 = if b = a then keptPart a.toNat v else (busRead s b).1

/-- 20_memory R92: outside the busy window a read changes no state. -/
def Obligations.IdleReadChangesNothing : Prop :=
  ∀ (s : State) (a : Addr), s.busy = false → (busRead s a).2 = s

/-- 20_memory R97: after a write of a word to the stream, stream bit `32 j + i` is its bit `31 - i`, and the bits of
other words are as before. -/
def Obligations.StreamBitsAreMostSignificantFirst : Prop :=
  ∀ (s : State) (v : Word) (j n : Nat), s.busy = false → j < 32768 → n < 1048576 →
    (busWrite s (BitVec.ofNat 19 (0x40000 + j)) v).mem.streamBit n =
      if n / 32 = j then v.getLsbD (31 - n % 32) else s.mem.streamBit n

/-- 10_state R41, R45, R46, R49 to R55, R57, R58, 20_memory R93: what a write to each writable control register but CMD
does on an idle block, and that it does nothing else. (CMD is `CommandWriteIsAcceptedOrRefused`, CTRL with bit 0 set
`ResetOfAnIdleBlockKeepsTheBuffers`.) -/
def Obligations.RegisterWritesHaveTheirEffects : Prop :=
  ∀ (s : State) (v : Word), s.busy = false →
    busWrite s 0x06#19 v = { s with sticky := s.sticky &&& ~~~v } ∧
    busWrite s 0x07#19 v = { s with ie := v &&& 0x3#32 } ∧
    busWrite s 0x08#19 v = { s with ip := s.ip &&& ~~~v } ∧
    busWrite s 0x10#19 v = { s with order := v } ∧
    busWrite s 0x11#19 v = { s with len := v } ∧
    busWrite s 0x12#19 v = { s with clen := v } ∧
    busWrite s 0x13#19 v = { s with elen := v } ∧
    busWrite s 0x14#19 v = { s with ylen := v } ∧
    busWrite s 0x15#19 v = { s with blen := v } ∧
    busWrite s 0x16#19 v = { s with symcount := v } ∧
    busWrite s 0x19#19 v = { s with lossT := BitVec.ofNat 32 (min v.toNat 65536) } ∧
    busWrite s 0x1A#19 v = { s with rng := v } ∧
    busWrite s 0x1B#19 v = { s with bitrate := v } ∧
    busWrite s 0x20#19 v = { s with qovf := 0#32 } ∧
    busWrite s 0x21#19 v = { s with ysat := 0#32 } ∧
    busWrite s 0x22#19 v = { s with lossev := 0#32 } ∧
    (v.getLsbD 0 = false → busWrite s 0x02#19 v = s)

/-- 20_memory R107: a write to a read-only register is ignored without any flag; while busy, one outside 0x00 to 0x0F
is refused. -/
def Obligations.ReadOnlyWritesAreIgnored : Prop :=
  ∀ (s : State) (a : Addr) (v : Word), a.toNat ∈ readOnlyAddrs →
    busWrite s a v =
      if s.busy = true ∧ 0x0F < a.toNat then { s with sticky := s.sticky ||| 0x02000000#32 } else s

/-- 20_memory R102: on an idle block a reserved or unmapped address reads 0 and ignores writes, with no flag. -/
def Obligations.UnmappedAddressesReadZero : Prop :=
  ∀ (s : State) (a : Addr) (v : Word), s.busy = false → holdsNothing a.toNat →
    busRead s a = (0#32, s) ∧ busWrite s a v = s

/-- 20_memory R101: while busy, only reads of 0x00 to 0x0F and writes to CTRL, STICKY, IE and IP are performed; every
other read returns 0 and every other write is dropped, each with BUSERR, but for the read-only registers of 0x00 to
0x0F, whose writes are ignored (a write to a reserved address is dropped with BUSERR: assumption 8). -/
def Obligations.BusyAccessesAreRefused : Prop :=
  ∀ (s : State) (a : Addr) (v : Word), s.busy = true →
    (busRead s a =
      if a.toNat ≤ 0x0F then (readLoc s (Loc.ofAddr a.toNat), s)
      else (0#32, { s with sticky := s.sticky ||| 0x02000000#32 })) ∧
    (a.toNat ∉ [0x02, 0x06, 0x07, 0x08] → a.toNat ∉ readOnlyAddrs →
      busWrite s a v = { s with sticky := s.sticky ||| 0x02000000#32 }) ∧
    busWrite s 0x06#19 v = { s with sticky := s.sticky &&& ~~~v } ∧
    busWrite s 0x07#19 v = { s with ie := v &&& 0x3#32 } ∧
    busWrite s 0x08#19 v = { s with ip := s.ip &&& ~~~v }

/-- 10_state R43, 60_exceptions R336: the bits of STATUS, and the level of the interrupt line. -/
def Obligations.StatusShowsBusyDoneErrIrq : Prop :=
  ∀ (s : State), (s.irq = true ↔ s.ie &&& s.ip &&& 0x3#32 ≠ 0#32) ∧
    ∀ j < 32, s.status.getLsbD j =
      (decide (j = 0) && s.busy || decide (j = 1) && s.done || decide (j = 2) && decide (s.errByte ≠ 0) ||
        decide (j = 3) && s.irq)

/-- 30_encoding R129: WAIT polls while a command is pending and is passed when none is (one poll a step, unrecorded:
assumptions 1 and 13). -/
def Obligations.WaitHoldsWhileBusy : Prop :=
  ∀ (s : State) (ops : List HostOp), s.script = .wait :: ops →
    (s.busy = false → step s = .next { s with script := ops, windowLeft := s.windowLeft - 1 }) ∧
    (s.busy = true → s.windowLeft ≠ 0 → step s = .next { s with windowLeft := s.windowLeft - 1 })

/-! Reset (70_reset, 46_system R301) -/

/-- 70_reset R361: after any reset every control register reads its reset value, every file element reads 0, the block
is idle and the interrupt line is low. -/
def Obligations.RegistersAfterAnyReset : Prop :=
  ∀ s : State, s = State.reset ∨ (∃ s', s = performReset s') →
    (∀ p ∈ resetTable, busRead s (BitVec.ofNat 19 p.1) = (p.2, s)) ∧
    (∀ a : Addr, 0x100 ≤ a.toNat → a.toNat < 0x500 → busRead s a = (0#32, s)) ∧
    s.busy = false ∧ s.done = false ∧ s.irq = false

/-- 46_system R301, 70_reset R360: on an idle block the soft reset and the reset input have one effect: registers and
files at their reset values, the buffers as they were (and the model's own fields: assumption 11). -/
def Obligations.ResetOfAnIdleBlockKeepsTheBuffers : Prop :=
  ∀ (s : State) (op : HostOp) (ops : List HostOp), s.busy = false → s.script = op :: ops →
    (op = .hardReset ∨ ∃ v, op = .write 0x02#19 v ∧ v.getLsbD 0 = true) →
    step s = .next { State.reset with
      mem := s.mem, script := ops, reads := s.reads, windows := s.windows, drawSource := s.drawSource
      freeCount := s.freeCount }

/-- 46_system R301: a reset inside the busy window abandons the command: no bookkeeping, and every bit of the buffers
is as it was or as the completed command would have left it (which of the two is a free value: assumption 6). -/
def Obligations.ResetAbandonsThePendingCommand : Prop :=
  ∀ (s : State) (op : HostOp) (ops : List HostOp), s.busy = true → s.windowLeft ≠ 0 → s.script = op :: ops →
    (op = .hardReset ∨ ∃ v, op = .write 0x02#19 v ∧ v.getLsbD 0 = true) →
    ∃ t u, step s = .next t ∧
      runEngine { s with script := ops, windowLeft := s.windowLeft - 1 } = .next u ∧
      t = { State.reset with
        mem := t.mem, script := ops, reads := s.reads, windows := s.windows, drawSource := s.drawSource
        freeCount := t.freeCount } ∧
      ∀ k j, (t.byteAt k).getLsbD j = (s.byteAt k).getLsbD j ∨ (t.byteAt k).getLsbD j = (u.byteAt k).getLsbD j

/-! Host accesses as steps, and what reads return -/

/-- 00_scope R6, 20_memory R92, R93, 30_encoding R129, 60_exceptions R346: a step in which the host moves is its next
access: on an idle block, or inside the window, a WR is exactly the bus write and an RD exactly the bus read, whose word
is recorded; an idle block with no access to come stays as it is. (The host's list, its record and the window count are
the model's own: assumptions 1 to 3.) -/
def Obligations.HostAccessesAreStepsOfTheBus : Prop :=
  ∀ (s : State) (a : Addr) (v : Word) (ops : List HostOp),
    let r := { s with script := ops, windowLeft := s.windowLeft - 1 }
    (s.busy = false ∨ s.windowLeft ≠ 0 → s.script = .write a v :: ops → step s = .next (busWrite r a v)) ∧
    (s.busy = false ∨ s.windowLeft ≠ 0 → s.script = .read a :: ops →
      step s = .next { (busRead r a).2 with reads := (busRead r a).1 :: s.reads }) ∧
    (s.busy = false → s.script = [] → step s = .next s)

/-- 10_state R40 to R61, 20_memory R92, R98, R101: what a read of each control register returns, at its address, and
that it changes nothing: those of 0x00 to 0x09 in every state, the others on an idle block. -/
def Obligations.ControlRegistersReadTheirContents : Prop :=
  ∀ s : State,
    (busRead s 0x00#19 = (0x4C504343#32, s) ∧ busRead s 0x01#19 = (0x00010000#32, s) ∧
      busRead s 0x02#19 = (0#32, s) ∧ busRead s 0x03#19 = (s.cmd, s) ∧ busRead s 0x04#19 = (s.status, s) ∧
      busRead s 0x05#19 = (s.result, s) ∧ busRead s 0x06#19 = (s.sticky, s) ∧ busRead s 0x07#19 = (s.ie, s) ∧
      busRead s 0x08#19 = (s.ip, s) ∧ busRead s 0x09#19 = (s.cmdcnt, s)) ∧
    (s.busy = false →
      busRead s 0x10#19 = (s.order, s) ∧ busRead s 0x11#19 = (s.len, s) ∧ busRead s 0x12#19 = (s.clen, s) ∧
      busRead s 0x13#19 = (s.elen, s) ∧ busRead s 0x14#19 = (s.ylen, s) ∧ busRead s 0x15#19 = (s.blen, s) ∧
      busRead s 0x16#19 = (s.symcount, s) ∧ busRead s 0x17#19 = (s.dcount, s) ∧ busRead s 0x18#19 = (s.nsym, s) ∧
      busRead s 0x19#19 = (s.lossT, s) ∧ busRead s 0x1A#19 = (s.rng, s) ∧ busRead s 0x1B#19 = (s.bitrate, s) ∧
      busRead s 0x1C#19 = (15#32, s) ∧ busRead s 0x20#19 = (s.qovf, s) ∧ busRead s 0x21#19 = (s.ysat, s) ∧
      busRead s 0x22#19 = (s.lossev, s) ∧ busRead s 0x23#19 = (s.dropcnt, s) ∧ busRead s 0x28#19 = (s.rsh, s) ∧
      busRead s 0x29#19 = (s.efin, s) ∧ busRead s 0x2A#19 = (s.ldord, s) ∧
      busRead s 0x30#19 = (BitVec.ofNat 32 s.es.toNat, s) ∧
      busRead s 0x31#19 = (BitVec.ofNat 32 (s.es.toNat / 2 ^ 32), s) ∧
      busRead s 0x32#19 = (BitVec.ofNat 32 s.en.toNat, s) ∧
      busRead s 0x33#19 = (BitVec.ofNat 32 (s.en.toNat / 2 ^ 32), s) ∧ busRead s 0x34#19 = (s.flen, s))

/-- 20_memory R94, R95, R97, R98, R109: on an idle block a read of a file or buffer element returns the element that the
commands work on, in its layout, at its address. -/
def Obligations.FilesAndBuffersReadTheirElements : Prop :=
  ∀ s : State, s.busy = false →
    let word := fun n : Nat => (busRead s (BitVec.ofNat 19 n)).1
    (∀ b : Fin 256, word (0x100 + b.val) = s.freq[b.val]) ∧
    (∀ b : Byte, word (0x200 + 2 * b.toNat) = BitVec.ofNat 32 (s.entry b).len.toNat ∧
      word (0x201 + 2 * b.toNat) = (s.entry b).code) ∧
    (∀ k, 1 ≤ k → k ≤ 32 → word (0x400 + (k - 1)) = BitVec.ofInt 32 (s.coef k) ∧
      word (0x440 + (k - 1)) = BitVec.ofInt 32 (s.qcHalf k).toInt) ∧
    (∀ k ≤ 32, word (0x480 + 2 * k) = BitVec.ofInt 32 (s.lag k) ∧
      word (0x481 + 2 * k) = BitVec.ofInt 32 (s.lag k / 2 ^ 32)) ∧
    (∀ i < 65536, word (0x10000 + i) = BitVec.ofInt 32 (s.sample i) ∧
      word (0x20000 + i) = BitVec.ofInt 32 (s.qeHalf i).toInt ∧ word (0x30000 + i) = BitVec.ofInt 32 (s.recon i)) ∧
    (∀ j < 32768, ∀ i < 32, (word (0x40000 + j)).getLsbD (31 - i) = s.mem.streamBit (32 * j + i))

/-- 43_entropy R260 (b), (d): after HBUILD of an array, HENC of the same array cannot raise: its stream is at most 8 bits
a byte, and exactly one bit a byte when there is a single symbol. -/
def Obligations.HencAfterHbuildCannotRaise : Prop :=
  ∀ (s t : State) (f : BitVec 2) (v : Sel), Sel.ofField f = some v → exec (.hbuild f) s = .next t → t.errByte = 0 →
    ∃ u, exec (.henc f) t = .next u ∧ u.errByte = 0 ∧ u.blen.toNat ≤ 8 * (2 * s.selLen v) ∧
      ((s.src v).toFinset.card = 1 → u.blen.toNat = 2 * s.selLen v)
end

