-- ==== Sys2Proof/Laws/Arith.lean ====
section
/-! SUPPORT. The laws of the integer primitives: sums as finite sums, the range of a clamp, bounds of the rounding
shift, and when an integer stored in a word reads back. -/

namespace Sys2Proof.Machine

/-- The pseudocode's sum is the finite sum. -/
theorem sumTo_eq_sum (n : Nat) (f : Nat → Int) : sumTo n f = ∑ i ∈ Finset.range n, f i := by
  induction n with
  | zero => rfl
  | succ n ih => rw [sumTo, ih, Finset.sum_range_succ]

theorem sumTo_congr {n : Nat} {f g : Nat → Int} (h : ∀ i < n, f i = g i) : sumTo n f = sumTo n g := by
  rw [sumTo_eq_sum, sumTo_eq_sum]
  exact Finset.sum_congr rfl fun i hi => h i (Finset.mem_range.1 hi)

theorem sumTo_nonneg {n : Nat} {f : Nat → Int} (h : ∀ i < n, 0 ≤ f i) : 0 ≤ sumTo n f := by
  rw [sumTo_eq_sum]
  exact Finset.sum_nonneg fun i hi => h i (Finset.mem_range.1 hi)

/-- A sum of `n` terms, each at most `b` in magnitude, is at most `n * b` in magnitude. -/
theorem sumTo_natAbs_le {n : Nat} {f : Nat → Int} {b : Nat} (h : ∀ i < n, (f i).natAbs ≤ b) :
    (sumTo n f).natAbs ≤ n * b := by
  induction n with
  | zero => simp [sumTo]
  | succ n ih =>
    have h1 := ih fun i hi => h i (by omega)
    have h2 := h n (by omega)
    have h3 := Int.natAbs_add_le (sumTo n f) (f n)
    rw [sumTo, Nat.succ_mul]
    omega

theorem sat16_eq (v : Int) : sat 16 v = if v < -32768 then -32768 else if v > 32767 then 32767 else v := by
  simp [sat]

theorem sat32_eq (v : Int) :
    sat 32 v = if v < -2147483648 then -2147483648 else if v > 2147483647 then 2147483647 else v := by
  simp [sat]

/-- A 16-bit clamp lands in the range of `S16`. -/
theorem sat16_mem (v : Int) : -32768 ≤ sat 16 v ∧ sat 16 v ≤ 32767 := by
  rw [sat16_eq]; split_ifs <;> omega

/-- A 32-bit clamp lands in the range of `S32`. -/
theorem sat32_mem (v : Int) : -2147483648 ≤ sat 32 v ∧ sat 32 v ≤ 2147483647 := by
  rw [sat32_eq]; split_ifs <;> omega

theorem sat16_of_mem {v : Int} (h : -32768 ≤ v) (h' : v ≤ 32767) : sat 16 v = v := by
  rw [sat16_eq]; split_ifs <;> omega

theorem sat32_of_mem {v : Int} (h : -2147483648 ≤ v) (h' : v ≤ 2147483647) : sat 32 v = v := by
  rw [sat32_eq]; split_ifs <;> omega

/-- The 16-bit clamp acts exactly outside the range of `S16`. -/
theorem clamped16_iff (v : Int) : clamped 16 v = true ↔ v < -32768 ∨ 32767 < v := by
  rw [clamped, bne_iff_ne, sat16_eq]; split_ifs <;> omega

/-- The 32-bit clamp acts exactly outside the range of `S32`. -/
theorem clamped32_iff (v : Int) : clamped 32 v = true ↔ v < -2147483648 ∨ 2147483647 < v := by
  rw [clamped, bne_iff_ne, sat32_eq]; split_ifs <;> omega

theorem rshr9_eq (x : Int) : rshr x 9 = (x + 256) / 512 := by norm_num [rshr]

theorem rshr24_eq (x : Int) : rshr x 24 = (x + 8388608) / 16777216 := by norm_num [rshr]

/-- An integer stored as 16 bits reads back when it is in range. -/
theorem toInt_ofInt16 {v : Int} (h : -32768 ≤ v) (h' : v ≤ 32767) : (BitVec.ofInt 16 v).toInt = v := by
  rw [BitVec.toInt_ofInt, Int.bmod_def]; norm_num; split_ifs <;> omega

/-- An integer stored as 32 bits reads back when it is in range. -/
theorem toInt_ofInt32 {v : Int} (h : -2147483648 ≤ v) (h' : v ≤ 2147483647) : (BitVec.ofInt 32 v).toInt = v := by
  rw [BitVec.toInt_ofInt, Int.bmod_def]; norm_num; split_ifs <;> omega

/-- An integer stored as 64 bits reads back when it is in range. -/
theorem toInt_ofInt64 {v : Int} (h : -9223372036854775808 ≤ v) (h' : v ≤ 9223372036854775807) :
    (BitVec.ofInt 64 v).toInt = v := by
  rw [BitVec.toInt_ofInt, Int.bmod_def]; norm_num; split_ifs <;> omega

/-- A non-negative integer stored as 64 bits reads back as a natural number when it is in range. -/
theorem toNat_ofInt64 {v : Int} (h : 0 ≤ v) (h' : v < 18446744073709551616) :
    ((BitVec.ofInt 64 v).toNat : Int) = v := by
  rw [BitVec.toNat_ofInt]; norm_num; omega

theorem toInt16_mem (v : BitVec 16) : -32768 ≤ v.toInt ∧ v.toInt ≤ 32767 := by
  have h := BitVec.toInt_lt (x := v)
  have h' := BitVec.le_toInt (x := v)
  norm_num at h h'
  omega

theorem toInt32_mem (v : BitVec 32) : -2147483648 ≤ v.toInt ∧ v.toInt ≤ 2147483647 := by
  have h := BitVec.toInt_lt (x := v)
  have h' := BitVec.le_toInt (x := v)
  norm_num at h h'
  omega

/-- A saturating counter never passes 2^32 - 1 and otherwise counts. -/
theorem satCount_toNat (c : Word) (n : Nat) : (satCount c n).toNat = min (c.toNat + n) 4294967295 := by
  simp only [satCount, BitVec.toNat_ofNat]
  norm_num

end Sys2Proof.Machine
end

