-- ==== Sys2Proof/Laws/Memory.lean ====
section
/-! SUPPORT. The laws of the buffer memories: what a read after a write gives, that every other byte is left alone,
and that every write keeps the canonical form. -/

namespace Sys2Proof.Machine

theorem Memory.lookup_insert (m : Memory) (k j : Nat) (v : Byte) :
    (m.insert k v).lookup j = if k = j then some v else m.lookup j := by
  induction m with
  | nil => simp [Memory.insert, Memory.lookup]
  | cons c m ih =>
    obtain ⟨a, b⟩ := c
    simp only [Memory.insert]
    split
    · simp [Memory.lookup]
    · split
      · subst_vars
        simp only [Memory.lookup]
        split <;> simp_all
      · simp only [Memory.lookup, ih]
        split <;> split <;> simp_all

/-- A byte written reads back, and every other byte is left alone. -/
@[simp] theorem Memory.byteAt_insert (m : Memory) (k j : Nat) (v : Byte) :
    (m.insert k v).byteAt j = if k = j then v else m.byteAt j := by
  simp only [Memory.byteAt, Memory.lookup_insert]
  split <;> rfl

theorem Memory.mem_insert {m : Memory} {k : Nat} {v : Byte} {c : Host.Cell} (h : c ∈ m.insert k v) :
    c = (k, v) ∨ c ∈ m := by
  induction m with
  | nil => simpa [Memory.insert] using h
  | cons d m ih =>
    obtain ⟨a, b⟩ := d
    simp only [Memory.insert] at h
    split at h
    · simpa using h
    · split at h
      · rcases List.mem_cons.1 h with h | h
        · exact .inl h
        · exact .inr (List.mem_cons_of_mem _ h)
      · rcases List.mem_cons.1 h with h | h
        · exact .inr (by simp [h])
        · exact (ih h).imp id (List.mem_cons_of_mem _)

theorem Memory.pairwise_insert {m : Memory} (k : Nat) (v : Byte) (h : m.Pairwise fun c d => c.1 < d.1) :
    (m.insert k v).Pairwise fun c d => c.1 < d.1 := by
  induction m with
  | nil => simp [Memory.insert]
  | cons d m ih =>
    obtain ⟨a, b⟩ := d
    rw [List.pairwise_cons] at h
    simp only [Memory.insert]
    split
    · rename_i hk
      exact List.pairwise_cons.2 ⟨fun c hc => by
        rcases List.mem_cons.1 hc with rfl | hc
        · exact hk
        · exact Nat.lt_trans hk (h.1 c hc), List.pairwise_cons.2 h⟩
    · split
      · subst_vars
        exact List.pairwise_cons.2 ⟨h.1, h.2⟩
      · rename_i h1 h2
        refine List.pairwise_cons.2 ⟨fun c hc => ?_, ih h.2⟩
        rcases Memory.mem_insert hc with rfl | hc
        · exact Nat.lt_of_le_of_ne (Nat.not_lt.1 h1) (Ne.symm h2)
        · exact h.1 c hc

/-- Writing a byte that storage stands behind keeps the canonical form. -/
theorem Memory.wf_insert {m : Memory} {k : Nat} (v : Byte) (h : m.wf) (hk : bufferByte k = true) :
    (m.insert k v).wf := by
  refine ⟨Memory.pairwise_insert k v h.1, fun c hc => ?_⟩
  rcases Memory.mem_insert hc with rfl | hc
  · exact hk
  · exact h.2 c hc

/-- The word addresses of X, QE and Y. -/
abbrev halfAddr (w : Nat) : Prop := xBase ≤ w ∧ w < bsBase

/-- The word addresses of BS. -/
abbrev bsAddr (w : Nat) : Prop := bsBase ≤ w ∧ w < bsBase + 0x8000

theorem bufferByte_half {w b : Nat} (h : halfAddr w) (hb : b < 2) : bufferByte (4 * w + b) = true := by
  have h1 : (4 * w + b) / 4 = w := by omega
  have h2 : (4 * w + b) % 4 = b := by omega
  simp [bufferByte, h1, h2, h.1, h.2, hb]

theorem bufferByte_bs {w b : Nat} (h : bsAddr w) (hb : b < 4) : bufferByte (4 * w + b) = true := by
  have h1 : (4 * w + b) / 4 = w := by omega
  simp [bufferByte, h1, h.1, h.2]

theorem Memory.wf_setHalf {m : Memory} {w : Nat} (v : Half) (h : m.wf) (hw : halfAddr w) : (m.setHalf w v).wf :=
  (Memory.wf_insert _ (Memory.wf_insert _ h (bufferByte_half (b := 0) hw (by omega)))
    (bufferByte_half (b := 1) hw (by omega)))

theorem Memory.wf_setWord {m : Memory} {w : Nat} (v : Word) (h : m.wf) (hw : bsAddr w) : (m.setWord w v).wf :=
  Memory.wf_insert _ (Memory.wf_insert _ (Memory.wf_insert _ (Memory.wf_insert _ h
    (bufferByte_bs (b := 0) hw (by omega))) (bufferByte_bs (b := 1) hw (by omega)))
    (bufferByte_bs (b := 2) hw (by omega))) (bufferByte_bs (b := 3) hw (by omega))

/-- Storing elements at consecutive word addresses of X, QE or Y keeps the canonical form. -/
theorem Memory.wf_setHalves {vs : List Half} : ∀ {m : Memory} {w : Nat}, m.wf → xBase ≤ w →
    w + vs.length ≤ bsBase → (m.setHalves w vs).wf := by
  induction vs with
  | nil => intro m w h _ _; exact h
  | cons v vs ih =>
    intro m w h hw hl
    simp only [List.length_cons] at hl
    exact ih (Memory.wf_setHalf v h ⟨hw, by omega⟩) (by omega) (by omega)

/-- Storing words at consecutive word addresses of BS keeps the canonical form. -/
theorem Memory.wf_setWords {vs : List Word} : ∀ {m : Memory} {w : Nat}, m.wf → bsBase ≤ w →
    w + vs.length ≤ bsBase + 0x8000 → (m.setWords w vs).wf := by
  induction vs with
  | nil => intro m w h _ _; exact h
  | cons v vs ih =>
    intro m w h hw hl
    simp only [List.length_cons] at hl
    exact ih (Memory.wf_setWord v h ⟨hw, by omega⟩) (by omega) (by omega)

/-- The mixture that an abandoned command leaves keeps the canonical form. -/
theorem mixMemory_wf {n : Nat} {old new : Memory} (h : new.wf) : (mixMemory n old new).wf := by
  refine ⟨?_, fun c hc => ?_⟩
  · simp only [mixMemory, List.pairwise_map]
    exact h.1
  · simp only [mixMemory, List.mem_map] at hc
    obtain ⟨d, hd, rfl⟩ := hc
    exact h.2 d hd

/-- An `S16` element stored changes the two bytes it is stored in, and no other. -/
theorem Memory.byteAt_setHalf (m : Memory) (w j : Nat) (v : Half) :
    (m.setHalf w v).byteAt j =
      if j = 4 * w then v.extractLsb' 0 8 else if j = 4 * w + 1 then v.extractLsb' 8 8 else m.byteAt j := by
  simp only [Memory.setHalf, Memory.byteAt_insert, eq_comm (a := j)]
  split_ifs <;> first | rfl | omega

theorem half_of_bytes (v : Half) : v.extractLsb' 8 8 ++ v.extractLsb' 0 8 = v := by
  apply BitVec.eq_of_getLsbD_eq
  intro i hi
  simp only [BitVec.getLsbD_append, BitVec.getLsbD_extractLsb']
  rcases Nat.lt_or_ge i 8 with h | h
  · simp [h]
  · simp [Nat.not_lt.2 h, show i - 8 < 8 by omega, show 8 + (i - 8) = i by omega]

/-- Reading an element after storing one: the value at that address, the old one elsewhere. -/
@[simp] theorem Memory.half_setHalf (m : Memory) (w u : Nat) (v : Half) :
    (m.setHalf w v).half u = if u = w then v else m.half u := by
  simp only [Memory.half, Memory.byteAt_setHalf]
  split_ifs <;> first | omega | exact half_of_bytes v | rfl

/-- A word stored changes its four bytes, and no other. -/
theorem Memory.byteAt_setWord (m : Memory) (w j : Nat) (v : Word) :
    (m.setWord w v).byteAt j =
      if j / 4 = w then v.extractLsb' (8 * (j % 4)) 8 else m.byteAt j := by
  simp only [Memory.setWord, Memory.byteAt_insert]
  split_ifs with h3 h2 h1 h0 h h <;> first
    | omega
    | rfl
    | (rw [show j % 4 = 3 by omega])
    | (rw [show j % 4 = 2 by omega])
    | (rw [show j % 4 = 1 by omega])
    | (rw [show j % 4 = 0 by omega])

/-- Elements stored at consecutive addresses read back, and every other element reads as before. -/
theorem Memory.half_setHalves (vs : List Half) : ∀ (m : Memory) (w u : Nat),
    (m.setHalves w vs).half u = if w ≤ u then (vs[u - w]?).getD (m.half u) else m.half u := by
  induction vs with
  | nil => intro m w u; simp [Memory.setHalves]
  | cons v vs ih =>
    intro m w u
    simp only [Memory.setHalves, ih, Memory.half_setHalf]
    rcases Nat.lt_trichotomy u w with h | h | h
    · rw [if_neg (by omega), if_neg (by omega), if_neg (by omega)]
    · subst h; simp
    · rw [if_pos (by omega), if_neg (by omega), if_pos (by omega), show u - w = (u - (w + 1)) + 1 by omega]
      simp

/-- Bytes outside the elements stored at consecutive addresses are left alone. -/
theorem Memory.byteAt_setHalves_of_outside (vs : List Half) : ∀ (m : Memory) (w j : Nat),
    (∀ n < vs.length, j ≠ 4 * (w + n) ∧ j ≠ 4 * (w + n) + 1) → (m.setHalves w vs).byteAt j = m.byteAt j := by
  induction vs with
  | nil => intro m w j _; rfl
  | cons v vs ih =>
    intro m w j h
    have h0 := h 0 (by simp)
    rw [Nat.add_zero] at h0
    rw [Memory.setHalves, ih _ _ _ fun n hn => ?_, Memory.byteAt_setHalf, if_neg h0.1, if_neg h0.2]
    have := h (n + 1) (by simpa using hn)
    rw [show w + 1 + n = w + (n + 1) by omega]
    exact this

/-- Bytes of words stored at consecutive addresses, inside and outside. -/
theorem Memory.byteAt_setWords (vs : List Word) : ∀ (m : Memory) (w j : Nat),
    (m.setWords w vs).byteAt j =
      if w ≤ j / 4 then ((vs[j / 4 - w]?).map fun v => v.extractLsb' (8 * (j % 4)) 8).getD (m.byteAt j)
      else m.byteAt j := by
  induction vs with
  | nil => intro m w j; simp [Memory.setWords]
  | cons v vs ih =>
    intro m w j
    simp only [Memory.setWords, ih, Memory.byteAt_setWord]
    rcases Nat.lt_trichotomy (j / 4) w with h | h | h
    · rw [if_neg (by omega), if_neg (by omega), if_neg (by omega)]
    · rw [if_neg (by omega), if_pos h, if_pos (by omega), h]; simp
    · rw [if_pos (by omega), if_neg (by omega), if_pos (by omega),
        show j / 4 - w = (j / 4 - (w + 1)) + 1 by omega]
      simp

end Sys2Proof.Machine
end

