-- ==== Sys2Proof/Laws/State.lean ====
section
/-! SUPPORT. One lemma per field for each shared update of the state, so that no later proof unfolds a record
update. -/

namespace Sys2Proof.Machine

section Complete
variable (s : State) (e : ErrCode) (fs : List Flag)

@[simp] theorem complete_mem : (complete s e fs).mem = s.mem := rfl
@[simp] theorem complete_a : (complete s e fs).a = s.a := rfl
@[simp] theorem complete_qc : (complete s e fs).qc = s.qc := rfl
@[simp] theorem complete_r : (complete s e fs).r = s.r := rfl
@[simp] theorem complete_freq : (complete s e fs).freq = s.freq := rfl
@[simp] theorem complete_ct : (complete s e fs).ct = s.ct := rfl
@[simp] theorem complete_cmd : (complete s e fs).cmd = s.cmd := rfl
@[simp] theorem complete_busy : (complete s e fs).busy = false := rfl
@[simp] theorem complete_done : (complete s e fs).done = true := rfl
@[simp] theorem complete_result : (complete s e fs).result = resultWord e fs := rfl
@[simp] theorem complete_sticky : (complete s e fs).sticky = stickyAfter s.sticky (resultWord e fs) := rfl
@[simp] theorem complete_ie : (complete s e fs).ie = s.ie := rfl
@[simp] theorem complete_ip : (complete s e fs).ip = ipAfter s.ip e := rfl
@[simp] theorem complete_cmdcnt : (complete s e fs).cmdcnt = s.cmdcnt + 1#32 := rfl
@[simp] theorem complete_order : (complete s e fs).order = s.order := rfl
@[simp] theorem complete_len : (complete s e fs).len = s.len := rfl
@[simp] theorem complete_clen : (complete s e fs).clen = s.clen := rfl
@[simp] theorem complete_elen : (complete s e fs).elen = s.elen := rfl
@[simp] theorem complete_ylen : (complete s e fs).ylen = s.ylen := rfl
@[simp] theorem complete_blen : (complete s e fs).blen = s.blen := rfl
@[simp] theorem complete_symcount : (complete s e fs).symcount = s.symcount := rfl
@[simp] theorem complete_dcount : (complete s e fs).dcount = s.dcount := rfl
@[simp] theorem complete_nsym : (complete s e fs).nsym = s.nsym := rfl
@[simp] theorem complete_lossT : (complete s e fs).lossT = s.lossT := rfl
@[simp] theorem complete_rng : (complete s e fs).rng = s.rng := rfl
@[simp] theorem complete_bitrate : (complete s e fs).bitrate = s.bitrate := rfl
@[simp] theorem complete_qovf : (complete s e fs).qovf = s.qovf := rfl
@[simp] theorem complete_ysat : (complete s e fs).ysat = s.ysat := rfl
@[simp] theorem complete_lossev : (complete s e fs).lossev = s.lossev := rfl
@[simp] theorem complete_dropcnt : (complete s e fs).dropcnt = s.dropcnt := rfl
@[simp] theorem complete_rsh : (complete s e fs).rsh = s.rsh := rfl
@[simp] theorem complete_efin : (complete s e fs).efin = s.efin := rfl
@[simp] theorem complete_ldord : (complete s e fs).ldord = s.ldord := rfl
@[simp] theorem complete_es : (complete s e fs).es = s.es := rfl
@[simp] theorem complete_en : (complete s e fs).en = s.en := rfl
@[simp] theorem complete_flen : (complete s e fs).flen = s.flen := rfl
@[simp] theorem complete_script : (complete s e fs).script = s.script := rfl
@[simp] theorem complete_reads : (complete s e fs).reads = s.reads := rfl
@[simp] theorem complete_windows : (complete s e fs).windows = s.windows := rfl
@[simp] theorem complete_windowLeft : (complete s e fs).windowLeft = s.windowLeft := rfl
@[simp] theorem complete_drawSource : (complete s e fs).drawSource = s.drawSource := rfl
@[simp] theorem complete_freeCount : (complete s e fs).freeCount = s.freeCount := rfl
@[simp] theorem complete_coef (k : Nat) : (complete s e fs).coef k = s.coef k := rfl
@[simp] theorem complete_qcHalf (k : Nat) : (complete s e fs).qcHalf k = s.qcHalf k := rfl
@[simp] theorem complete_lag (k : Nat) : (complete s e fs).lag k = s.lag k := rfl
@[simp] theorem complete_entry (b : Byte) : (complete s e fs).entry b = s.entry b := rfl
@[simp] theorem complete_sample (i : Nat) : (complete s e fs).sample i = s.sample i := rfl
@[simp] theorem complete_qeHalf (i : Nat) : (complete s e fs).qeHalf i = s.qeHalf i := rfl
@[simp] theorem complete_recon (i : Nat) : (complete s e fs).recon i = s.recon i := rfl
@[simp] theorem complete_stream (n : Nat) : (complete s e fs).stream n = s.stream n := rfl
@[simp] theorem complete_byteAt (k : Nat) : (complete s e fs).byteAt k = s.byteAt k := rfl
@[simp] theorem complete_selHalf (v : Sel) (i : Nat) : (complete s e fs).selHalf v i = s.selHalf v i := rfl
@[simp] theorem complete_selLen (v : Sel) : (complete s e fs).selLen v = s.selLen v := rfl

end Complete

section Accept
variable (s : State) (w : Word)

@[simp] theorem accept_mem : (accept s w).mem = s.mem := rfl
@[simp] theorem accept_a : (accept s w).a = s.a := rfl
@[simp] theorem accept_qc : (accept s w).qc = s.qc := rfl
@[simp] theorem accept_r : (accept s w).r = s.r := rfl
@[simp] theorem accept_freq : (accept s w).freq = s.freq := rfl
@[simp] theorem accept_ct : (accept s w).ct = s.ct := rfl
@[simp] theorem accept_cmd : (accept s w).cmd = w := rfl
@[simp] theorem accept_busy : (accept s w).busy = true := rfl
@[simp] theorem accept_done : (accept s w).done = false := rfl
@[simp] theorem accept_result : (accept s w).result = 0#32 := rfl
@[simp] theorem accept_sticky : (accept s w).sticky = s.sticky := rfl
@[simp] theorem accept_ie : (accept s w).ie = s.ie := rfl
@[simp] theorem accept_ip : (accept s w).ip = s.ip := rfl
@[simp] theorem accept_cmdcnt : (accept s w).cmdcnt = s.cmdcnt := rfl
@[simp] theorem accept_order : (accept s w).order = s.order := rfl
@[simp] theorem accept_len : (accept s w).len = s.len := rfl
@[simp] theorem accept_clen : (accept s w).clen = s.clen := rfl
@[simp] theorem accept_elen : (accept s w).elen = s.elen := rfl
@[simp] theorem accept_ylen : (accept s w).ylen = s.ylen := rfl
@[simp] theorem accept_blen : (accept s w).blen = s.blen := rfl
@[simp] theorem accept_symcount : (accept s w).symcount = s.symcount := rfl
@[simp] theorem accept_dcount : (accept s w).dcount = s.dcount := rfl
@[simp] theorem accept_nsym : (accept s w).nsym = s.nsym := rfl
@[simp] theorem accept_lossT : (accept s w).lossT = s.lossT := rfl
@[simp] theorem accept_rng : (accept s w).rng = s.rng := rfl
@[simp] theorem accept_bitrate : (accept s w).bitrate = s.bitrate := rfl
@[simp] theorem accept_qovf : (accept s w).qovf = s.qovf := rfl
@[simp] theorem accept_ysat : (accept s w).ysat = s.ysat := rfl
@[simp] theorem accept_lossev : (accept s w).lossev = s.lossev := rfl
@[simp] theorem accept_dropcnt : (accept s w).dropcnt = s.dropcnt := rfl
@[simp] theorem accept_rsh : (accept s w).rsh = s.rsh := rfl
@[simp] theorem accept_efin : (accept s w).efin = s.efin := rfl
@[simp] theorem accept_ldord : (accept s w).ldord = s.ldord := rfl
@[simp] theorem accept_es : (accept s w).es = s.es := rfl
@[simp] theorem accept_en : (accept s w).en = s.en := rfl
@[simp] theorem accept_flen : (accept s w).flen = s.flen := rfl
@[simp] theorem accept_script : (accept s w).script = s.script := rfl
@[simp] theorem accept_reads : (accept s w).reads = s.reads := rfl
@[simp] theorem accept_windows : (accept s w).windows = s.windows.tail := rfl
@[simp] theorem accept_windowLeft : (accept s w).windowLeft = s.windows.headD 0 := rfl
@[simp] theorem accept_drawSource : (accept s w).drawSource = s.drawSource := rfl
@[simp] theorem accept_freeCount : (accept s w).freeCount = s.freeCount := rfl

end Accept

section Reset
variable (s : State) (m : Memory)

@[simp] theorem resetRegisters_mem : (resetRegisters s m).mem = m := rfl
@[simp] theorem resetRegisters_a : (resetRegisters s m).a = State.reset.a := rfl
@[simp] theorem resetRegisters_qc : (resetRegisters s m).qc = State.reset.qc := rfl
@[simp] theorem resetRegisters_r : (resetRegisters s m).r = State.reset.r := rfl
@[simp] theorem resetRegisters_freq : (resetRegisters s m).freq = State.reset.freq := rfl
@[simp] theorem resetRegisters_ct : (resetRegisters s m).ct = State.reset.ct := rfl
@[simp] theorem resetRegisters_cmd : (resetRegisters s m).cmd = State.reset.cmd := rfl
@[simp] theorem resetRegisters_busy : (resetRegisters s m).busy = State.reset.busy := rfl
@[simp] theorem resetRegisters_done : (resetRegisters s m).done = State.reset.done := rfl
@[simp] theorem resetRegisters_result : (resetRegisters s m).result = State.reset.result := rfl
@[simp] theorem resetRegisters_sticky : (resetRegisters s m).sticky = State.reset.sticky := rfl
@[simp] theorem resetRegisters_ie : (resetRegisters s m).ie = State.reset.ie := rfl
@[simp] theorem resetRegisters_ip : (resetRegisters s m).ip = State.reset.ip := rfl
@[simp] theorem resetRegisters_cmdcnt : (resetRegisters s m).cmdcnt = State.reset.cmdcnt := rfl
@[simp] theorem resetRegisters_order : (resetRegisters s m).order = State.reset.order := rfl
@[simp] theorem resetRegisters_len : (resetRegisters s m).len = State.reset.len := rfl
@[simp] theorem resetRegisters_clen : (resetRegisters s m).clen = State.reset.clen := rfl
@[simp] theorem resetRegisters_elen : (resetRegisters s m).elen = State.reset.elen := rfl
@[simp] theorem resetRegisters_ylen : (resetRegisters s m).ylen = State.reset.ylen := rfl
@[simp] theorem resetRegisters_blen : (resetRegisters s m).blen = State.reset.blen := rfl
@[simp] theorem resetRegisters_symcount : (resetRegisters s m).symcount = State.reset.symcount := rfl
@[simp] theorem resetRegisters_dcount : (resetRegisters s m).dcount = State.reset.dcount := rfl
@[simp] theorem resetRegisters_nsym : (resetRegisters s m).nsym = State.reset.nsym := rfl
@[simp] theorem resetRegisters_lossT : (resetRegisters s m).lossT = State.reset.lossT := rfl
@[simp] theorem resetRegisters_rng : (resetRegisters s m).rng = State.reset.rng := rfl
@[simp] theorem resetRegisters_bitrate : (resetRegisters s m).bitrate = State.reset.bitrate := rfl
@[simp] theorem resetRegisters_qovf : (resetRegisters s m).qovf = State.reset.qovf := rfl
@[simp] theorem resetRegisters_ysat : (resetRegisters s m).ysat = State.reset.ysat := rfl
@[simp] theorem resetRegisters_lossev : (resetRegisters s m).lossev = State.reset.lossev := rfl
@[simp] theorem resetRegisters_dropcnt : (resetRegisters s m).dropcnt = State.reset.dropcnt := rfl
@[simp] theorem resetRegisters_rsh : (resetRegisters s m).rsh = State.reset.rsh := rfl
@[simp] theorem resetRegisters_efin : (resetRegisters s m).efin = State.reset.efin := rfl
@[simp] theorem resetRegisters_ldord : (resetRegisters s m).ldord = State.reset.ldord := rfl
@[simp] theorem resetRegisters_es : (resetRegisters s m).es = State.reset.es := rfl
@[simp] theorem resetRegisters_en : (resetRegisters s m).en = State.reset.en := rfl
@[simp] theorem resetRegisters_flen : (resetRegisters s m).flen = State.reset.flen := rfl
@[simp] theorem resetRegisters_script : (resetRegisters s m).script = s.script := rfl
@[simp] theorem resetRegisters_reads : (resetRegisters s m).reads = s.reads := rfl
@[simp] theorem resetRegisters_windows : (resetRegisters s m).windows = s.windows := rfl
@[simp] theorem resetRegisters_windowLeft : (resetRegisters s m).windowLeft = State.reset.windowLeft := rfl
@[simp] theorem resetRegisters_drawSource : (resetRegisters s m).drawSource = s.drawSource := rfl
@[simp] theorem resetRegisters_freeCount : (resetRegisters s m).freeCount = s.freeCount := rfl

end Reset

section Refuse
variable (s : State)

@[simp] theorem refuse_mem : (refuse s).mem = s.mem := rfl
@[simp] theorem refuse_a : (refuse s).a = s.a := rfl
@[simp] theorem refuse_qc : (refuse s).qc = s.qc := rfl
@[simp] theorem refuse_r : (refuse s).r = s.r := rfl
@[simp] theorem refuse_freq : (refuse s).freq = s.freq := rfl
@[simp] theorem refuse_ct : (refuse s).ct = s.ct := rfl
@[simp] theorem refuse_cmd : (refuse s).cmd = s.cmd := rfl
@[simp] theorem refuse_busy : (refuse s).busy = s.busy := rfl
@[simp] theorem refuse_done : (refuse s).done = s.done := rfl
@[simp] theorem refuse_result : (refuse s).result = s.result := rfl
@[simp] theorem refuse_sticky : (refuse s).sticky = s.sticky ||| Flag.busErr.mask := rfl
@[simp] theorem refuse_ie : (refuse s).ie = s.ie := rfl
@[simp] theorem refuse_ip : (refuse s).ip = s.ip := rfl
@[simp] theorem refuse_cmdcnt : (refuse s).cmdcnt = s.cmdcnt := rfl
@[simp] theorem refuse_order : (refuse s).order = s.order := rfl
@[simp] theorem refuse_len : (refuse s).len = s.len := rfl
@[simp] theorem refuse_clen : (refuse s).clen = s.clen := rfl
@[simp] theorem refuse_elen : (refuse s).elen = s.elen := rfl
@[simp] theorem refuse_ylen : (refuse s).ylen = s.ylen := rfl
@[simp] theorem refuse_blen : (refuse s).blen = s.blen := rfl
@[simp] theorem refuse_symcount : (refuse s).symcount = s.symcount := rfl
@[simp] theorem refuse_dcount : (refuse s).dcount = s.dcount := rfl
@[simp] theorem refuse_nsym : (refuse s).nsym = s.nsym := rfl
@[simp] theorem refuse_lossT : (refuse s).lossT = s.lossT := rfl
@[simp] theorem refuse_rng : (refuse s).rng = s.rng := rfl
@[simp] theorem refuse_bitrate : (refuse s).bitrate = s.bitrate := rfl
@[simp] theorem refuse_qovf : (refuse s).qovf = s.qovf := rfl
@[simp] theorem refuse_ysat : (refuse s).ysat = s.ysat := rfl
@[simp] theorem refuse_lossev : (refuse s).lossev = s.lossev := rfl
@[simp] theorem refuse_dropcnt : (refuse s).dropcnt = s.dropcnt := rfl
@[simp] theorem refuse_rsh : (refuse s).rsh = s.rsh := rfl
@[simp] theorem refuse_efin : (refuse s).efin = s.efin := rfl
@[simp] theorem refuse_ldord : (refuse s).ldord = s.ldord := rfl
@[simp] theorem refuse_es : (refuse s).es = s.es := rfl
@[simp] theorem refuse_en : (refuse s).en = s.en := rfl
@[simp] theorem refuse_flen : (refuse s).flen = s.flen := rfl
@[simp] theorem refuse_script : (refuse s).script = s.script := rfl
@[simp] theorem refuse_reads : (refuse s).reads = s.reads := rfl
@[simp] theorem refuse_windows : (refuse s).windows = s.windows := rfl
@[simp] theorem refuse_windowLeft : (refuse s).windowLeft = s.windowLeft := rfl
@[simp] theorem refuse_drawSource : (refuse s).drawSource = s.drawSource := rfl
@[simp] theorem refuse_freeCount : (refuse s).freeCount = s.freeCount := rfl

end Refuse

/-- Raising is completing with no flag. -/
@[simp] theorem raise_eq (s : State) (e : ErrCode) : raise s e = complete s e [] := rfl

/-- The illegal command is completing with code 5 and no flag. -/
@[simp] theorem illegalCommand_eq (s : State) : illegalCommand s = complete s .illegalCommand [] := rfl

end Sys2Proof.Machine
end

