-- ==== Sys2Proof/Laws/Stream.lean ====
section
/-! SUPPORT. The laws of the stream buffer: a stream stored reads back bit by bit, with 0 to the end of its last word
(43_entropy R240). -/

namespace Sys2Proof.Machine

theorem packFold_eq (f : Nat → Bool) (n : Nat) :
    (List.range n).foldl (fun acc i => 2 * acc + (f i).toNat) 0 < 2 ^ n ∧
      ∀ i < n, ((List.range n).foldl (fun acc i => 2 * acc + (f i).toNat) 0).testBit (n - 1 - i) = f i := by
  induction n with
  | zero => simp
  | succ n ih =>
    simp only [List.range_succ, List.foldl_append, List.foldl_cons, List.foldl_nil]
    generalize hA : (List.range n).foldl (fun acc i => 2 * acc + (f i).toNat) 0 = A at ih
    obtain ⟨h1, h2⟩ := ih
    have hb : (f n).toNat ≤ 1 := Bool.toNat_le _
    refine ⟨by rw [pow_succ]; omega, fun i hi => ?_⟩
    rcases Nat.lt_or_ge i n with h | h
    · rw [← h2 i h, show n + 1 - 1 - i = (n - 1 - i) + 1 by omega, Nat.testBit_succ]
      congr 1
      omega
    · rw [show i = n by omega, show n + 1 - 1 - n = 0 by omega, Nat.testBit_zero]
      cases f n <;> simp

/-- Bit `31 - i` of a packed word is the `i`-th of its bits, 0 where there is none (20_memory R97). -/
theorem getLsbD_packWord (bits : List Bool) {i : Nat} (hi : i < 32) :
    (packWord bits).getLsbD (31 - i) = bits.getD i false := by
  have h := packFold_eq (fun i => bits.getD i false) 32
  rw [packWord, BitVec.getLsbD_ofNat]
  rw [h.2 i hi]
  simp [show 31 - i < 32 by omega]

@[simp] theorem length_packWords (n : Nat) : ∀ bits : List Bool, (packWords n bits).length = n := by
  induction n with
  | zero => intro bits; rfl
  | succ n ih => intro bits; simp [packWords, ih]

theorem getElem?_packWords (n : Nat) : ∀ (bits : List Bool) (j : Nat), j < n →
    (packWords n bits)[j]? = some (packWord ((bits.drop (32 * j)).take 32)) := by
  induction n with
  | zero => intro _ _ h; omega
  | succ n ih =>
    intro bits j h
    cases j with
    | zero => simp [packWords]
    | succ j =>
      rw [packWords, List.getElem?_cons_succ, ih _ _ (by omega), List.drop_drop]
      congr 4
      omega

/-- The bits of a stored stream, with the zero fill of its last word; the positions in later words read as before
(43_entropy R240). -/
theorem streamBit_storeBits (m : Memory) (bits : List Bool) (i : Nat) :
    (storeBits m bits).streamBit i =
      if i < 32 * streamWords bits.length then bits.getD i false else m.streamBit i := by
  have h4 : (4 * (bsBase + i / 32) + (31 - i % 32) / 8) / 4 = bsBase + i / 32 := by omega
  have h5 : (4 * (bsBase + i / 32) + (31 - i % 32) / 8) % 4 = (31 - i % 32) / 8 := by omega
  rw [Memory.streamBit, Memory.streamBit, storeBits, Memory.byteAt_setWords, h4, h5, if_pos (by omega)]
  simp only [Nat.add_sub_cancel_left]
  by_cases h : i < 32 * streamWords bits.length
  · rw [if_pos h, getElem?_packWords _ _ _ (by omega)]
    simp only [Option.map_some, Option.getD_some, BitVec.getLsbD_extractLsb']
    rw [show 8 * ((31 - i % 32) / 8) + (31 - i % 32) % 8 = 31 - i % 32 by omega,
      getLsbD_packWord _ (by omega)]
    simp [show (31 - i % 32) % 8 < 8 by omega, List.getD_eq_getElem?_getD,
      show i % 32 < 32 by omega, List.getElem?_drop, show 32 * (i / 32) + i % 32 = i by omega]
  · rw [if_neg h, List.getElem?_eq_none (by rw [length_packWords]; omega)]
    rfl

/-- Bytes outside the words of a stored stream are left alone. -/
theorem byteAt_storeBits_of_outside (m : Memory) (bits : List Bool) {k : Nat}
    (h : ¬ (bsBase ≤ k / 4 ∧ k / 4 < bsBase + streamWords bits.length)) :
    (storeBits m bits).byteAt k = m.byteAt k := by
  rw [storeBits, Memory.byteAt_setWords]
  split
  · rw [List.getElem?_eq_none (by rw [length_packWords]; omega)]
    rfl
  · rfl

/-- A stream stored within the capacity keeps the canonical form. -/
theorem storeBits_wf {m : Memory} {bits : List Bool} (h : m.wf) (hl : bits.length ≤ Config.bsmax) :
    (storeBits m bits).wf := by
  refine Memory.wf_setWords h (Nat.le_refl _) ?_
  rw [length_packWords, streamWords]
  simp only [Config.bsmax] at hl
  omega

/-- An array of integers in range, stored at consecutive addresses, reads back; other elements read as before. -/
theorem half_storeInts (m : Memory) (base : Nat) (vs : List Int) (u : Nat) :
    (storeInts m base vs).half u =
      if base ≤ u then ((vs.map (BitVec.ofInt 16))[u - base]?).getD (m.half u) else m.half u := by
  rw [storeInts, Memory.half_setHalves]

end Sys2Proof.Machine
end

