-- ==== Sys2Proof/Laws/Ops.lean ====
section
/-! SUPPORT. What each shared operation can do, said once: the checks, the words of a completion, the draw, the scans,
the resets, the bus accesses and the step. -/

namespace Sys2Proof.Machine

/-- The flags of a completion stand in bits 31:16, so `STICKY` collects exactly them. -/
theorem flagWord_high (fs : List Flag) : flagWord fs &&& 0xFFFF0000#32 = flagWord fs := by
  induction fs with
  | nil => rfl
  | cons f fs ih =>
    have hf : f.mask &&& 0xFFFF0000#32 = f.mask := by cases f <;> decide
    rw [flagWord, BitVec.and_or_distrib_right, hf, ih]

theorem errWord_low (e : ErrCode) : BitVec.ofNat 32 e.code &&& 0xFFFF0000#32 = 0#32 := by
  cases e <;> decide

/-- `STICKY` after a completion: the flags are added, the code is not. -/
theorem stickyAfter_resultWord (x : Word) (e : ErrCode) (fs : List Flag) :
    stickyAfter x (resultWord e fs) = x ||| flagWord fs := by
  rw [stickyAfter, resultWord, BitVec.and_or_distrib_right, errWord_low, flagWord_high, BitVec.zero_or]

/-- `est_check` passes exactly when the length fits and the order is in 1..32 and below it (40_estimator R160). -/
theorem estCheck_eq_none (s : State) : estCheck s = none ↔
    s.len.toNat ≤ 65536 ∧ 1 ≤ s.order.toNat ∧ s.order.toNat ≤ 32 ∧ s.order.toNat < s.len.toNat := by
  unfold estCheck Config.nmax Config.pmax
  split_ifs <;> simp <;> omega

/-- `order_check` passes exactly when the order is in 1..32 (41_quantizer R193). -/
theorem orderCheck_eq_none (s : State) : orderCheck s = none ↔ 1 ≤ s.order.toNat ∧ s.order.toNat ≤ 32 := by
  unfold orderCheck Config.pmax
  split_ifs <;> simp <;> omega

/-- A length check passes exactly when the length fits (60_exceptions R323). -/
theorem lengthCheck_eq_none (w : Word) (n : Nat) : lengthCheck w n = none ↔ w.toNat ≤ n := by
  unfold lengthCheck
  split_ifs <;> simp <;> omega

/-- Two checks pass exactly when both do. -/
theorem firstOf_eq_none (c d : Option ErrCode) : firstOf c d = none ↔ c = none ∧ d = none := by
  cases c <;> simp [firstOf]

/-- What a check that fails can report. -/
theorem estCheck_eq_some {s : State} {e : ErrCode} (h : estCheck s = some e) :
    e = .invalidLength ∨ e = .invalidOrder := by
  unfold estCheck at h
  split_ifs at h <;> simp_all

/-- `src` passes its check exactly when the array's length fits its capacity (43_entropy R230). -/
theorem srcCheck_eq_none (s : State) (v : Sel) : srcCheck s v = none ↔ s.selLen v ≤ v.capacity := by
  unfold srcCheck
  split_ifs <;> simp <;> omega

/-- The byte view has two bytes per element. -/
theorem length_bytesOf (vs : List Half) : (bytesOf vs).length = 2 * vs.length := by
  induction vs with
  | nil => rfl
  | cons v vs ih =>
    simp only [bytesOf, List.flatMap_cons, List.length_append, List.length_cons] at ih ⊢
    rw [ih]; simp [halfBytes]; omega

/-- Reassembling the byte view gives the values back (43_entropy R239, 20_memory R96). -/
theorem halvesOf_bytesOf (vs : List Half) : halvesOf (bytesOf vs) = vs := by
  induction vs with
  | nil => rfl
  | cons v vs ih =>
    simp only [bytesOf, List.flatMap_cons, halfBytes, List.cons_append, List.nil_append, halvesOf] at ih ⊢
    rw [ih, half_of_bytes]

/-- Reassembling gives one value for each whole pair of bytes. -/
theorem length_halvesOf : ∀ bs : List Byte, (halvesOf bs).length = bs.length / 2
  | [] => rfl
  | [_] => by simp [halvesOf]
  | _ :: _ :: bs => by
    simp only [halvesOf, List.length_cons, length_halvesOf bs]
    omega

/-- One draw of the generator: RNG moves one step and the draw is its upper half; an injected draw leaves RNG
(44_channel R271). -/
theorem draw_eq (d : Draws) : draw d =
    match d.source with
    | .lcg => ((d.rng.toNat * 1664525 + 1013904223) % 2 ^ 32 / 65536, { d with rng := lcgNext d.rng })
    | .injected => ((Config.injectedDraw d.count).toNat, { d with count := d.count + 1 }) := by
  unfold draw
  split <;> simp only [*]
  congr 1
  rw [BitVec.extractLsb'_toNat, Nat.shiftRight_eq_div_pow, lcgNext, BitVec.toNat_add, BitVec.toNat_mul]
  simp only [BitVec.toNat_ofNat, Nat.reducePow, Nat.reduceMod, Nat.mod_add_mod]
  omega

/-- A buffer of no bits, or of more than 32, matches no codeword (43_entropy
R237). -/
theorem matchCode_eq_none_of_long (ct : List CodeEntry) {len : Nat} (code : Nat) (h : len < 1 ∨ 32 < len) :
    matchCode ct len code = none := by
  rw [matchCode, if_pos (by omega)]

/-- The scan loses no bit: the units' bits and the rest, in order, are the buffer and the stream (43_entropy R238). -/
theorem parseStream_bits (ct : List CodeEntry) : ∀ (bits : List Bool) (len code : Nat) (buf : List Bool),
    (parseStream ct bits len code buf).units.flatMap Prod.snd ++ (parseStream ct bits len code buf).rest =
      buf.reverse ++ bits := by
  intro bits
  induction bits with
  | nil => intro len code buf; simp [parseStream]
  | cons b bs ih =>
    intro len code buf
    rw [parseStream]
    split
    · have := ih 0 0 []
      simp only [List.flatMap_cons, List.append_assoc, this]
      simp
    · rw [ih]; simp

/-- The channel loses no unit: the units kept and the units dropped are the units there were, and the random source
made one draw per unit (44_channel R272). -/
theorem eraseUnits_length_le (lossT : Nat) : ∀ (us : List (List Bool)) (d : Draws),
    (eraseUnits lossT d us).kept.length ≤ (us.map List.length).sum ∧ (eraseUnits lossT d us).dropped ≤ us.length := by
  intro us
  induction us with
  | nil => intro d; simp [eraseUnits]
  | cons u us ih =>
    intro d
    have := ih (draw d).2
    rw [eraseUnits]
    split <;> simp <;> omega

/-- The synthesis loop makes one output per residual sample (42_filter R212). -/
@[simp] theorem length_synthLoop (coef : Nat → Int) (p : Nat) : ∀ (es : List Int) (n : Nat) (ys : List Int),
    (synthLoop coef p es n ys).length = es.length := by
  intro es
  induction es with
  | nil => intros; rfl
  | cons e es ih => intro n ys; rw [synthLoop, List.length_cons, ih, List.length_cons]

/-- What a reset leaves: the registers and files at their reset values, whatever the buffers hold. -/
theorem performReset_eq (s : State) : ∃ (m : Memory) (n : Nat),
    performReset s = { resetRegisters s m with freeCount := n } ∧ (s.busy = false → m = s.mem ∧ n = s.freeCount) := by
  unfold performReset
  split
  · rename_i h
    exact ⟨_, _, rfl, fun h' => by simp [h] at h'⟩
  · exact ⟨_, _, rfl, fun _ => ⟨rfl, rfl⟩⟩

/-- A host read gives the location's word and changes nothing, or is refused (20_memory R92, R101). -/
theorem busRead_cases (s : State) (a : Addr) :
    (busRead s a = (readLoc s (Loc.ofAddr a.toNat), s) ∧ readAllowed s.busy a = true) ∨
      (busRead s a = (0#32, refuse s) ∧ s.busy = true) := by
  unfold busRead
  split
  · exact .inl ⟨rfl, by assumption⟩
  · refine .inr ⟨rfl, ?_⟩
    simp [readAllowed] at *
    tauto

/-- A host write is done on its location, or is refused (20_memory R93, R101). -/
theorem busWrite_cases (s : State) (a : Addr) (v : Word) :
    (busWrite s a v = writeLoc s v (Loc.ofAddr a.toNat) ∧ writeAllowed s.busy a = true) ∨
      (busWrite s a v = refuse s ∧ s.busy = true) := by
  unfold busWrite
  split
  · exact .inl ⟨rfl, by assumption⟩
  · refine .inr ⟨rfl, ?_⟩
    simp [writeAllowed] at *
    tauto

/-- What the host's turn can do: nothing, one more poll of WAIT, or the head of the list. -/
theorem hostTurn_cases (s : State) :
    (s.script = [] ∧ hostTurn s = s) ∨
    (∃ ops, s.script = .wait :: ops ∧ s.busy = true ∧ hostTurn s = { s with windowLeft := s.windowLeft - 1 }) ∨
    (∃ op ops, s.script = op :: ops ∧ ¬ (op = .wait ∧ s.busy = true) ∧
      hostTurn s = hostEffect { s with script := ops, windowLeft := s.windowLeft - 1 } op) := by
  unfold hostTurn
  split
  · exact .inl ⟨by assumption, rfl⟩
  · rename_i op ops h
    split
    · rename_i h'
      obtain ⟨rfl, hb⟩ := h'
      exact .inr (.inl ⟨ops, h, hb, rfl⟩)
    · exact .inr (.inr ⟨op, ops, h, by assumption, rfl⟩)

/-- What one step can do: the engine performs the decoded command, completes an illegal one, or the host takes its
turn. -/
theorem step_cases {s t : State} (h : step s = .next t) :
    (∃ i, engineTurn s = true ∧ decode s.cmd = .ok i ∧ exec i s = .next t) ∨
    (∃ r, engineTurn s = true ∧ decode s.cmd = .error r ∧ t = complete s .illegalCommand []) ∨
    (engineTurn s = false ∧ t = hostTurn s) := by
  unfold step at h
  split at h
  · rename_i he
    unfold runEngine fetchWord at h
    split at h
    · exact .inl ⟨_, he, by assumption, h⟩
    · cases h
      exact .inr (.inl ⟨_, he, by assumption, rfl⟩)
  · rename_i he
    cases h
    exact .inr (.inr ⟨by simpa using he, rfl⟩)

end Sys2Proof.Machine
end

