-- ==== Sys2Proof/Laws/PerInstr.lean ====
section
/-! SUPPORT. The statements about every instruction as syntax, one lemma per constructor. -/

namespace Sys2Proof.Laws

/-- The opcode of each command (30_encoding R124). -/
def opcodeNumber : Instr → BitVec 8
  | .nop => 0x00#8
  | .acorr => 0x01#8
  | .levd => 0x02#8
  | .qcoef => 0x03#8
  | .dqcoef => 0x04#8
  | .analyze => 0x05#8
  | .synth => 0x06#8
  | .hbuild _ => 0x07#8
  | .henc _ => 0x08#8
  | .hdec _ => 0x09#8
  | .erase _ => 0x0A#8
  | .fidel _ => 0x0B#8

/-- The opcode field of the encoded command is the command's opcode (30_encoding R120, R124). -/
def EncodesOpcode.Statement (i : Instr) : Prop := opcodeOf (encode i) = opcodeNumber i

theorem EncodesOpcode.nop : EncodesOpcode.Statement .nop := by unfold EncodesOpcode.Statement; decide
theorem EncodesOpcode.acorr : EncodesOpcode.Statement .acorr := by unfold EncodesOpcode.Statement; decide
theorem EncodesOpcode.levd : EncodesOpcode.Statement .levd := by unfold EncodesOpcode.Statement; decide
theorem EncodesOpcode.qcoef : EncodesOpcode.Statement .qcoef := by unfold EncodesOpcode.Statement; decide
theorem EncodesOpcode.dqcoef : EncodesOpcode.Statement .dqcoef := by unfold EncodesOpcode.Statement; decide
theorem EncodesOpcode.analyze : EncodesOpcode.Statement .analyze := by unfold EncodesOpcode.Statement; decide
theorem EncodesOpcode.synth : EncodesOpcode.Statement .synth := by unfold EncodesOpcode.Statement; decide
theorem EncodesOpcode.hbuild : ∀ sel, EncodesOpcode.Statement (.hbuild sel) := by
  unfold EncodesOpcode.Statement; decide
theorem EncodesOpcode.henc : ∀ sel, EncodesOpcode.Statement (.henc sel) := by
  unfold EncodesOpcode.Statement; decide
theorem EncodesOpcode.hdec : ∀ sel, EncodesOpcode.Statement (.hdec sel) := by
  unfold EncodesOpcode.Statement; decide
theorem EncodesOpcode.erase : ∀ g, EncodesOpcode.Statement (.erase g) := by
  unfold EncodesOpcode.Statement; decide
theorem EncodesOpcode.fidel : ∀ t, EncodesOpcode.Statement (.fidel t) := by
  unfold EncodesOpcode.Statement; decide

end Sys2Proof.Laws
end

