-- ==== Sys2Proof/Machine/Script.lean ====
section
/-! DEFINITION. The host script notation and its pseudo-instructions (30_encoding R129, R130), the pipeline orders
(46_system R310, R311) and the frame record (43_entropy R262). A script is a list of host operations; `State.script`
takes it. -/

namespace Sys2Proof.Machine

/-- The script line `WR <loc>, <value>` (30_encoding R129). -/
def wr (l : Loc) (v : Word) : HostOp := .write (BitVec.ofNat 19 l.addr) v

/-- The script line `RD <loc>` (30_encoding R129). -/
def rd (l : Loc) : HostOp := .read (BitVec.ofNat 19 l.addr)

/-- The script line `<MNEMONIC> [operand]`: `WR CMD, <encoding>` (30_encoding R129). -/
def issue (i : Instr) : HostOp := wr (.reg .cmd) (encode i)

/-- `RUN <cmd>` (30_encoding R130). -/
def runCmd (i : Instr) : List HostOp := [issue i, .wait]

/-- An integer as the word the bus carries it in (00_scope R10). -/
def toWord (v : Int) : Word := BitVec.ofInt 32 v

/-- `LOADX v0, v1, …` (30_encoding R130). -/
def loadX (vs : List Int) : List HostOp :=
  vs.mapIdx (fun i v => wr (.x i) (toWord v)) ++ [wr (.reg .len) (BitVec.ofNat 32 vs.length)]

/-- `LOADQE v0, …` (30_encoding R130). -/
def loadQE (vs : List Int) : List HostOp :=
  vs.mapIdx (fun i v => wr (.qe i) (toWord v)) ++ [wr (.reg .elen) (BitVec.ofNat 32 vs.length)]

/-- `LOADQC v1, …` (30_encoding R130). -/
def loadQC (vs : List Int) : List HostOp :=
  vs.mapIdx (fun i v => wr (.qc (i + 1)) (toWord v)) ++ [wr (.reg .clen) (BitVec.ofNat 32 vs.length)]

/-- `LOADBS "b0b1…"` (30_encoding R130). -/
def loadBS (bits : List Bool) : List HostOp :=
  (packWords (streamWords bits.length) bits).mapIdx (fun j v => wr (.bsWord j) v) ++
    [wr (.reg .blen) (BitVec.ofNat 32 bits.length)]

/-- `SEED v` (30_encoding R130). -/
def seed (v : Word) : List HostOp := [wr (.reg .rng) v]

/-- `LPC` (30_encoding R130). -/
def lpc : List HostOp := runCmd .acorr ++ runCmd .levd

/-- `ENCODE`, the closed-loop order (30_encoding R130, 46_system R310). -/
def encodeSignal : List HostOp := lpc ++ runCmd .qcoef ++ runCmd .dqcoef ++ runCmd .analyze

/-- The open-loop order: ANALYZE runs on the coefficients that LEVD wrote (46_system R311). -/
def encodeOpenLoop : List HostOp := lpc ++ runCmd .qcoef ++ runCmd .analyze

/-- `DECODE` (30_encoding R130). -/
def decodeSignal : List HostOp := runCmd .dqcoef ++ runCmd .synth

/-- `XMIT <sel>, <gran>` (30_encoding R130). -/
def xmit (sel : BitVec 2) (g : BitVec 1) : List HostOp :=
  runCmd (.hbuild sel) ++ runCmd (.henc sel) ++ runCmd (.erase g) ++ runCmd (.hdec sel)

/-- `PIPELINE <gran>, <pol>` (30_encoding R130, 46_system R310). -/
def pipeline (g t : BitVec 1) : List HostOp :=
  encodeSignal ++ xmit 0#2 g ++ xmit 1#2 g ++ decodeSignal ++ runCmd (.fidel t)

/-- The frame record a host may keep of a coded stream: order, coefficient scale factor, symbol count, the code table
as triples (symbol, length, codeword) in ascending symbol order, and the bit payload (43_entropy R262). -/
structure FrameRecord where
  order : Word
  scale : Nat
  symcount : Word
  table : List (Nat × Nat × Word)
  blen : Word
  words : List Word
deriving DecidableEq, Repr

/-- The record, read from the block's locations after HENC (43_entropy R262). -/
def frameRecord (s : State) : FrameRecord where
  order := readReg s .order
  scale := 2 ^ (readReg s .qscale).toNat
  symcount := readReg s .symcount
  table := (List.range 256).filterMap fun b =>
    if readLoc s (.ctLen b) = 0#32 then none
    else some (b, (readLoc s (.ctLen b)).toNat, readLoc s (.ctCode b))
  blen := readReg s .blen
  words := (List.range (streamWords s.blen.toNat)).map fun j => readLoc s (.bsWord j)

/-- The writes by which a host restores a record: the same locations, every entry of the table among them, an entry
without a codeword as (0, 0) (43_entropy R262, 70_reset R363). -/
def restoreFrame (f : FrameRecord) : List HostOp :=
  [wr (.reg .order) f.order, wr (.reg .symcount) f.symcount] ++
    ((List.range 256).flatMap fun b =>
      match f.table.find? (fun e => e.1 == b) with
      | some e => [wr (.ctLen b) (BitVec.ofNat 32 e.2.1), wr (.ctCode b) e.2.2]
      | none => [wr (.ctLen b) 0#32, wr (.ctCode b) 0#32]) ++
    f.words.mapIdx (fun j v => wr (.bsWord j) v) ++ [wr (.reg .blen) f.blen]

end Sys2Proof.Machine
end

