-- ==== Sys2Proof/Tests/Slice0.lean ====
section
/-! SUPPORT. The model's own tests: the decoder on words written out from the formats of 30_encoding, the refusal of
ill-formed commands, the examples of the spec's rules and the vectors of 95_test_vectors, each one command or one bus
access on a small state, and for every statement with hypotheses a state that meets them. -/

namespace Sys2Proof.Tests

set_option Elab.async false

open Sys2Proof Sys2Proof.Machine

/-! Helpers: small states, and what a command or a step leaves. -/

/-- The state an outcome holds (the default where it holds none). -/
def outcome (d : State) : Host.Outcome State Fault Refusal → State
  | .next t => t
  | .fault _ => d
  | .refused _ => d

/-- The state after a command. -/
def after (i : Instr) (s : State) : State := outcome s (exec i s)

/-- The state after a step. -/
def stepped (s : State) : State := outcome s (step s)

/-- The reset state with a signal in X. -/
def withX (vs : List Int) : State :=
  { State.reset with mem := storeInts [] xBase vs, len := BitVec.ofNat 32 vs.length }

/-- A state with a residual in QE. -/
def withQE (s : State) (vs : List Int) : State :=
  { s with mem := storeInts s.mem qeBase vs, elen := BitVec.ofNat 32 vs.length }

/-- A state with a reconstruction in Y. -/
def withY (s : State) (vs : List Int) : State :=
  { s with mem := storeInts s.mem yBase vs, ylen := BitVec.ofNat 32 vs.length }

/-- A state with coefficients in A. -/
def withA (s : State) (vs : List Int) : State :=
  { s with a := Vector.ofFn fun k : Fin 32 => BitVec.ofInt 32 (vs.getD k.val 0) }

/-- A state with quantized coefficients in QC. -/
def withQC (s : State) (vs : List Int) : State :=
  { s with qc := Vector.ofFn fun k : Fin 32 => BitVec.ofInt 16 (vs.getD k.val 0), clen := BitVec.ofNat 32 vs.length }

/-- A state with lags in R, `LEN` 100. -/
def withR (vs : List Int) (order : Word) : State :=
  { State.reset with
    r := Vector.ofFn fun k : Fin 33 => BitVec.ofInt 64 (vs.getD k.val 0), order := order, len := 100#32 }

/-- A state with a stream in BS. -/
def withBS (s : State) (bits : List Bool) : State :=
  { s with mem := storeBits s.mem bits, blen := BitVec.ofNat 32 bits.length }

/-- A state whose table has the codewords 0 = "0", 1 = "11", 2 = "10" (43_entropy R235 example 1). -/
def withTable (s : State) : State :=
  { s with ct := ((s.ct.setIfInBounds 0 ⟨1#6, 0#32⟩).setIfInBounds 1 ⟨2#6, 3#32⟩).setIfInBounds 2 ⟨2#6, 2#32⟩ }

/-- The 15 bits "110110110100100" of 43_entropy R236 example 1. -/
def stream1 : List Bool :=
  [true, true, false, true, true, false, true, true, false, true, false, false, true, false, false]

/-- A state in the busy window of a command: `left` host accesses still come, then the rest of the list. -/
def inWindow (s : State) (w : Word) (left : Nat) (ops : List HostOp) : State :=
  { accept s w with script := ops, windowLeft := left, windows := [] }

/-! Ill-formed commands are refused by the check of WellFormed (30_encoding R122). -/

theorem test_wf_refuses_hbuild_reserved : Instr.wf (.hbuild 2#2) = false := by decide
theorem test_wf_refuses_henc_reserved : Instr.wf (.henc 3#2) = false := by decide
theorem test_wf_refuses_hdec_reserved : Instr.wf (.hdec 2#2) = false := by decide
theorem test_wf_accepts_sel_one : Instr.wf (.hdec 1#2) = true := by decide

/-! Decoding, each word written out from its format: zeros, then the field, then the opcode (30_encoding R120, R124). -/

theorem test_decode_nop : decode 0b00000000000000000000000000000000#32 = .ok .nop := by decide
theorem test_decode_acorr : decode 0b00000000000000000000000000000001#32 = .ok .acorr := by decide
theorem test_decode_levd : decode 0b00000000000000000000000000000010#32 = .ok .levd := by decide
theorem test_decode_qcoef : decode 0b00000000000000000000000000000011#32 = .ok .qcoef := by decide
theorem test_decode_dqcoef : decode 0b00000000000000000000000000000100#32 = .ok .dqcoef := by decide
theorem test_decode_analyze : decode 0b00000000000000000000000000000101#32 = .ok .analyze := by decide
theorem test_decode_synth : decode 0b00000000000000000000000000000110#32 = .ok .synth := by decide
theorem test_decode_hbuild_qe : decode 0b00000000000000000000000100000111#32 = .ok (.hbuild 1#2) := by decide
theorem test_decode_henc_qc : decode 0b00000000000000000000000000001000#32 = .ok (.henc 0#2) := by decide
theorem test_decode_hdec_qe : decode 0b00000000000000000000000100001001#32 = .ok (.hdec 1#2) := by decide
theorem test_decode_erase_cw : decode 0b00000000000000000000000100001010#32 = .ok (.erase 1#1) := by decide
theorem test_decode_fidel_trunc : decode 0b00000000000000000000000100001011#32 = .ok (.fidel 1#1) := by decide

/-- The illegal words of 95_test_vectors V46.3, each with its reason. -/
theorem test_decode_rejects :
    [0x0000000C#32, 0x000000FF#32, 0x00000101#32, 0x00000207#32, 0x00000307#32, 0x00000409#32, 0x0000020A#32,
      0x0000030B#32, 0x80000000#32, 0x00010002#32].map decode =
    [.error .unknownOpcode, .error .unknownOpcode, .error .mustBeZero, .error .reservedSel, .error .reservedSel,
      .error .mustBeZero, .error .mustBeZero, .error .mustBeZero, .error .mustBeZero, .error .mustBeZero] := by decide

theorem test_decodeTableWord : decodeTableWord 32 0x109 = some (.hdec 1#2) := by decide

/-! The primitives (95_test_vectors V00, V41). -/

theorem test_rshr :
    [rshr 3 1, rshr (-3) 1, rshr 5 2, rshr 6 2, rshr (-6) 2, rshr (-7) 2, rshr (-13657243) 9] =
      [2, -1, 1, 2, -1, -2, -26674] := by decide
theorem test_rdiv : [rdiv 7 2, rdiv (-7) 2, rdiv 5 3, rdiv (-5) 3] = [4, -3, 2, -2] := by decide
theorem test_sat : [sat 16 32768, sat 16 (-32769), sat 16 (-32768), sat 32 2147483648] =
    [32767, -32768, -32768, 2147483647] := by decide
theorem test_bitlen : [bitlen 1, bitlen 55, bitlen 1073741824, bitlen 49999520500] = [1, 6, 31, 36] := by
  decide +kernel
theorem test_qcoef :
    [qcoef 256, qcoef (-256), qcoef (-257), qcoef 16776959, qcoef 16776960, qcoef (-16777472), qcoef (-16777473)] =
      [1, 0, -1, 32767, 32767, -32768, -32768] := by decide
theorem test_qres : [qres 25165824, qres (-25165824), qres (2 ^ 24 * 40000), qres (-(2 ^ 24) * 32769)] =
    [2, -1, 32767, -32768] := by decide

/-! The commands, on the examples of their rules. -/

/-- V46.2. -/
theorem test_nop : ((after .nop State.reset).status, (after .nop State.reset).cmdcnt) = (2#32, 1#32) := by
  decide +kernel

/-- V40.1. -/
theorem test_acorr :
    let t := after .acorr { withX [1, 2, 3, 4, 5] with order := 2#32 }
    (t.lag 0, t.lag 1, t.lag 2) = (55, 40, 26) := by decide +kernel

/-- V40.6: with `ORDER` 0 and `LEN` 70000 the length is checked first. -/
theorem test_acorr_check_order :
    (after .acorr { State.reset with order := 0#32, len := 70000#32 }).result = 2#32 := by decide +kernel

/-- V40.2. -/
theorem test_levd :
    let t := after .levd (withR [55, 40, 26] 2#32)
    (t.coef 1, t.coef 2, t.rsh, t.efin, t.ldord) = (-13657243, 2001493, 25#32, 856991875#32, 2#32) := by decide +kernel

/-- V40.5, line 8: the energy is used up before the last step. -/
theorem test_levd_stops :
    let t := after .levd (withR [35184372088832, -34909494181888, 35184238395392, -34909761471107, 0] 4#32)
    (t.coef 3, t.coef 4, t.efin, t.ldord, t.result) = (16777192, 0, 0#32, 3#32, 0x00040000#32) := by decide +kernel

/-- V41. -/
theorem test_qcoef_command :
    let t := after .qcoef (withA { State.reset with order := 2#32 } [-23702840, 16743662])
    (t.qcHalf 1, t.qcHalf 2, t.qovf, t.result) = (0x8000#16, 32702#16, 1#32, 0x00010000#32) := by decide +kernel

/-- V41. -/
theorem test_dqcoef :
    let t := after .dqcoef (withQC { State.reset with order := 2#32 } [-26674])
    (t.coef 1, t.coef 2, t.result) = (-13657088, 0, 0x00400000#32) := by decide +kernel

/-- 42_filter R211 example 2 (ties). -/
theorem test_analyze_ties :
    let t := after .analyze (withA { withX [1, 1, 3, -1, -3] with order := 1#32 } [8388608])
    (List.range 5).map (fun n => (t.qeHalf n).toInt) = [1, 2, 4, 1, -3] := by decide +kernel

/-- 42_filter R211 example 3 (clamps). -/
theorem test_analyze_clamps :
    let t := after .analyze (withA { withX [1000, 2000, 3000, -4000, 5000, -32768, 32767, 32767] with order := 2#32 }
      [-16777216, 8388608])
    ((t.qeHalf 5).toInt, (t.qeHalf 6).toInt, (t.qeHalf 7).toInt, t.qovf) = (-32768, 32767, -16384, 2#32) := by
  decide +kernel

/-- 42_filter R212 example 1. -/
theorem test_synth :
    let t := after .synth (withA (withQE { State.reset with order := 2#32 } [1, 1, 1, 2, 2]) [-13657088, 2001408])
    (List.range 5).map t.recon = [1, 2, 3, 4, 5] := by decide +kernel

/-- 42_filter R212 example 3 (the clamped value is fed back). -/
theorem test_synth_clamps :
    let t := after .synth (withA (withQE { State.reset with order := 1#32 } [20000, 0, 0, 0]) [-33554432])
    ((List.range 4).map t.recon, t.ysat, t.result) = ([20000, 32767, 32767, 32767], 3#32, 0x00100000#32) := by
  decide +kernel

/-- 43_entropy R235 example 1 (the tie between a leaf and a merged node). -/
theorem test_hbuild :
    let t := after (.hbuild 1#2) (withQE State.reset [1, 1, 1, 2, 2])
    (t.entry 0#8, t.entry 1#8, t.entry 2#8, t.nsym) =
      (⟨1#6, 0#32⟩, ⟨2#6, 3#32⟩, ⟨2#6, 2#32⟩, 3#32) := by decide +kernel

/-- V43.4: four symbols of one weight, in the order of their values. -/
theorem test_hbuild_ties :
    let t := after (.hbuild 0#2) (withQC State.reset [-26674, 3909])
    (t.entry 0x0F#8, t.entry 0x45#8, t.entry 0x97#8, t.entry 0xCE#8) =
      (⟨2#6, 0#32⟩, ⟨2#6, 1#32⟩, ⟨2#6, 2#32⟩, ⟨2#6, 3#32⟩) := by decide +kernel

/-- 43_entropy R236 example 1. -/
theorem test_henc :
    let t := after (.henc 1#2) (withTable (withQE State.reset [1, 1, 1, 2, 2]))
    (t.blen, t.symcount, t.mem.word bsBase) = (15#32, 10#32, 0xDB480000#32) := by decide +kernel

/-- V43.14. -/
theorem test_henc_no_codeword :
    (after (.henc 1#2) (withTable (withQE State.reset [3]))).result = 6#32 := by decide +kernel

/-- V43.8. -/
theorem test_hdec_incomplete :
    let t := after (.hdec 1#2) (withBS (withTable State.reset) (stream1.take 13))
    (t.dcount, t.elen, (List.range 4).map (fun i => (t.qeHalf i).toInt), t.result, t.lossev) =
      (8#32, 4#32, [1, 1, 1, 2], 0x00200003#32, 1#32) := by decide +kernel

/-- V43.16, with the table of V43.1: the 65th symbol finds QC full. -/
theorem test_hdec_overflow :
    let t := after (.hdec 0#2) (withBS (withTable State.reset) (List.replicate 65 false))
    (t.dcount, t.clen, t.qcHalf 32, t.result, t.lossev) = (64#32, 32#32, 0#16, 9#32, 0#32) := by decide +kernel

/-- V44.2. -/
theorem test_erase_bit :
    let t := after (.erase 0#1) (withBS State.reset stream1)
    (t.blen, t.dropcnt, t.rng, t.mem.word bsBase) = (13#32, 2#32, 0x3C2DEF7A#32, 0xD7200000#32) := by decide +kernel

/-- V44.6. -/
theorem test_erase_cw :
    let t := after (.erase 1#1) (withBS (withTable { State.reset with lossT := 32768#32 }) stream1)
    (t.blen, t.dropcnt, t.rng, t.mem.word bsBase) = (7#32, 5#32, 0xA3A5A0E3#32, 0xD0000000#32) := by decide +kernel

/-- V45.5. -/
theorem test_fidel_trunc :
    let t := after (.fidel 1#1) (withY (withX [1, 2, 3, 4, 5]) [1, 2, 3, 4])
    (t.es, t.en, t.flen, t.result) = (30#64, 0#64, 4#32, 0x00C00000#32) := by decide +kernel

/-- V45.10. -/
theorem test_fidel_strict :
    let t := after (.fidel 0#1) (withY (withX [-32768]) [32767])
    (t.es, t.en, t.result) = (1073741824#64, 4294836225#64, 0#32) := by decide +kernel

/-! The engine, the bus and the resets (95_test_vectors V46). -/

/-- V46.3: an illegal word. -/
theorem test_illegal_word :
    let t := stepped (State.reset.withFetchWord 32 0x207)
    (t.result, t.status, t.ip, t.cmd) = (5#32, 6#32, 3#32, 0x207#32) := by decide +kernel

/-- The word that `withFetchWord` places is run by the very next step. -/
theorem test_fetch_word : (stepped (State.reset.withFetchWord 32 0x001)).result = 1#32 := by decide +kernel

/-- V46.5: the interrupt line, the error source enabled, after an error. -/
theorem test_irq :
    (stepped { State.reset.withFetchWord 32 0x0C with ie := 2#32 }).status = 0xE#32 := by decide +kernel

/-- V46.6: `LOSS_T` saturates; X keeps 16 bits and reads sign-extended; an unmapped address reads 0. -/
theorem test_bus_writes :
    ((busWrite State.reset 0x19#19 70000#32).lossT,
      (busRead (busWrite State.reset 0x10003#19 0x0001FFFF#32) 0x10003#19).1,
      (busRead (busWrite State.reset 0x282#19 0x47#32) 0x282#19).1,
      (busRead (busWrite State.reset 0x420#19 7#32) 0x420#19).1) =
    (65536#32, 0xFFFFFFFF#32, 7#32, 0#32) := by decide +kernel

/-- V46.8: in the window a write to `LEN` is refused and flagged. -/
theorem test_busy_write :
    let t := stepped (inWindow { State.reset with len := 5#32 } 0#32 1 [wr (.reg .len) 7#32])
    (t.len, t.sticky, t.status) = (5#32, 0x02000000#32, 1#32) := by decide +kernel

/-- V46.7: the soft reset keeps the buffers. -/
theorem test_soft_reset :
    let t := busWrite { withX [1, 2] with cmdcnt := 9#32, order := 3#32 } 0x02#19 1#32
    (t.cmdcnt, t.order, t.len, t.sample 1) = (0#32, 10#32, 0#32, 2) := by decide +kernel

/-- A soft reset in the window abandons the command: no bookkeeping. -/
theorem test_reset_abandons :
    let t := stepped (inWindow State.reset 0#32 1 [wr (.reg .ctrl) 1#32])
    (t.busy, t.cmdcnt, t.done) = (false, 0#32, false) := by decide +kernel

/-- `LOADBS` packs the stream most significant bit first (30_encoding R130). -/
theorem test_loadBS : (loadBS stream1).head? = some (.write 0x40000#19 0xDB480000#32) := by decide +kernel

/-! For every statement with hypotheses, states that meet them, at the boundaries of each clause. -/

theorem witness_StepRunsTheDecodedCommand :
    ((State.reset.withFetchWord 32 1).busy = true ∧ (State.reset.withFetchWord 32 1).windowLeft = 0 ∧
      decode (State.reset.withFetchWord 32 1).cmd = .ok .acorr) ∧
    ((inWindow State.reset 0x109#32 3 []).busy = true ∧ (inWindow State.reset 0x109#32 3 []).script = [] ∧
      decode (inWindow State.reset 0x109#32 3 []).cmd = .ok (.hdec 1#2)) := by decide +kernel

theorem witness_CommandWriteIsAcceptedOrRefused :
    ({ State.reset with script := [.write 0x03#19 0x207#32] }.script = .write 0x03#19 0x207#32 :: [] ∧
      { State.reset with script := [.write 0x03#19 0x207#32] }.busy = false) ∧
    ((inWindow State.reset 1#32 1 [.write 0x03#19 0#32]).script = .write 0x03#19 0#32 :: [] ∧
      (inWindow State.reset 1#32 1 [.write 0x03#19 0#32]).busy = true ∧
      (inWindow State.reset 1#32 1 [.write 0x03#19 0#32]).windowLeft ≠ 0) := by decide +kernel

theorem witness_IllegalWordCompletesWithCodeFive :
    engineTurn (State.reset.withFetchWord 32 0x307) = true ∧
      decode (State.reset.withFetchWord 32 0x307).cmd = .error .reservedSel := by decide +kernel

theorem witness_ReservedSelIsIllegal :
    (after (.hbuild 2#2) State.reset).result = 5#32 ∧ (after (.hdec 3#2) State.reset).result = 5#32 := by decide +kernel

theorem witness_BusyWindowIsFinite :
    (inWindow State.reset 0#32 2 [.wait, .wait]).busy = true ∧ (inWindow State.reset 0#32 0 []).busy = true := by
  decide +kernel

theorem witness_WindowAccessesTouchOnlyTheStatusGroup :
    let s := inWindow State.reset 0#32 2 [wr (.reg .ctrl) 0xFFFFFFFE#32, rd (.reg .len)]
    s.busy = true ∧ engineTurn s = false ∧ s.script = .write 0x02#19 0xFFFFFFFE#32 :: [rd (.reg .len)] ∧
      HostOp.write 0x02#19 0xFFFFFFFE#32 ≠ .hardReset ∧ (0xFFFFFFFE#32).getLsbD 0 = false := by decide +kernel

/-- Every command answers a next state from the reset state: the hypothesis of the frame statement. -/
theorem witness_CommandsWriteOnlyWhatTheTableLists : ∃ t, exec (.erase 1#1) State.reset = .next t ∧ t.blen = 0#32 :=
  ⟨_, rfl, rfl⟩

theorem witness_EveryStepKeepsTheInvariant : ∃ t, State.reset.Inv ∧ step State.reset = .next t := by
  refine ⟨State.reset, ?_, rfl⟩
  unfold State.Inv
  decide +kernel

/-- The second hypothesis of the estimator's check, on a reset state with these registers. -/
abbrev OrderBad (o l : Word) : Prop :=
  l.toNat ≤ 65536 ∧ (o.toNat = 0 ∨ 32 < o.toNat ∨ l.toNat ≤ o.toNat)

theorem witness_EstimatorCheckRaises :
    65536 < { State.reset with len := 65537#32 }.len.toNat ∧
      OrderBad 0#32 65536#32 ∧ OrderBad 33#32 65536#32 ∧ OrderBad 32#32 32#32 ∧ OrderBad 0#32 0#32 := by decide +kernel

/-- The state with these registers passes the estimator's check. -/
abbrev EstOk (o l : Word) : Prop :=
  { State.reset with order := o, len := l }.len.toNat ≤ 65536 ∧
    1 ≤ { State.reset with order := o, len := l }.order.toNat ∧
    { State.reset with order := o, len := l }.order.toNat ≤ 32 ∧
    { State.reset with order := o, len := l }.order.toNat < { State.reset with order := o, len := l }.len.toNat

/-- `ORDER` 1 and 32, `LEN` at its least and at its greatest. -/
theorem witness_AcorrWritesTheAutocorrelation : EstOk 1#32 2#32 ∧ EstOk 32#32 33#32 ∧ EstOk 32#32 65536#32 := by
  decide +kernel

theorem witness_LevdAcceptsWhatAcorrWrote :
    let s := { withX [1, 2, 3, 4, 5] with order := 4#32 }
    (s.len.toNat ≤ 65536 ∧ 1 ≤ s.order.toNat ∧ s.order.toNat ≤ 32 ∧ s.order.toNat < s.len.toNat) ∧
      (after .acorr s).errByte = 0 ∧ (after .levd (after .acorr s)).errByte = 0 := by decide +kernel

/-- V40.6: lags that no signal has, either clause. -/
theorem witness_LevdRaisesOnImpossibleLags :
    (withR [-1, 0] 1#32).lag 0 < 0 ∧
    (0 < (withR [4, -5] 1#32).lag 0 ∧ (withR [4, -5] 1#32).lag 0 < |(withR [4, -5] 1#32).lag 1|) ∧
    (withR [4, -5] 1#32).order.toNat < (withR [4, -5] 1#32).len.toNat := by decide +kernel

/-- V40.4: silence with another lag that is not 0. -/
theorem witness_LevdOfSilenceIsZero :
    let s := withR [0, 5] 1#32
    s.len.toNat ≤ 65536 ∧ 1 ≤ s.order.toNat ∧ s.order.toNat ≤ 32 ∧ s.order.toNat < s.len.toNat ∧ s.lag 0 = 0 := by
  decide +kernel

/-- Lags at the bound `|R[k]| = R[0]`. -/
theorem witness_LevdIsTheFixedPointRecursion :
    let s := withR [4, -4, 4] 2#32
    s.len.toNat ≤ 65536 ∧ 1 ≤ s.order.toNat ∧ s.order.toNat ≤ 32 ∧ s.order.toNat < s.len.toNat ∧ 0 < s.lag 0 ∧
      |s.lag 1| ≤ s.lag 0 ∧ |s.lag 2| ≤ s.lag 0 := by decide +kernel

theorem witness_RoundingsAreTheFloorsOfTheRules : (1 : Nat) ≤ 1 ∧ (0 : Int) < 1 := by decide

theorem witness_QuantizersRoundTripAndAreMonotonic :
    ((-32768 : Int) ≤ -32768 ∧ (32767 : Int) ≤ 32767) ∧ |(2 ^ 24 - 1 : Int)| < 2 ^ 24 ∧
      clamped 16 (rshr 16776959 9) = false := by decide +kernel

theorem witness_QcoefDqcoefAnalyzeSynth_checks :
    ({ State.reset with order := 0#32 }.order.toNat = 0 ∧ 32 < { State.reset with order := 33#32 }.order.toNat) ∧
    ({ State.reset with len := 65536#32 }.len.toNat ≤ 65536 ∧ { State.reset with elen := 65536#32 }.elen.toNat ≤ 65536) ∧
    (1 ≤ { State.reset with order := 32#32, clen := 33#32 }.order.toNat ∧
      { State.reset with order := 32#32, clen := 33#32 }.order.toNat ≤ 32 ∧
      32 < { State.reset with order := 32#32, clen := 33#32 }.clen.toNat) ∧
    65536 < { State.reset with len := 65537#32 }.len.toNat ∧
    65536 < { State.reset with elen := 65537#32 }.elen.toNat := by decide +kernel

/-- A legal `ORDER` and a length register at most its capacity. -/
abbrev OrderLenOk (o l : Word) (cap : Nat) : Prop := 1 ≤ o.toNat ∧ o.toNat ≤ 32 ∧ l.toNat ≤ cap

theorem witness_QcoefQuantizesTheCoefficients :
    OrderLenOk { State.reset with order := 1#32 }.order 0#32 0 ∧ OrderLenOk { State.reset with order := 32#32 }.order 0#32 0 := by
  decide +kernel

theorem witness_DqcoefDequantizesTheCoefficients :
    OrderLenOk 1#32 { State.reset with clen := 32#32 }.clen 32 ∧ OrderLenOk 32#32 State.reset.clen 32 := by decide +kernel

theorem witness_AnalyzeWritesTheResidual :
    OrderLenOk 1#32 State.reset.len 65536 ∧ OrderLenOk 32#32 { State.reset with len := 65536#32 }.len 65536 := by
  decide +kernel

theorem witness_SynthWritesTheReconstruction :
    OrderLenOk 1#32 State.reset.elen 65536 ∧ OrderLenOk 32#32 { State.reset with elen := 65536#32 }.elen 65536 := by
  decide +kernel

/-- 42_filter R211 example 1 and R212 example 1: SYNTH on what ANALYZE wrote, with the same A and ORDER. -/
theorem witness_SynthInvertsAnalyze :
    let s := withA { withX [1, 2, 3, 4, 5] with order := 2#32 } [-13657088, 2001408]
    (s.len.toNat ≤ 65536 ∧ 1 ≤ s.order.toNat ∧ s.order.toNat ≤ 32) ∧ (after .analyze s).result.getLsbD 16 = false ∧
      (after .analyze s).order = s.order ∧ (after .analyze s).elen = s.len ∧
      (after .synth (after .analyze s)).result = 0#32 := by decide +kernel

/-- A state on which HENC would write more than BS holds: 32770 bytes, each with a codeword of 32 bits. -/
def overflowState : State :=
  { State.reset with elen := 16385#32, ct := Vector.replicate 256 ⟨32#6, 0#32⟩ }

/-- `ELEN` 16384 would give exactly 1048576 bits, which is no overflow; 16385 is one. -/
theorem witness_HencWritesTheStream_overflow :
    Sel.ofField 1#2 = some .qe ∧ overflowState.selLen .qe ≤ Sel.capacity .qe ∧
    (∀ b ∈ overflowState.src .qe,
      1 ≤ (overflowState.entry b).len.toNat ∧ (overflowState.entry b).len.toNat ≤ 32) ∧
    1048576 < ((overflowState.src .qe).map fun b => (overflowState.entry b).len.toNat).sum := by
  have he : ∀ b, (overflowState.entry b).len.toNat = 32 := by
    intro b
    have hb := b.isLt
    simp [overflowState, State.entry, hb]
  have hl : (overflowState.src .qe).length = 32770 := by
    rw [State.src, length_bytesOf, State.selArray, List.length_map, List.length_range]
    rfl
  refine ⟨by decide, by decide +kernel, fun b _ => by rw [he]; decide, ?_⟩
  simp only [he, List.map_const', List.sum_replicate, hl]
  norm_num

theorem witness_HbuildHencHdec_checks :
    Sel.capacity .qc < { State.reset with clen := 33#32 }.selLen .qc ∧
    Sel.capacity .qe < { State.reset with elen := 65537#32 }.selLen .qe ∧
    (∃ b ∈ (withQC State.reset [7]).src .qc, ((withQC State.reset [7]).entry b).len.toNat = 0) ∧
    1048576 < { State.reset with blen := 1048577#32 }.blen.toNat := by decide +kernel

/-- `CLEN` 0 and 1, and codewords no longer than 32 bits. -/
theorem witness_HbuildCountsTheSymbols :
    ∀ vs ∈ [[], [7]],
      (withQC State.reset vs).selLen .qc ≤ Sel.capacity .qc ∧
      ∀ c ∈ codewordsOf (countBytes ((withQC State.reset vs).src .qc)), c.2.1 ≤ 32 := by decide +kernel

theorem witness_HbuildFollowsTheMergeRule :
    let s := withQC State.reset [0x0100, 0x0302]
    s.selLen .qc ≤ Sel.capacity .qc ∧ (∀ c ∈ codewordsOf (countBytes (s.src .qc)), c.2.1 ≤ 32) ∧
      2 ≤ (s.src .qc).toFinset.card := by decide +kernel

/-- Two symbols that both have a codeword, after HBUILD completed with code 0. -/
theorem witness_HbuildCodesArePrefixFree :
    let t := after (.hbuild 0#2) (withQC State.reset [0x0100, 0x0302])
    t.errByte = 0 ∧ (t.entry 0#8).len ≠ 0#6 ∧ (t.entry 3#8).len ≠ 0#6 := by decide +kernel

theorem witness_CodeTooLongCannotOccur :
    { State.reset with clen := 32#32 }.selLen .qc ≤ Sel.capacity .qc ∧
      { State.reset with elen := 65536#32 }.selLen .qe ≤ Sel.capacity .qe := by decide +kernel

theorem witness_HencWritesTheStream :
    let s := withTable (withQE State.reset [1, 1, 1, 2, 2])
    s.selLen .qe ≤ Sel.capacity .qe ∧
    (∀ b ∈ s.src .qe, 1 ≤ (s.entry b).len.toNat ∧ (s.entry b).len.toNat ≤ 32) ∧
    ((s.src .qe).map fun b => (s.entry b).len.toNat).sum ≤ 1048576 := by decide +kernel

/-- `BLEN` at its greatest, for HDEC and both forms of ERASE. -/
theorem witness_HdecDecodesTheStream :
    Sel.ofField 0#2 = some .qc ∧ { State.reset with blen := 1048576#32 }.blen.toNat ≤ 1048576 := by decide +kernel

/-- The branch DestOverflow: 65 symbols against the 64 bytes of QC (V43.16). -/
theorem witness_HdecDecodesTheStream_overflow :
    let s := withBS (withTable State.reset) (List.replicate 65 false)
    s.blen.toNat ≤ 1048576 ∧ 2 * Sel.capacity .qc < s.parsed.units.length ∧
      (after (.hdec 0#2) s).result = 9#32 := by decide +kernel

/-- The branch IncompleteCodeword: a rest that is not empty (V43.8). -/
theorem witness_HdecDecodesTheStream_incomplete :
    let s := withBS (withTable State.reset) (stream1.take 13)
    s.blen.toNat ≤ 1048576 ∧ s.parsed.units.length = 8 ∧ s.parsed.rest = [true] ∧
      (after (.hdec 1#2) s).result = 0x00200003#32 := by decide +kernel

/-- The branch without an error: the whole stream is codewords. -/
theorem witness_HdecDecodesTheStream_ok :
    let s := withBS (withTable State.reset) stream1
    s.blen.toNat ≤ 1048576 ∧ s.parsed.units.length = 10 ∧ s.parsed.rest = [] ∧
      (after (.hdec 1#2) s).result = 0#32 := by decide +kernel

theorem witness_EntropyCodingIsLossless :
    let s := withQC State.reset [0x0707]
    (after (.hbuild 0#2) s).errByte = 0 ∧ (after (.henc 0#2) (after (.hbuild 0#2) s)).errByte = 0 := by decide +kernel

theorem witness_EraseBitKeepsByDraw :
    { State.reset with blen := 1048576#32 }.blen.toNat ≤ 1048576 ∧ (withBS State.reset stream1).blen.toNat ≤ 1048576 := by
  decide +kernel

theorem witness_EraseCodewordKeepsByDraw :
    (withBS (withTable State.reset) stream1).blen.toNat ≤ 1048576 ∧
      (withBS (withTable State.reset) stream1).parsed.units.length = 10 := by decide +kernel

theorem witness_EraseAtTheEndsOfTheLossRate :
    let s := withBS State.reset stream1
    s.blen.toNat ≤ 1048576 ∧ { s with lossT := 0#32 }.lossT = 0#32 ∧
      (after (.erase 0#1) { s with lossT := 65536#32 }).blen = 0#32 := by decide +kernel

theorem witness_EraseFidel_checks :
    1048576 < { State.reset with blen := 1048577#32 }.blen.toNat ∧
    65536 < { State.reset with ylen := 65537#32 }.ylen.toNat ∧ 65536 < { State.reset with len := 65537#32 }.len.toNat ∧
    ({ State.reset with len := 65536#32 }.len.toNat ≤ 65536 ∧
      { State.reset with len := 65536#32 }.len ≠ { State.reset with len := 65536#32 }.ylen) := by decide +kernel

theorem witness_FidelSumsTheEnergies :
    let s := { State.reset with len := 65536#32, ylen := 65536#32 }
    let u := { State.reset with len := 5#32, ylen := 65536#32 }
    (s.len.toNat ≤ 65536 ∧ s.ylen.toNat ≤ 65536 ∧ s.len = s.ylen) ∧
      (u.len.toNat ≤ 65536 ∧ u.ylen.toNat ≤ 65536 ∧ u.len ≠ u.ylen) := by decide +kernel

theorem witness_AddressMapIsTheTable :
    Loc.ofAddr 0x4C1 = .rHi 32 ∧ Loc.ofAddr 0x4C2 = .unmapped ∧ Loc.ofAddr 0x47FFF = .bsWord 32767 ∧
      Loc.ofAddr 0x48000 = .unmapped := by decide +kernel

theorem witness_BusWriteThenRead :
    State.reset.busy = false ∧ 0x100 ≤ (0x100#19).toNat ∧ 0x100 ≤ (0x7FFFF#19).toNat := by decide +kernel

theorem witness_IdleReadChangesNothing : State.reset.busy = false := by decide

theorem witness_StreamBitsAreMostSignificantFirst :
    State.reset.busy = false ∧ 32767 < 32768 ∧ 1048575 < 1048576 ∧
      (busWrite State.reset 0x47FFF#19 1#32).mem.streamBit 1048575 = true := by decide +kernel

theorem witness_RegisterWritesHaveTheirEffects : State.reset.busy = false ∧ (0xFFFFFFFE#32).getLsbD 0 = false := by
  decide

theorem witness_ReadOnlyWritesAreIgnored :
    (0x34#19).toNat ∈ readOnlyAddrs ∧ (0x00#19).toNat ∈ readOnlyAddrs := by decide

theorem witness_UnmappedAddressesReadZero :
    State.reset.busy = false ∧ holdsNothing (0x0F#19).toNat ∧ holdsNothing (0x7FFFF#19).toNat := by
  refine ⟨rfl, .inl (by decide), ?_⟩
  simp [holdsNothing]

theorem witness_BusyAccessesAreRefused :
    (inWindow State.reset 1#32 1 []).busy = true ∧
      ((0x0A#19).toNat ∉ [0x02, 0x06, 0x07, 0x08] ∧ (0x0A#19).toNat ∉ readOnlyAddrs) := by decide +kernel

theorem witness_WaitHoldsWhileBusy :
    ({ State.reset with script := [.wait] }.script = .wait :: [] ∧ State.reset.busy = false) ∧
    ((inWindow State.reset 0#32 1 [.wait]).script = .wait :: [] ∧ (inWindow State.reset 0#32 1 [.wait]).busy = true ∧
      (inWindow State.reset 0#32 1 [.wait]).windowLeft ≠ 0) := by decide +kernel

theorem witness_RegistersAfterAnyReset : ∃ s', performReset (withX [1, 2]) = performReset s' := ⟨_, rfl⟩

theorem witness_ResetOfAnIdleBlockKeepsTheBuffers :
    State.reset.busy = false ∧ (0x1#32).getLsbD 0 = true ∧
      { State.reset with script := [.hardReset] }.script = .hardReset :: [] ∧
      { State.reset with script := [.write 0x02#19 0xFFFFFFFF#32] }.script = .write 0x02#19 0xFFFFFFFF#32 :: [] := by
  decide +kernel

theorem witness_ResetAbandonsThePendingCommand :
    let s := inWindow (withX [1, 2]) 5#32 1 [.hardReset]
    let u := inWindow (withX [1, 2]) 5#32 1 [.write 0x02#19 1#32]
    (s.busy = true ∧ s.windowLeft ≠ 0 ∧ s.script = .hardReset :: []) ∧
      (u.busy = true ∧ u.windowLeft ≠ 0 ∧ u.script = .write 0x02#19 1#32 :: [] ∧ (1#32).getLsbD 0 = true) := by
  decide +kernel

/-- A stream that is one whole codeword, "0", with `LOSS_T` 65536. -/
theorem witness_EraseAtTheEndsOfTheLossRate_codewords :
    let s := withBS (withTable { State.reset with lossT := 65536#32 }) [false]
    s.blen.toNat ≤ 1048576 ∧ s.lossT = 65536#32 ∧ s.Parses (s.stream s.blen.toNat) [(0#8, [false])] [] := by
  have noCode : ∀ s : State, ∀ c, ¬ s.IsCodeword c [] := fun _ _ h => absurd h.1 (by decide)
  refine ⟨by decide +kernel, rfl, by decide +kernel, ?_, fun w hw c => ?_⟩
  · intro u hu
    obtain rfl := List.mem_singleton.mp hu
    refine ⟨⟨?_, fun c hc => absurd hc (Nat.not_lt_zero _)⟩, fun w hw hne c => ?_⟩
    · unfold State.IsCodeword
      decide +kernel
    · have hlen := hw.length_le
      obtain rfl : w = [] := by
        by_contra h
        exact hne (hw.eq_of_length (by have := List.length_pos_iff.mpr h; simp at hlen ⊢; omega))
      exact noCode _ c
  · obtain rfl := List.prefix_nil.mp hw
    exact noCode _ c

/-- An idle block, and a block in the window of a command, each before a write and before a read. -/
theorem witness_HostAccessesAreStepsOfTheBus :
    let idle := { State.reset with script := [wr (.x 3) 7#32, rd (.x 3)] }
    let busy := inWindow State.reset 0#32 2 [rd (.reg .status)]
    (idle.busy = false ∧ idle.script = .write 0x10003#19 7#32 :: [rd (.x 3)]) ∧
      (busy.windowLeft ≠ 0 ∧ busy.script = .read 0x04#19 :: []) ∧
      State.reset.busy = false ∧ State.reset.script = [] := by decide +kernel

/-- V46.6: a write to X and its read, as two steps of an idle block. -/
theorem test_host_write_then_read :
    (stepped (stepped { State.reset with script := [wr (.x 3) 0x0001FFFF#32, rd (.x 3)] })).reads = [0xFFFFFFFF#32] := by
  decide +kernel

theorem witness_ControlRegistersReadTheirContents : State.reset.busy = false := rfl

/-- V46.6: `R[1]` = -40 in two words. -/
theorem witness_FilesAndBuffersReadTheirElements :
    (withR [0, -40] 1#32).busy = false ∧ (busRead (withR [0, -40] 1#32) 0x482#19).1 = 0xFFFFFFD8#32 ∧
      (busRead (withR [0, -40] 1#32) 0x483#19).1 = 0xFFFFFFFF#32 := by decide +kernel

/-- A single symbol: one bit a byte. -/
theorem witness_HencAfterHbuildCannotRaise :
    let s := withQC State.reset [0x0707]
    Sel.ofField 0#2 = some .qc ∧ (after (.hbuild 0#2) s).errByte = 0 ∧ (s.src .qc).toFinset.card = 1 ∧
      (after (.henc 0#2) (after (.hbuild 0#2) s)).blen = 2#32 := by decide +kernel

end Sys2Proof.Tests
end

section
/-! SUPPORT. The roundings as floors over the rationals (00_scope R13, R14). -/

namespace Sys2Proof.Machine

/-- The model's integer division is the rule's floor (00_scope R13); at `n = 0`, outside the rule's domain, too. -/
theorem rshr_eq_floor (x : Int) (n : Nat) : rshr x n = ⌊((x : ℚ) + 2 ^ (n - 1)) / 2 ^ n⌋ := by
  have h := Int.floor_div_cast_of_nonneg (k := ℚ) (n := 2 ^ n) (by positivity) ((x + 2 ^ (n - 1) : Int) : ℚ)
  rw [Int.floor_intCast] at h
  push_cast at h
  exact h.symm

/-- The model's integer division is the rule's floor (00_scope R14). -/
theorem rdiv_eq_floor {d : Int} (hd : 0 < d) (n : Int) : rdiv n d = ⌊(2 * (n : ℚ) + d) / (2 * d)⌋ := by
  have h := Int.floor_div_cast_of_nonneg (k := ℚ) (n := 2 * d) (by omega) ((2 * n + d : Int) : ℚ)
  rw [Int.floor_intCast] at h
  push_cast at h
  exact h.symm

end Sys2Proof.Machine
end

section
/-! SUPPORT. When the host moves, and what its move is (00_scope R6, 20_memory R92, R93, 30_encoding R129). -/

namespace Sys2Proof.Machine

/-- The host moves when nothing is pending, or inside the busy window while its list lasts. -/
theorem engineTurn_eq_false_iff (s : State) :
    engineTurn s = false ↔ s.busy = false ∨ (s.windowLeft ≠ 0 ∧ s.script ≠ []) := by
  cases hb : s.busy <;> simp [engineTurn, hb]

theorem step_of_hostTurn {s : State} (h : engineTurn s = false) : step s = .next (hostTurn s) := by
  simp [step, h]

theorem hostTurn_nil {s : State} (h : s.script = []) : hostTurn s = s := by
  simp [hostTurn, h]

/-- An item other than WAIT is taken off the list and performed, in the busy window as on an idle block. -/
theorem hostTurn_cons {s : State} {op : HostOp} {ops : List HostOp} (h : s.script = op :: ops) (hop : op ≠ .wait) :
    hostTurn s = hostEffect { s with script := ops, windowLeft := s.windowLeft - 1 } op := by
  simp [hostTurn, h, hop]

/-- A step in which the host moves performs the item at the head of its list. -/
theorem step_hostOp {s : State} {op : HostOp} {ops : List HostOp} (hs : s.busy = false ∨ s.windowLeft ≠ 0)
    (h : s.script = op :: ops) (hop : op ≠ .wait) :
    step s = .next (hostEffect { s with script := ops, windowLeft := s.windowLeft - 1 } op) := by
  have hturn : engineTurn s = false :=
    (engineTurn_eq_false_iff s).2 (hs.imp_right fun hw => ⟨hw, by simp [h]⟩)
  rw [step_of_hostTurn hturn, hostTurn_cons h hop]

/-- A bus read, done or refused, leaves the host's record as it is: the step adds the word to it. -/
@[simp] theorem busRead_reads (s : State) (a : Addr) : (busRead s a).2.reads = s.reads := by
  obtain ⟨h, -⟩ | ⟨h, -⟩ := busRead_cases s a
  · rw [h]
  · rw [h, refuse_reads]

end Sys2Proof.Machine
end

section
/-! CERTIFICATE. The statements about the roundings and about the host's accesses. -/

namespace Sys2Proof.Proofs
open Sys2Proof Sys2Proof.Machine

/-- Settles O23: each rounding's integer division is the floor of the rational quotient. -/
theorem roundingsAreTheFloorsOfTheRules : Obligations.RoundingsAreTheFloorsOfTheRules :=
  ⟨fun x n _ => rshr_eq_floor x n, fun n _ hd => rdiv_eq_floor hd n⟩

/-- Settles O54: the host's move is the head of its list, which is a bus access, or nothing when the list is empty. -/
theorem hostAccessesAreStepsOfTheBus : Obligations.HostAccessesAreStepsOfTheBus := by
  intro s a v ops r
  refine ⟨fun hs h => ?write, fun hs h => ?read, fun hb h => ?nothingLeft⟩
  case write => exact step_hostOp hs h (by simp)
  case read =>
    rw [step_hostOp hs h (by simp), hostEffect, busRead_reads]
  case nothingLeft =>
    rw [step_of_hostTurn ((engineTurn_eq_false_iff s).2 (.inl hb)), hostTurn_nil h]

end Sys2Proof.Proofs
end

section
/-! SUPPORT. The frame of every command: which fields it writes, and the buffer it stores to (10_state R67, 20_memory
R94). -/

namespace Sys2Proof.Machine

/-- The new memory differs from the old one only in the words of a range, and is canonical when the old one is. -/
structure Memory.StoresIn (range : Option (Nat × Nat)) (old new : Memory) : Prop where
  wf : old.wf → new.wf
  outside : ∀ k, (∀ lo hi, range = some (lo, hi) → ¬ (lo ≤ k / 4 ∧ k / 4 < hi)) → new.byteAt k = old.byteAt k

theorem Memory.StoresIn.refl (range : Option (Nat × Nat)) (m : Memory) : Memory.StoresIn range m m :=
  ⟨id, fun _ _ => rfl⟩

/-- Elements stored at consecutive addresses of X, QE or Y stay in a range that holds them. -/
theorem Memory.storesIn_setHalves (m : Memory) {base hi : Nat} {vs : List Half} (hx : xBase ≤ base)
    (hlen : base + vs.length ≤ hi) (hbs : hi ≤ bsBase) :
    Memory.StoresIn (some (base, hi)) m (m.setHalves base vs) where
  wf h := Memory.wf_setHalves h hx (by omega)
  outside k hk := by
    have hout := hk base hi rfl
    exact Memory.byteAt_setHalves_of_outside vs m base k fun n hn => by omega

/-- A stream within the capacity stays in BS. -/
theorem storesIn_storeBits (m : Memory) {bits : List Bool} (h : bits.length ≤ Config.bsmax) :
    Memory.StoresIn (some (bsBase, bsBase + 0x8000)) m (storeBits m bits) where
  wf hm := storeBits_wf hm h
  outside k hk := by
    have hout := hk bsBase (bsBase + 0x8000) rfl
    have hwords : streamWords bits.length ≤ 0x8000 := by
      simp only [streamWords, Config.bsmax] at h ⊢
      omega
    exact byteAt_storeBits_of_outside m bits (by omega)

/-- `s` with the fields that the command's line of the table lists taken from `u` (10_state R67); the completion
bookkeeping comes on top. -/
def written (s u : State) : Instr → State
  | .nop => s
  | .acorr => { s with r := u.r }
  | .levd => { s with a := u.a, rsh := u.rsh, efin := u.efin, ldord := u.ldord }
  | .qcoef => { s with qc := u.qc, clen := u.clen, qovf := u.qovf }
  | .dqcoef => { s with a := u.a }
  | .analyze => { s with mem := u.mem, elen := u.elen, qovf := u.qovf }
  | .synth => { s with mem := u.mem, ylen := u.ylen, ysat := u.ysat }
  | .hbuild _ => { s with freq := u.freq, ct := u.ct, nsym := u.nsym }
  | .henc _ => { s with mem := u.mem, blen := u.blen, symcount := u.symcount }
  | .hdec sel =>
    if sel = 0#2 then { s with qc := u.qc, clen := u.clen, dcount := u.dcount, lossev := u.lossev }
    else { s with mem := u.mem, elen := u.elen, dcount := u.dcount, lossev := u.lossev }
  | .erase _ => { s with mem := u.mem, blen := u.blen, rng := u.rng, dropcnt := u.dropcnt, freeCount := u.freeCount }
  | .fidel _ => { s with es := u.es, en := u.en, flen := u.flen }

theorem written_hdec_qc (s u : State) :
    written s u (.hdec 0#2) = { s with qc := u.qc, clen := u.clen, dcount := u.dcount, lossev := u.lossev } := rfl

theorem written_hdec_of_ne (s u : State) {sel : BitVec 2} (h : sel ≠ 0#2) :
    written s u (.hdec sel) = { s with mem := u.mem, elen := u.elen, dcount := u.dcount, lossev := u.lossev } :=
  if_neg h

/-- A command may leave every field of its line as it was. -/
theorem written_self (s : State) (i : Instr) : written s s i = s := by
  cases i with
  | hdec sel => exact ite_self s
  | _ => rfl

/-- No command writes LOSS_T or IE, nor STICKY and IP but by the bookkeeping. -/
theorem written_keeps (s u : State) (i : Instr) :
    (written s u i).lossT = s.lossT ∧ (written s u i).sticky = s.sticky ∧ (written s u i).ie = s.ie ∧
      (written s u i).ip = s.ip := by
  cases i with
  | hdec sel => rw [written]; split <;> exact ⟨rfl, rfl, rfl, rfl⟩
  | _ => exact ⟨rfl, rfl, rfl, rfl⟩

/-- A command's work ends in the bookkeeping: before it, only the fields of the command's line were written and only
its buffer was stored to, and BUSERR is not among the flags (46_system R305, 10_state R67). -/
def Completes (i : Instr) (s : State) (o : Host.Outcome State Fault Refusal) : Prop :=
  ∃ u e fs, o = .next (complete u e fs) ∧ Flag.busErr ∉ fs ∧ u = written s u i ∧
    Memory.StoresIn (storeRange i) s.mem u.mem

/-- Completing from the state as it was. -/
theorem completes_unwritten (i : Instr) (s : State) (e : ErrCode) {fs : List Flag} (hfs : Flag.busErr ∉ fs) :
    Completes i s (.next (complete s e fs)) :=
  ⟨s, e, fs, rfl, hfs, (written_self s i).symm, .refl _ _⟩

/-- A code raised is such an end (60_exceptions R320). -/
theorem completes_raise (i : Instr) (s : State) (e : ErrCode) : Completes i s (.next (raise s e)) :=
  completes_unwritten i s e List.not_mem_nil

/-- A command that stores nothing and completes from a state whose memory is the old one. -/
theorem completes_of_mem_eq {i : Instr} {s u : State} (e : ErrCode) {fs : List Flag} (hfs : Flag.busErr ∉ fs)
    (hu : u = written s u i) (hmem : u.mem = s.mem) : Completes i s (.next (complete u e fs)) :=
  ⟨u, e, fs, rfl, hfs, hu, hmem ▸ .refl _ _⟩

theorem busErr_notMem_flagIf {c : Bool} {f : Flag} (h : f ≠ .busErr) : Flag.busErr ∉ flagIf c f := by
  cases c <;> simp [flagIf, h.symm]

theorem execAcorr_completes (s : State) : Completes .acorr s (execAcorr s) := by
  unfold execAcorr
  split
  · exact completes_raise _ s _
  · exact completes_of_mem_eq _ List.not_mem_nil rfl rfl

theorem execLevd_completes (s : State) : Completes .levd s (execLevd s) := by
  unfold execLevd
  split
  · exact completes_raise _ s _
  · split_ifs
    · exact completes_raise _ s _
    · exact completes_of_mem_eq _ (by simp) rfl rfl
    · exact completes_raise _ s _
    · refine completes_of_mem_eq _ ?_ rfl rfl
      simp [busErr_notMem_flagIf]

theorem execQcoef_completes (s : State) : Completes .qcoef s (execQcoef s) := by
  unfold execQcoef
  split
  · exact completes_raise _ s _
  · exact completes_of_mem_eq _ (busErr_notMem_flagIf (by simp)) rfl rfl

theorem execDqcoef_completes (s : State) : Completes .dqcoef s (execDqcoef s) := by
  unfold execDqcoef
  split
  · exact completes_raise _ s _
  · exact completes_of_mem_eq _ (busErr_notMem_flagIf (by simp)) rfl rfl

/-- ANALYZE stores LEN residuals, and its check holds LEN to the capacity of QE. -/
theorem execAnalyze_completes (s : State) : Completes .analyze s (execAnalyze s) := by
  unfold execAnalyze
  split
  · exact completes_raise _ s _
  next hcheck =>
    have hlen := (lengthCheck_eq_none _ _).1 ((firstOf_eq_none _ _).1 hcheck).1
    refine ⟨_, _, _, rfl, busErr_notMem_flagIf (by simp), rfl,
      Memory.storesIn_setHalves _ (by decide) ?_ (by decide)⟩
    simp only [residual, List.length_map, List.length_range]
    exact Nat.add_le_add_left hlen qeBase

/-- SYNTH stores ELEN outputs, and its check holds ELEN to the capacity of Y. -/
theorem execSynth_completes (s : State) : Completes .synth s (execSynth s) := by
  unfold execSynth
  split
  · exact completes_raise _ s _
  next hcheck =>
    have hlen := (lengthCheck_eq_none _ _).1 ((firstOf_eq_none _ _).1 hcheck).1
    refine ⟨_, _, _, rfl, busErr_notMem_flagIf (by simp), rfl,
      Memory.storesIn_setHalves _ (by decide) ?_ (by decide)⟩
    simp only [reconstruction, List.length_map, length_synthLoop, List.length_range]
    exact Nat.add_le_add_left hlen yBase

theorem execHbuild_completes (sel : BitVec 2) (s : State) : Completes (.hbuild sel) s (execHbuild sel s) := by
  unfold execHbuild
  split
  · exact completes_raise _ s _
  · unfold buildTable
    split
    · exact completes_raise _ s _
    · dsimp only
      split_ifs
      · exact completes_raise _ s _
      · exact completes_of_mem_eq _ (busErr_notMem_flagIf (by simp)) rfl rfl

@[simp] theorem length_codeEntry_bits (e : CodeEntry) : e.bits.length = e.len.toNat := by
  simp [CodeEntry.bits]

/-- The length HENC finds before it stores is the length of what it stores (43_entropy R236). -/
theorem length_encodeBytes (s : State) (bs : List Byte) : (encodeBytes s bs).length = encodedLength s bs := by
  simp [encodeBytes, encodedLength, List.length_flatMap]

/-- HENC stores its stream only when the length it found fits BS. -/
theorem execHenc_completes (sel : BitVec 2) (s : State) : Completes (.henc sel) s (execHenc sel s) := by
  unfold execHenc
  split
  · exact completes_raise _ s _
  · unfold encodeArray
    split
    · exact completes_raise _ s _
    · dsimp only
      split_ifs with _ hlong
      · exact completes_raise _ s _
      · exact completes_raise _ s _
      · refine ⟨_, _, _, rfl, List.not_mem_nil, rfl, storesIn_storeBits _ ?_⟩
        rw [length_encodeBytes]
        exact Nat.not_lt.1 hlong

/-- What HDEC commits, whichever code it ends with: the array `sel` names, its length, DCOUNT and LOSSEV; the bytes it
takes fit the array (43_entropy R238, R239). -/
theorem hdec_commits {f : BitVec 2} {sel : Sel} (hf : Sel.ofField f = some sel) (s : State) {out : List Byte}
    (hout : out.length ≤ 2 * sel.capacity) (dcount lossev : Word) (e : ErrCode) {fs : List Flag}
    (hfs : Flag.busErr ∉ fs) :
    Completes (.hdec f) s
      (.next (complete { reassemble s sel out with dcount := dcount, lossev := lossev } e fs)) := by
  unfold Sel.ofField at hf
  split_ifs at hf with h0 h1
  · obtain rfl := Option.some.inj hf
    subst h0
    dsimp only [reassemble]
    exact completes_of_mem_eq _ hfs rfl rfl
  · obtain rfl := Option.some.inj hf
    subst h1
    have hhalves : (halvesOf out).length ≤ Config.nmax := by
      rw [length_halvesOf]
      exact Nat.div_le_of_le_mul hout
    dsimp only [reassemble]
    exact ⟨_, _, _, rfl, hfs, rfl,
      Memory.storesIn_setHalves s.mem (by decide) (Nat.add_le_add_left hhalves qeBase) (by decide)⟩

theorem execHdec_completes (sel : BitVec 2) (s : State) : Completes (.hdec sel) s (execHdec sel s) := by
  unfold execHdec
  split
  · exact completes_raise _ s _
  next v hv =>
    unfold decodeArray
    split
    · exact completes_raise _ s _
    · have hout := List.length_take_le (2 * v.capacity) (s.parsed.units.map Prod.fst)
      dsimp only
      split_ifs
      · exact hdec_commits hv s hout _ _ _ List.not_mem_nil
      · exact hdec_commits hv s hout _ _ _ (by simp)
      · exact hdec_commits hv s hout _ _ _ List.not_mem_nil

@[simp] theorem length_stream (s : State) (n : Nat) : (s.stream n).length = n := by
  simp [State.stream]

/-- The units of the parsed stream and its rest have BLEN bits in all. -/
theorem length_parsed (s : State) :
    ((s.parsed.units.map Prod.snd).map List.length).sum + s.parsed.rest.length = s.blen.toNat := by
  have h := congrArg List.length (parseStream_bits s.ct.toList (s.stream s.blen.toNat) 0 0 [])
  simpa [State.parsed, List.length_flatMap, Function.comp_def] using h

/-- What ERASE keeps is stored; it fits BS when it is no longer than the stream there was. -/
theorem storeErased_completes (g : BitVec 1) (s : State) (d : Erased) {kept : List Bool}
    (h : kept.length ≤ Config.bsmax) : Completes (.erase g) s (.next (complete (storeErased s d kept) .ok [])) :=
  ⟨_, _, _, rfl, List.not_mem_nil, rfl, storesIn_storeBits _ h⟩

theorem execErase_completes (g : BitVec 1) (s : State) : Completes (.erase g) s (execErase g s) := by
  unfold execErase
  split
  · exact completes_raise _ s _
  next hcheck =>
    have hlen := (lengthCheck_eq_none _ _).1 hcheck
    split
    · have hkept := (eraseUnits_length_le s.lossT.toNat ((s.stream s.blen.toNat).map fun b => [b]) s.draws).1
      refine storeErased_completes g s _ (hkept.trans ?_)
      simpa [Function.comp_def] using hlen
    · have hkept := (eraseUnits_length_le s.lossT.toNat (s.parsed.units.map Prod.snd) s.draws).1
      have hparsed := length_parsed s
      refine storeErased_completes g s _ ?_
      rw [List.length_append]
      omega

theorem storeEnergies_completes (t : BitVec 1) (s : State) (n : Nat) {fs : List Flag} (hfs : Flag.busErr ∉ fs) :
    Completes (.fidel t) s (.next (storeEnergies s n fs)) := by
  refine completes_of_mem_eq _ ?_ rfl rfl
  simp [hfs, busErr_notMem_flagIf]

theorem execFidel_completes (t : BitVec 1) (s : State) : Completes (.fidel t) s (execFidel t s) := by
  unfold execFidel
  split
  · exact completes_raise _ s _
  · split_ifs
    · exact storeEnergies_completes t s _ List.not_mem_nil
    · exact completes_raise _ s _
    · exact storeEnergies_completes t s _ (by simp)

/-- Every command, from every state, ends in the bookkeeping and keeps to its frame (46_system R305, 10_state R67). -/
theorem exec_completes (i : Instr) (s : State) : Completes i s (exec i s) := by
  cases i with
  | nop => exact completes_unwritten _ s .ok List.not_mem_nil
  | acorr => exact execAcorr_completes s
  | levd => exact execLevd_completes s
  | qcoef => exact execQcoef_completes s
  | dqcoef => exact execDqcoef_completes s
  | analyze => exact execAnalyze_completes s
  | synth => exact execSynth_completes s
  | hbuild sel => exact execHbuild_completes sel s
  | henc sel => exact execHenc_completes sel s
  | hdec sel => exact execHdec_completes sel s
  | erase g => exact execErase_completes g s
  | fidel t => exact execFidel_completes t s

/-- The inversion of `exec`: what its next state is made of. -/
theorem exec_cases {i : Instr} {s t : State} (h : exec i s = .next t) :
    ∃ u e fs, t = complete u e fs ∧ Flag.busErr ∉ fs ∧ u = written s u i ∧
      Memory.StoresIn (storeRange i) s.mem u.mem := by
  obtain ⟨u, e, fs, hexec, hfs, hu, hmem⟩ := exec_completes i s
  exact ⟨u, e, fs, Host.Outcome.next.inj (h.symm.trans hexec), hfs, hu, hmem⟩

end Sys2Proof.Machine
end

section
/-! SUPPORT. The invariant of the state: what a completion, a reset and a host access keep of it (10_state R44 to R47,
R54, 20_memory R101). -/

namespace Sys2Proof.Machine

/-- A bit that no operand has is in no union. -/
theorem or_and_eq_zero {x y m : Word} (hx : x &&& m = 0#32) (hy : y &&& m = 0#32) : (x ||| y) &&& m = 0#32 := by
  rw [BitVec.and_or_distrib_right, hx, hy, BitVec.or_zero]

/-- Clearing bits sets none. -/
theorem and_and_eq_zero {x m : Word} (y : Word) (hx : x &&& m = 0#32) : (x &&& y) &&& m = 0#32 := by
  rw [BitVec.and_assoc, BitVec.and_comm y, ← BitVec.and_assoc, hx, BitVec.zero_and]

/-- Flags stand in bits 25:16 (10_state R47). -/
theorem flagWord_reserved (fs : List Flag) : flagWord fs &&& 0xFC00FFFF#32 = 0#32 := by
  induction fs with
  | nil => rfl
  | cons f fs ih => exact or_and_eq_zero (by cases f <;> decide) ih

/-- Without BUSERR the flags stand in bits 24:16, the ones RESULT has (10_state R44). -/
theorem flagWord_reserved_of_no_busErr {fs : List Flag} (h : Flag.busErr ∉ fs) :
    flagWord fs &&& 0xFE00FF00#32 = 0#32 := by
  induction fs with
  | nil => rfl
  | cons f fs ih =>
    obtain ⟨hf, hfs⟩ := List.ne_and_not_mem_of_not_mem_cons h
    refine or_and_eq_zero ?_ (ih hfs)
    cases f with
    | busErr => exact absurd rfl hf
    | _ => decide

theorem flagWord_low (fs : List Flag) : (flagWord fs).extractLsb' 0 8 = 0#8 := by
  induction fs with
  | nil => rfl
  | cons f fs ih =>
    have hf : f.mask.extractLsb' 0 8 = 0#8 := by cases f <;> decide
    rw [flagWord, BitVec.extractLsb'_or, hf, ih, BitVec.or_zero]

/-- `RESULT[7:0]` after a completion is its code. -/
@[simp] theorem complete_errByte (s : State) (e : ErrCode) (fs : List Flag) : (complete s e fs).errByte = e.code := by
  rw [State.errByte, complete_result, resultWord, BitVec.extractLsb'_or, flagWord_low, BitVec.or_zero]
  cases e <;> rfl

theorem ErrCode.code_le (e : ErrCode) : e.code ≤ 10 := by
  cases e <;> decide

/-- The bookkeeping gives the invariant to a state that has the parts the bookkeeping does not write; whether RESULT
and DONE were 0 does not matter, as nothing is pending afterwards. -/
theorem inv_complete {u : State} (e : ErrCode) {fs : List Flag} (hfs : Flag.busErr ∉ fs) (hmem : u.mem.wf)
    (hloss : u.lossT.toNat ≤ 65536) (hsticky : u.sticky &&& 0xFC00FFFF#32 = 0#32)
    (hie : u.ie &&& 0xFFFFFFFC#32 = 0#32) (hip : u.ip &&& 0xFFFFFFFC#32 = 0#32) : (complete u e fs).Inv := by
  refine ⟨hmem, hloss, ?result, ?code, ?sticky, hie, ?ip, fun hbusy => nomatch hbusy⟩
  case result => exact or_and_eq_zero (by cases e <;> decide) (flagWord_reserved_of_no_busErr hfs)
  case code => exact (complete_errByte u e fs).trans_le e.code_le
  case sticky =>
    rw [complete_sticky, stickyAfter_resultWord]
    exact or_and_eq_zero hsticky (flagWord_reserved fs)
  case ip => exact or_and_eq_zero hip (by split <;> decide)

/-- A command keeps the invariant: what its frame leaves it the bookkeeping completes. -/
theorem inv_exec {i : Instr} {s t : State} (hs : s.Inv) (h : exec i s = .next t) : t.Inv := by
  obtain ⟨hmem, hloss, -, -, hsticky, hie, hip, -⟩ := hs
  obtain ⟨u, e, fs, rfl, hfs, hu, hstores⟩ := exec_cases h
  have hkeeps := written_keeps s u i
  rw [← hu] at hkeeps
  obtain ⟨hlossU, hstickyU, hieU, hipU⟩ := hkeeps
  rw [← hlossU] at hloss
  rw [← hstickyU] at hsticky
  rw [← hieU] at hie
  rw [← hipU] at hip
  exact inv_complete e hfs (hstores.wf hmem) hloss hsticky hie hip

theorem inv_illegalCommand {s : State} (hs : s.Inv) : (complete s .illegalCommand []).Inv := by
  obtain ⟨hmem, hloss, -, -, hsticky, hie, hip, -⟩ := hs
  exact inv_complete _ List.not_mem_nil hmem hloss hsticky hie hip

theorem inv_runEngine {s t : State} (hs : s.Inv) (h : runEngine s = .next t) : t.Inv := by
  unfold runEngine at h
  split at h
  · exact inv_exec hs h
  · obtain rfl := Host.Outcome.next.inj h
    exact inv_illegalCommand hs

theorem inv_completedState {s : State} (hs : s.Inv) : (completedState s).Inv := by
  unfold completedState
  split
  next t h => exact inv_runEngine hs h
  · exact hs
  · exact hs

/-- The registers at their reset values have the invariant over any canonical memory. -/
theorem inv_resetRegisters (s : State) {m : Memory} (hm : m.wf) : (resetRegisters s m).Inv :=
  ⟨hm, (by decide : State.reset.lossT.toNat ≤ 65536), BitVec.zero_and, Nat.zero_le 10, BitVec.zero_and,
    BitVec.zero_and, BitVec.zero_and, fun hbusy => nomatch hbusy⟩

/-- A reset keeps the invariant: the mixture that an abandoned command leaves is canonical because the memory of the
completed command is. -/
theorem inv_performReset {s : State} (hs : s.Inv) : (performReset s).Inv := by
  unfold performReset
  split
  · obtain ⟨hmem, -⟩ := inv_completedState hs
    exact inv_resetRegisters _ (mixMemory_wf hmem)
  · obtain ⟨hmem, -⟩ := hs
    exact inv_resetRegisters _ hmem

theorem inv_refuse {s : State} (hs : s.Inv) : (refuse s).Inv := by
  obtain ⟨hmem, hloss, hresult, hcode, hsticky, hie, hip, hbusy⟩ := hs
  exact ⟨hmem, hloss, hresult, hcode, or_and_eq_zero hsticky (by decide), hie, hip, hbusy⟩

/-- Acceptance clears RESULT and DONE, as a pending command has them (46_system R302). -/
theorem inv_accept {s : State} (w : Word) (hs : s.Inv) : (accept s w).Inv := by
  obtain ⟨hmem, hloss, -, -, hsticky, hie, hip, -⟩ := hs
  exact ⟨hmem, hloss, BitVec.zero_and, Nat.zero_le 10, hsticky, hie, hip, fun _ => ⟨rfl, rfl⟩⟩

/-- The registers of the invariant keep their ranges under a write; the other registers are not of it. -/
theorem inv_writeReg {s : State} (v : Word) (r : CtrlReg) (hs : s.Inv) : (writeReg s v r).Inv := by
  have ⟨hmem, hloss, hresult, hcode, hsticky, hie, hip, hbusy⟩ := hs
  cases r with
  | ctrl =>
    rw [writeReg]
    split
    · exact inv_performReset hs
    · exact hs
  | cmd => exact inv_accept v hs
  | sticky => exact ⟨hmem, hloss, hresult, hcode, and_and_eq_zero _ hsticky, hie, hip, hbusy⟩
  | ie =>
    have hmask : (v &&& 0x3#32) &&& 0xFFFFFFFC#32 = 0#32 := by
      rw [BitVec.and_assoc]
      exact BitVec.and_zero
    exact ⟨hmem, hloss, hresult, hcode, hsticky, hmask, hip, hbusy⟩
  | ip => exact ⟨hmem, hloss, hresult, hcode, hsticky, hie, and_and_eq_zero _ hip, hbusy⟩
  | lossT =>
    have hclamp : (if v.toNat > 65536 then 65536#32 else v).toNat ≤ 65536 := by
      split
      · decide
      · omega
    exact ⟨hmem, hclamp, hresult, hcode, hsticky, hie, hip, hbusy⟩
  | _ => exact hs

/-- The buffer locations within their capacities (20_memory R94). -/
def Loc.inBuffer : Loc → Prop
  | .x i => i < 65536
  | .qe i => i < 65536
  | .y i => i < 65536
  | .bsWord j => j < 0x8000
  | _ => True

theorem Loc.inBuffer_ite {c : Prop} [Decidable c] {l l' : Loc} (h : c → l.inBuffer) (h' : ¬ c → l'.inBuffer) :
    (if c then l else l').inBuffer := by
  split
  next hc => exact h hc
  next hc => exact h' hc

/-- The address map never leaves a buffer: each buffer's branch starts at its base and ends at the next. -/
theorem Loc.ofAddr_inBuffer (n : Nat) : (Loc.ofAddr n).inBuffer := by
  unfold Loc.ofAddr
  refine inBuffer_ite (fun _ => ?control) fun _ => inBuffer_ite (fun _ => trivial) fun _ =>
    inBuffer_ite (fun _ => inBuffer_ite (fun _ => trivial) fun _ => trivial) fun _ =>
    inBuffer_ite (fun _ => trivial) fun _ => inBuffer_ite (fun _ => trivial) fun _ =>
    inBuffer_ite (fun _ => trivial) fun _ => inBuffer_ite (fun _ => trivial) fun _ =>
    inBuffer_ite (fun _ => inBuffer_ite (fun _ => trivial) fun _ => trivial) fun _ =>
    inBuffer_ite (fun _ => trivial) fun hx => inBuffer_ite (fun hqe => ?x) fun hqe =>
    inBuffer_ite (fun hy => ?qe) fun hy => inBuffer_ite (fun hbs => ?y) fun hbs =>
    inBuffer_ite (fun hend => ?bs) fun _ => trivial
  case control => split <;> trivial
  case x => exact Nat.sub_lt_left_of_lt_add (Nat.not_lt.1 hx) hqe
  case qe => exact Nat.sub_lt_left_of_lt_add (Nat.not_lt.1 hqe) hy
  case y => exact Nat.sub_lt_left_of_lt_add (Nat.not_lt.1 hy) hbs
  case bs => exact Nat.sub_lt_left_of_lt_add (Nat.not_lt.1 hbs) hend

theorem halfAddr_add {base i : Nat} (hlo : xBase ≤ base) (hhi : base + 65536 ≤ bsBase) (h : i < 65536) :
    halfAddr (base + i) :=
  ⟨by omega, by omega⟩

theorem inv_setMem {s : State} {m : Memory} (hs : s.Inv) (hm : m.wf) : State.Inv { s with mem := m } := by
  obtain ⟨-, hrest⟩ := hs
  exact ⟨hm, hrest⟩

theorem inv_writeLoc {s : State} (v : Word) {l : Loc} (hl : l.inBuffer) (hs : s.Inv) : (writeLoc s v l).Inv := by
  have ⟨hmem, _⟩ := hs
  cases l with
  | reg r => exact inv_writeReg v r hs
  | x i =>
    exact inv_setMem hs (Memory.wf_setHalf _ hmem (halfAddr_add (by decide) (by decide) hl))
  | qe i =>
    exact inv_setMem hs (Memory.wf_setHalf _ hmem (halfAddr_add (by decide) (by decide) hl))
  | y i =>
    exact inv_setMem hs (Memory.wf_setHalf _ hmem (halfAddr_add (by decide) (by decide) hl))
  | bsWord j =>
    exact inv_setMem hs (Memory.wf_setWord _ hmem ⟨Nat.le_add_right _ _, Nat.add_lt_add_left hl _⟩)
  | _ => exact hs

theorem inv_busWrite {s : State} (a : Addr) (v : Word) (hs : s.Inv) : (busWrite s a v).Inv := by
  obtain ⟨h, -⟩ | ⟨h, -⟩ := busWrite_cases s a v <;> rw [h]
  · exact inv_writeLoc v (Loc.ofAddr_inBuffer _) hs
  · exact inv_refuse hs

theorem inv_busRead {s : State} (a : Addr) (hs : s.Inv) : (busRead s a).2.Inv := by
  obtain ⟨h, -⟩ | ⟨h, -⟩ := busRead_cases s a <;> rw [h]
  · exact hs
  · exact inv_refuse hs

theorem inv_hostEffect {s : State} (op : HostOp) (hs : s.Inv) : (hostEffect s op).Inv := by
  cases op with
  | write a v => exact inv_busWrite a v hs
  | read a => exact inv_busRead a hs
  | wait => exact hs
  | hardReset => exact inv_performReset hs

/-- The host's turn keeps the invariant; its list and the window count are not of it. -/
theorem inv_hostTurn {s : State} (hs : s.Inv) : (hostTurn s).Inv := by
  obtain ⟨-, h⟩ | ⟨-, -, -, h⟩ | ⟨op, ops, -, -, h⟩ := hostTurn_cases s <;> rw [h]
  · exact hs
  · exact hs
  · exact inv_hostEffect op hs

end Sys2Proof.Machine
end

section
/-! SUPPORT. The control registers on the bus: the address of each leads to it, on an idle block always, in the busy
window for reads of 0x00 to 0x0F (10_state R65, 20_memory R101). -/

namespace Sys2Proof.Machine

/-- No two control registers share an address. -/
theorem Loc.ofAddr_reg (r : CtrlReg) : Loc.ofAddr r.addr = .reg r := by
  cases r <;> rfl

theorem busWrite_reg {s : State} {a : Addr} {r : CtrlReg} (hb : s.busy = false) (ha : a.toNat = r.addr) (v : Word) :
    busWrite s a v = writeReg s v r := by
  obtain ⟨h, -⟩ | ⟨-, hbusy⟩ := busWrite_cases s a v
  · rw [h, ha, Loc.ofAddr_reg, writeLoc]
  · exact absurd hbusy (by simp [hb])

theorem busRead_reg {s : State} {a : Addr} {r : CtrlReg} (hallowed : readAllowed s.busy a = true)
    (ha : a.toNat = r.addr) : busRead s a = (readReg s r, s) := by
  rw [busRead, if_pos hallowed, ha, Loc.ofAddr_reg, readLoc]

theorem busRead_reg_of_idle {s : State} {a : Addr} {r : CtrlReg} (hb : s.busy = false) (ha : a.toNat = r.addr) :
    busRead s a = (readReg s r, s) :=
  busRead_reg (by simp [readAllowed, hb]) ha

theorem busRead_reg_of_low {a : Addr} {r : CtrlReg} (s : State) (hr : r.addr ≤ 0x0F) (ha : a.toNat = r.addr) :
    busRead s a = (readReg s r, s) :=
  busRead_reg (by simp [readAllowed, ha, hr]) ha

/-- The clamp of a LOSS_T write is a minimum (10_state R54). -/
theorem clamp_eq_ofNat_min (v : Word) (n : Nat) :
    (if v.toNat > n then BitVec.ofNat 32 n else v) = BitVec.ofNat 32 (min v.toNat n) := by
  split
  next h => rw [Nat.min_eq_right h.le]
  next h => rw [Nat.min_eq_left (Nat.not_lt.1 h), BitVec.ofNat_toNat, BitVec.setWidth_eq]

theorem lowWord_eq (x : BitVec 64) : x.extractLsb' 0 32 = BitVec.ofNat 32 x.toNat := rfl

theorem highWord_eq (x : BitVec 64) : x.extractLsb' 32 32 = BitVec.ofNat 32 (x.toNat / 2 ^ 32) :=
  congrArg (BitVec.ofNat 32) (Nat.shiftRight_eq_div_pow x.toNat 32)

end Sys2Proof.Machine
end

section
/-! CERTIFICATE. The statements about the state: its invariant, the frames of the commands, the control registers. -/

namespace Sys2Proof.Proofs
open Sys2Proof Sys2Proof.Machine

/-- Settles O14: the engine's step is a command or the illegal one, and the host's is one access. -/
theorem everyStepKeepsTheInvariant : Obligations.EveryStepKeepsTheInvariant := by
  intro s t hs h
  obtain ⟨i, -, -, hexec⟩ | ⟨r, -, -, rfl⟩ | ⟨-, rfl⟩ := step_cases h
  · exact inv_exec hs hexec
  · exact inv_illegalCommand hs
  · exact inv_hostTurn hs

/-- Settles O13: the state that each command completes is `written`, and the bookkeeping is the completion's. -/
theorem commandsWriteOnlyWhatTheTableLists : Obligations.CommandsWriteOnlyWhatTheTableLists := by
  intro i s t h
  obtain ⟨u, e, fs, rfl, -, hu, hstores⟩ := exec_cases h
  refine ⟨?fields, hstores.outside⟩
  case fields =>
    cases i with
    | hdec sel =>
      dsimp only
      split
      next hsel =>
        subst hsel
        rw [written_hdec_qc] at hu
        rw [hu]
        rfl
      next hsel =>
        rw [written_hdec_of_ne s u hsel] at hu
        rw [hu]
        rfl
    | _ => rw [hu]; rfl

/-- Settles O15: the state after reset is a reset over an empty memory, which is canonical. -/
theorem resetHasTheInvariant : Obligations.ResetHasTheInvariant :=
  inv_resetRegisters State.reset (m := []) ⟨List.Pairwise.nil, fun _ h => absurd h List.not_mem_nil⟩

/-- Settles O45: each address leads to its register, whose write is the stated one. -/
theorem registerWritesHaveTheirEffects : Obligations.RegisterWritesHaveTheirEffects := by
  intro s v hb
  have write : ∀ {a : Addr} (r : CtrlReg), a.toNat = r.addr → busWrite s a v = writeReg s v r :=
    fun r ha => busWrite_reg hb ha v
  refine ⟨write .sticky rfl, write .ie rfl, write .ip rfl, write .order rfl, write .len rfl, write .clen rfl,
    write .elen rfl, write .ylen rfl, write .blen rfl, write .symcount rfl, ?lossT, write .rng rfl,
    write .bitrate rfl, write .qovf rfl, write .ysat rfl, write .lossev rfl, fun hbit => ?ctrl⟩
  case lossT => rw [write .lossT rfl, writeReg, clamp_eq_ofNat_min]
  case ctrl => rw [write .ctrl rfl, writeReg, hbit, if_neg Bool.false_ne_true]

/-- Settles O55: each address leads to its register; ES and EN are read as their low and high words. -/
theorem controlRegistersReadTheirContents : Obligations.ControlRegistersReadTheirContents := by
  intro s
  refine ⟨?statusGroup, fun hb => ?idle⟩
  case statusGroup =>
    have read : ∀ {a : Addr} (r : CtrlReg), r.addr ≤ 0x0F → a.toNat = r.addr → busRead s a = (readReg s r, s) :=
      fun r => busRead_reg_of_low s
    exact ⟨read .id (by decide) rfl, read .version (by decide) rfl, read .ctrl (by decide) rfl,
      read .cmd (by decide) rfl, read .status (by decide) rfl, read .result (by decide) rfl,
      read .sticky (by decide) rfl, read .ie (by decide) rfl, read .ip (by decide) rfl,
      read .cmdcnt (by decide) rfl⟩
  case idle =>
    have read : ∀ {a : Addr} (r : CtrlReg), a.toNat = r.addr → busRead s a = (readReg s r, s) :=
      fun r => busRead_reg_of_idle hb
    refine ⟨read .order rfl, read .len rfl, read .clen rfl, read .elen rfl, read .ylen rfl, read .blen rfl,
      read .symcount rfl, read .dcount rfl, read .nsym rfl, read .lossT rfl, read .rng rfl, read .bitrate rfl,
      read .qscale rfl, read .qovf rfl, read .ysat rfl, read .lossev rfl, read .dropcnt rfl, read .rsh rfl,
      read .efin rfl, read .ldord rfl, ?esLo, ?esHi, ?enLo, ?enHi, read .flen rfl⟩
    case esLo => rw [read .esLo rfl, readReg, lowWord_eq]
    case esHi => rw [read .esHi rfl, readReg, highWord_eq]
    case enLo => rw [read .enLo rfl, readReg, lowWord_eq]
    case enHi => rw [read .enHi rfl, readReg, highWord_eq]

end Sys2Proof.Proofs
end

section
/-! SUPPORT. The address map as a relation between locations and word addresses (20_memory R94, R102, 10_state R65). -/

namespace Sys2Proof.Machine

/-- The word addresses of a location, with the range of its index: one address each, but for the location that holds
nothing (20_memory R94, R102; 10_state R65). -/
def Loc.standsAt : Loc → Nat → Prop
  | .reg r, n => n = r.addr
  | .freq b, n => b < 256 ∧ n = 0x100 + b
  | .ctLen b, n => b < 256 ∧ n = 0x200 + 2 * b
  | .ctCode b, n => b < 256 ∧ n = 0x201 + 2 * b
  | .a k, n => (1 ≤ k ∧ k ≤ 32) ∧ n = 0x400 + (k - 1)
  | .qc k, n => (1 ≤ k ∧ k ≤ 32) ∧ n = 0x440 + (k - 1)
  | .rLo k, n => k ≤ 32 ∧ n = 0x480 + 2 * k
  | .rHi k, n => k ≤ 32 ∧ n = 0x481 + 2 * k
  | .x i, n => i < 65536 ∧ n = 0x10000 + i
  | .qe i, n => i < 65536 ∧ n = 0x20000 + i
  | .y i, n => i < 65536 ∧ n = 0x30000 + i
  | .bsWord j, n => j < 32768 ∧ n = 0x40000 + j
  | .unmapped, n => holdsNothing n

theorem Loc.standsAt_ite {c : Prop} [Decidable c] {l l' : Loc} {n : Nat} (h : c → l.standsAt n)
    (h' : ¬ c → l'.standsAt n) : (if c then l else l').standsAt n := by
  split
  next hc => exact h hc
  next hc => exact h' hc

theorem CtrlReg.addr_lt (r : CtrlReg) : r.addr < 0x100 := by
  cases r <;> decide

theorem CtrlReg.not_holdsNothing_addr (r : CtrlReg) : ¬ holdsNothing r.addr := by
  cases r <;> simp [holdsNothing, CtrlReg.addr]

/-- Below 0x100, the addresses that are no register's are the reserved ones (10_state R65). -/
theorem holdsNothing_of_ne_addr {n : Nat} (hn : n < 0x100) (h : ∀ r ∈ CtrlReg.all, r.addr ≠ n) : holdsNothing n := by
  simp only [CtrlReg.all, List.forall_mem_cons, CtrlReg.addr] at h
  simp only [holdsNothing]
  omega

/-- Below 0x100 the map searches the registers for the address. -/
theorem Loc.ofAddr_standsAt_of_lt {n : Nat} (hn : n < 0x100) : (Loc.ofAddr n).standsAt n := by
  rw [Loc.ofAddr, if_pos hn]
  split
  next r hfind =>
    have hr := List.find?_some hfind
    exact (beq_iff_eq.1 hr).symm
  next hfind =>
    exact holdsNothing_of_ne_addr hn fun r hr => by simpa using List.find?_eq_none.1 hfind r hr

/-- The map gives a location that stands at the address: from 0x100 up, branch by branch. -/
theorem Loc.ofAddr_standsAt (n : Nat) : (Loc.ofAddr n).standsAt n := by
  by_cases hn : n < 0x100
  · exact Loc.ofAddr_standsAt_of_lt hn
  have hx : xBase = 0x10000 := rfl
  have hqe : qeBase = 0x20000 := rfl
  have hy : yBase = 0x30000 := rfl
  have hbs : bsBase = 0x40000 := rfl
  rw [Loc.ofAddr, if_neg hn]
  refine standsAt_ite (fun _ => ⟨by omega, by omega⟩) fun _ =>
    standsAt_ite (fun _ => standsAt_ite (fun _ => ⟨by omega, by omega⟩) fun _ => ⟨by omega, by omega⟩) fun _ =>
    standsAt_ite (fun _ => ⟨by omega, by omega⟩) fun _ => standsAt_ite (fun _ => ?afterA) fun _ =>
    standsAt_ite (fun _ => ⟨by omega, by omega⟩) fun _ => standsAt_ite (fun _ => ?afterQC) fun _ =>
    standsAt_ite (fun _ => standsAt_ite (fun _ => ⟨by omega, by omega⟩) fun _ => ⟨by omega, by omega⟩) fun _ =>
    standsAt_ite (fun _ => ?afterR) fun _ => standsAt_ite (fun _ => ⟨by omega, by omega⟩) fun _ =>
    standsAt_ite (fun _ => ⟨by omega, by omega⟩) fun _ => standsAt_ite (fun _ => ⟨by omega, by omega⟩) fun _ =>
    standsAt_ite (fun _ => ⟨by omega, by omega⟩) fun _ => ?afterBS
  all_goals simp only [standsAt, holdsNothing]; omega

/-- A reserved or unmapped address is no other location's. -/
theorem Loc.ofAddr_of_holdsNothing {n : Nat} (h : holdsNothing n) : Loc.ofAddr n = .unmapped := by
  have hstands := Loc.ofAddr_standsAt n
  cases hl : Loc.ofAddr n with
  | reg r =>
    rw [hl] at hstands
    exact absurd (hstands ▸ h) r.not_holdsNothing_addr
  | unmapped => rfl
  | _ =>
    simp only [hl, standsAt] at hstands
    unfold holdsNothing at h
    omega

theorem Loc.ofAddr_of_standsAt {l : Loc} {n : Nat} (h : l.standsAt n) : Loc.ofAddr n = l := by
  cases l with
  | reg r =>
    obtain rfl := h
    exact Loc.ofAddr_reg r
  | unmapped => exact Loc.ofAddr_of_holdsNothing h
  | a k | qc k =>
    obtain ⟨⟨hk, hk'⟩, rfl⟩ := h
    simp (disch := omega) only [Loc.ofAddr, if_pos, if_neg, Nat.add_sub_cancel_left, Nat.sub_add_cancel]
  | ctLen k | ctCode k | rLo k | rHi k =>
    obtain ⟨hk, rfl⟩ := h
    simp (disch := omega) only [Loc.ofAddr, if_pos, if_neg]
    congr 1
    omega
  | _ =>
    obtain ⟨hk, rfl⟩ := h
    simp (disch := omega) only [Loc.ofAddr, xBase, qeBase, yBase, bsBase, if_pos, if_neg, Nat.add_sub_cancel_left]

/-- The map and the table of the locations' addresses say the same. -/
theorem Loc.ofAddr_eq_iff (l : Loc) (n : Nat) : Loc.ofAddr n = l ↔ l.standsAt n :=
  ⟨fun h => h ▸ Loc.ofAddr_standsAt n, Loc.ofAddr_of_standsAt⟩

/-- A location that holds something has one address. -/
theorem Loc.standsAt_unique {l : Loc} {n n' : Nat} (hl : l ≠ .unmapped) (h : l.standsAt n) (h' : l.standsAt n') :
    n = n' := by
  cases l with
  | reg r => exact h.trans h'.symm
  | unmapped => exact absurd rfl hl
  | _ => exact h.2.trans h'.2.symm

end Sys2Proof.Machine
end

section
/-! SUPPORT. Whole words of the buffers: what they read as after a store, and the stream's bits in them (20_memory R95,
R97). -/

namespace Sys2Proof.Machine

/-- Bit `i` of a word stands in its byte `i / 8`. -/
theorem Memory.getLsbD_word (m : Memory) (w : Nat) {i : Nat} (hi : i < 32) :
    (m.word w).getLsbD i = (m.byteAt (4 * w + i / 8)).getLsbD (i % 8) := by
  have hbyte : i / 8 = 0 ∨ i / 8 = 1 ∨ i / 8 = 2 ∨ i / 8 = 3 := by omega
  simp only [Memory.word, BitVec.getLsbD_append]
  rcases hbyte with h | h | h | h
  · simp [h, show i < 16 by omega, show i < 8 by omega, show i % 8 = i by omega]
  · simp [h, show i < 16 by omega, show ¬ i < 8 by omega, show i % 8 = i - 8 by omega]
  · simp [h, show ¬ i < 16 by omega, show i - 16 < 8 by omega, show i % 8 = i - 16 by omega]
  · simp [h, show ¬ i < 16 by omega, show ¬ i - 16 < 8 by omega, show i % 8 = i - 16 - 8 by omega]

/-- Stream bit `n` is bit `31 - n mod 32` of the stream word `n / 32` (20_memory R97). -/
theorem Memory.streamBit_eq_getLsbD_word (m : Memory) (n : Nat) :
    m.streamBit n = (m.word (bsBase + n / 32)).getLsbD (31 - n % 32) := by
  rw [Memory.getLsbD_word _ _ (by omega), Memory.streamBit]

/-- Reading a word after storing one: the value at that address, the old one elsewhere. -/
@[simp] theorem Memory.word_setWord (m : Memory) (w u : Nat) (v : Word) :
    (m.setWord w v).word u = if u = w then v else m.word u := by
  apply BitVec.eq_of_getLsbD_eq
  intro i hi
  have hword : (4 * u + i / 8) / 4 = u := by omega
  have hlane : (4 * u + i / 8) % 4 = i / 8 := by omega
  rw [Memory.getLsbD_word _ _ hi, Memory.byteAt_setWord, hword, hlane]
  split
  · rw [BitVec.getLsbD_extractLsb', Nat.div_add_mod, decide_eq_true (Nat.mod_lt i (by decide)), Bool.true_and]
  · rw [Memory.getLsbD_word _ _ hi]

theorem Memory.half_setWord_of_ne (m : Memory) {w u : Nat} (v : Word) (h : u ≠ w) :
    (m.setWord w v).half u = m.half u := by
  simp only [Memory.half, Memory.byteAt_setWord]
  rw [if_neg (by omega), if_neg (by omega)]

theorem Memory.word_setHalf_of_ne (m : Memory) {w u : Nat} (v : Half) (h : u ≠ w) :
    (m.setHalf w v).word u = m.word u := by
  have hbyte : ∀ b < 4, (m.setHalf w v).byteAt (4 * u + b) = m.byteAt (4 * u + b) := fun b hb => by
    rw [Memory.byteAt_setHalf, if_neg (by omega), if_neg (by omega)]
  rw [Memory.word, Memory.word, hbyte 3 (by decide), hbyte 2 (by decide), hbyte 1 (by decide)]
  exact congrArg _ (congrArg _ (hbyte 0 (by decide)))

end Sys2Proof.Machine
end

section
/-! SUPPORT. What a location reads as after a write to a file or buffer: the rule of each store, then of each location
(20_memory R93, R95, R97, R98, R109). -/

namespace Sys2Proof.Machine

/-- An element written in its range reads back. -/
theorem getD_setIfInBounds_self {α : Type} {n i : Nat} (xs : Vector α n) (e d : α) (hi : i < n) :
    ((xs.setIfInBounds i e)[i]?).getD d = e := by
  rw [Vector.getElem?_setIfInBounds_self_of_lt hi, Option.getD_some]

/-- A write that keeps a part `f` of the element it replaces keeps that part of every element. -/
theorem apply_getD_setIfInBounds {α β : Type} {n i j : Nat} (f : α → β) (xs : Vector α n) {e : α} (d : α) (hi : i < n)
    (h : i = j → f e = f ((xs[j]?).getD d)) : f (((xs.setIfInBounds i e)[j]?).getD d) = f ((xs[j]?).getD d) := by
  by_cases hij : i = j
  · subst hij
    rw [getD_setIfInBounds_self xs e d hi, h rfl]
  · rw [Vector.getElem?_setIfInBounds_ne hij]

/-- No control register is read from a file or buffer. -/
theorem readReg_withFiles (s : State) (mem : Memory) (a : Vector Word 32) (qc : Vector Half 32)
    (r : Vector (BitVec 64) 33) (freq : Vector Word 256) (ct : Vector CodeEntry 256) (c : CtrlReg) :
    readReg { s with mem := mem, a := a, qc := qc, r := r, freq := freq, ct := ct } c = readReg s c := by
  cases c <;> rfl

theorem readLoc_setFreq_of_ne (s : State) {b : Nat} {l : Loc} (v : Word) (h : l ≠ .freq b) :
    readLoc { s with freq := s.freq.setIfInBounds b v } l = readLoc s l := by
  cases l with
  | reg c => exact readReg_withFiles s _ _ _ _ _ _ c
  | freq b' =>
    have hb : b ≠ b' := fun hbb => h (hbb ▸ rfl)
    rw [readLoc, Vector.getElem?_setIfInBounds_ne hb, readLoc]
  | _ => rfl

/-- A code table entry is read as its two parts: what keeps the one and the other keeps every read. -/
theorem readLoc_setEntry (s : State) {b : Nat} {l : Loc} {e : CodeEntry} (hb : b < 256)
    (hlen : l = .ctLen b → e.len = ((s.ct[b]?).getD ⟨0#6, 0#32⟩).len)
    (hcode : l = .ctCode b → e.code = ((s.ct[b]?).getD ⟨0#6, 0#32⟩).code) :
    readLoc { s with ct := s.ct.setIfInBounds b e } l = readLoc s l := by
  cases l with
  | reg c => exact readReg_withFiles s _ _ _ _ _ _ c
  | ctLen b' =>
    refine apply_getD_setIfInBounds (fun e => e.len.setWidth 32) s.ct _ hb fun hbb => ?_
    subst hbb
    exact congrArg (BitVec.setWidth 32) (hlen rfl)
  | ctCode b' =>
    refine apply_getD_setIfInBounds CodeEntry.code s.ct _ hb fun hbb => ?_
    subst hbb
    exact hcode rfl
  | _ => rfl

theorem readLoc_setCoef_of_ne (s : State) {i : Nat} {l : Loc} (v : Word) (h : ∀ k, l = .a k → i ≠ k - 1) :
    readLoc { s with a := s.a.setIfInBounds i v } l = readLoc s l := by
  cases l with
  | reg c => exact readReg_withFiles s _ _ _ _ _ _ c
  | a k => rw [readLoc, Vector.getElem?_setIfInBounds_ne (h k rfl), readLoc]
  | _ => rfl

theorem readLoc_setQc_of_ne (s : State) {i : Nat} {l : Loc} (v : Half) (h : ∀ k, l = .qc k → i ≠ k - 1) :
    readLoc { s with qc := s.qc.setIfInBounds i v } l = readLoc s l := by
  cases l with
  | reg c => exact readReg_withFiles s _ _ _ _ _ _ c
  | qc k => rw [readLoc, State.qcHalf, Vector.getElem?_setIfInBounds_ne (h k rfl), readLoc, State.qcHalf]
  | _ => rfl

/-- A lag is read as its two words: what keeps the one and the other keeps every read. -/
theorem readLoc_setLag (s : State) {k : Nat} {l : Loc} {v : BitVec 64} (hk : k < 33)
    (hlo : l = .rLo k → v.extractLsb' 0 32 = ((s.r[k]?).getD 0#64).extractLsb' 0 32)
    (hhi : l = .rHi k → v.extractLsb' 32 32 = ((s.r[k]?).getD 0#64).extractLsb' 32 32) :
    readLoc { s with r := s.r.setIfInBounds k v } l = readLoc s l := by
  cases l with
  | reg c => exact readReg_withFiles s _ _ _ _ _ _ c
  | rLo k' =>
    refine apply_getD_setIfInBounds (BitVec.extractLsb' 0 32) s.r _ hk fun hkk => ?_
    subst hkk
    exact hlo rfl
  | rHi k' =>
    refine apply_getD_setIfInBounds (BitVec.extractLsb' 32 32) s.r _ hk fun hkk => ?_
    subst hkk
    exact hhi rfl
  | _ => rfl

/-- Of the memory, a location reads at most the element or the word at its own address. -/
theorem readLoc_withMem (s : State) {m : Memory} {l : Loc} {n : Nat} (hl : l.standsAt n)
    (hhalf : m.half n = s.mem.half n) (hword : m.word n = s.mem.word n) :
    readLoc { s with mem := m } l = readLoc s l := by
  cases l with
  | reg c => exact readReg_withFiles s _ _ _ _ _ _ c
  | x i | qe i | y i =>
    obtain ⟨-, rfl⟩ := hl
    exact congrArg (BitVec.signExtend 32) hhalf
  | bsWord j =>
    obtain ⟨-, rfl⟩ := hl
    exact hword
  | _ => rfl

theorem readLoc_setHalf_of_ne (s : State) {l : Loc} {n w : Nat} (v : Half) (hl : l.standsAt n) (h : n ≠ w) :
    readLoc { s with mem := s.mem.setHalf w v } l = readLoc s l :=
  readLoc_withMem s hl ((Memory.half_setHalf _ _ _ v).trans (if_neg h)) (Memory.word_setHalf_of_ne _ v h)

theorem readLoc_setWord_of_ne (s : State) {l : Loc} {n w : Nat} (v : Word) (hl : l.standsAt n) (h : n ≠ w) :
    readLoc { s with mem := s.mem.setWord w v } l = readLoc s l :=
  readLoc_withMem s hl (Memory.half_setWord_of_ne _ v h) ((Memory.word_setWord _ _ _ v).trans (if_neg h))

/-- A write to a file or buffer changes no other location, not even the other part of its own entry or lag. -/
theorem readLoc_writeLoc_of_ne (s : State) (v : Word) {l l' : Loc} {n n' : Nat} (hl : l.standsAt n) (hn : 0x100 ≤ n)
    (hl' : l'.standsAt n') (hne : n' ≠ n) : readLoc (writeLoc s v l) l' = readLoc s l' := by
  have hother : l ≠ .unmapped → l' ≠ l := fun hmapped hll =>
    hne (Loc.standsAt_unique hmapped (hll ▸ hl') hl)
  cases l with
  | reg r => exact absurd (hl ▸ hn) (Nat.not_le.2 r.addr_lt)
  | freq b => exact readLoc_setFreq_of_ne s v (hother (by simp))
  | ctLen b => exact readLoc_setEntry s hl.1 (fun h => absurd h (hother (by simp))) fun _ => rfl
  | ctCode b => exact readLoc_setEntry s hl.1 (fun _ => rfl) fun h => absurd h (hother (by simp))
  | a k =>
    refine readLoc_setCoef_of_ne s v fun k' hk' => ?_
    subst hk'
    obtain ⟨-, rfl⟩ := hl
    obtain ⟨-, rfl⟩ := hl'
    omega
  | qc k =>
    refine readLoc_setQc_of_ne s _ fun k' hk' => ?_
    subst hk'
    obtain ⟨-, rfl⟩ := hl
    obtain ⟨-, rfl⟩ := hl'
    omega
  | rLo k =>
    exact readLoc_setLag s (Nat.lt_succ_of_le hl.1) (fun h => absurd h (hother (by simp))) fun _ =>
      BitVec.extractLsb'_append_eq_left
  | rHi k =>
    exact readLoc_setLag s (Nat.lt_succ_of_le hl.1) (fun _ => BitVec.extractLsb'_append_eq_right) fun h =>
      absurd h (hother (by simp))
  | x i | qe i | y i => exact readLoc_setHalf_of_ne s _ hl' (hl.2 ▸ hne)
  | bsWord j => exact readLoc_setWord_of_ne s v hl' (hl.2 ▸ hne)
  | unmapped => rfl

theorem writeLoc_busy (s : State) (v : Word) {l : Loc} {n : Nat} (hl : l.standsAt n) (hn : 0x100 ≤ n) :
    (writeLoc s v l).busy = s.busy := by
  cases l with
  | reg r => exact absurd (hl ▸ hn) (Nat.not_le.2 r.addr_lt)
  | _ => rfl

theorem keptPart_of_len {a : Nat} (v : Word) (h : 0x200 ≤ a ∧ a ≤ 0x3FF ∧ a % 2 = 0) : keptPart a v = v &&& 0x3F#32 :=
  if_pos h

theorem keptPart_of_half {a : Nat} (v : Word) (h : (0x440 ≤ a ∧ a ≤ 0x45F) ∨ (0x10000 ≤ a ∧ a ≤ 0x3FFFF)) :
    keptPart a v = (v.extractLsb' 0 16).signExtend 32 := by
  rw [keptPart, if_neg (by omega), if_pos h]

theorem keptPart_of_word {a : Nat} (v : Word) (hodd : 0x200 ≤ a → a ≤ 0x3FF → a % 2 = 1)
    (h : (0x100 ≤ a ∧ a ≤ 0x41F) ∨ (0x480 ≤ a ∧ a ≤ 0x4C1) ∨ (0x40000 ≤ a ∧ a ≤ 0x47FFF)) : keptPart a v = v := by
  rw [keptPart, if_neg (by omega), if_neg (by omega), if_pos h]

theorem keptPart_of_holdsNothing {a : Nat} (v : Word) (ha : 0x100 ≤ a) (h : holdsNothing a) : keptPart a v = 0#32 := by
  unfold holdsNothing at h
  rw [keptPart, if_neg (by omega), if_neg (by omega), if_neg (by omega)]

/-- The low six bits of a word, zero-extended, are the word under a mask. -/
theorem setWidth_extractLsb'_six (v : Word) : (v.extractLsb' 0 6).setWidth 32 = v &&& 0x3F#32 := by
  apply BitVec.eq_of_toNat_eq
  have hmask := Nat.and_two_pow_sub_one_eq_mod v.toNat 6
  simp only [BitVec.toNat_setWidth, BitVec.extractLsb'_toNat, BitVec.toNat_and, BitVec.toNat_ofNat, Nat.shiftRight_zero]
  norm_num at hmask ⊢
  omega

/-- A file or buffer location reads back as the part of the written word that its layout keeps. -/
theorem readLoc_writeLoc_self (s : State) (v : Word) {l : Loc} {n : Nat} (hl : l.standsAt n) (hn : 0x100 ≤ n) :
    readLoc (writeLoc s v l) l = keptPart n v := by
  cases l with
  | reg r => exact absurd (hl ▸ hn) (Nat.not_le.2 r.addr_lt)
  | freq b =>
    obtain ⟨hb, rfl⟩ := hl
    rw [keptPart_of_word v (by omega) (by omega), writeLoc, readLoc, getD_setIfInBounds_self _ _ _ hb]
  | ctLen b =>
    obtain ⟨hb, rfl⟩ := hl
    rw [keptPart_of_len v (by omega), writeLoc, readLoc, getD_setIfInBounds_self _ _ _ hb, setWidth_extractLsb'_six]
  | ctCode b =>
    obtain ⟨hb, rfl⟩ := hl
    rw [keptPart_of_word v (by omega) (by omega), writeLoc, readLoc, getD_setIfInBounds_self _ _ _ hb]
  | a k =>
    obtain ⟨hk, rfl⟩ := hl
    rw [keptPart_of_word v (by omega) (by omega), writeLoc, readLoc,
      getD_setIfInBounds_self _ _ _ (by omega)]
  | qc k =>
    obtain ⟨hk, rfl⟩ := hl
    rw [keptPart_of_half v (by omega), writeLoc, readLoc, State.qcHalf,
      getD_setIfInBounds_self _ _ _ (by omega)]
  | rLo k =>
    obtain ⟨hk, rfl⟩ := hl
    rw [keptPart_of_word v (by omega) (by omega), writeLoc, readLoc,
      getD_setIfInBounds_self _ _ _ (by omega), BitVec.extractLsb'_append_eq_right]
  | rHi k =>
    obtain ⟨hk, rfl⟩ := hl
    rw [keptPart_of_word v (by omega) (by omega), writeLoc, readLoc,
      getD_setIfInBounds_self _ _ _ (by omega), BitVec.extractLsb'_append_eq_left]
  | x i | qe i | y i =>
    obtain ⟨hi, rfl⟩ := hl
    rw [keptPart_of_half v (by omega), writeLoc, readLoc, Memory.half_setHalf, if_pos rfl]
  | bsWord j =>
    obtain ⟨hj, rfl⟩ := hl
    rw [keptPart_of_word v (by omega) (by omega), writeLoc, readLoc, Memory.word_setWord, if_pos rfl]
  | unmapped => rw [keptPart_of_holdsNothing v hn hl, writeLoc, readLoc]

end Sys2Proof.Machine
end

section
/-! SUPPORT. Which bus accesses are done, and on what: all on an idle block, the listed ones while busy (20_memory R92,
R93, R101, R107). -/

namespace Sys2Proof.Machine

theorem busRead_of_idle {s : State} (hb : s.busy = false) (a : Addr) :
    busRead s a = (readLoc s (Loc.ofAddr a.toNat), s) := by
  simp [busRead, readAllowed, hb]

theorem busWrite_of_idle {s : State} (hb : s.busy = false) (a : Addr) (v : Word) :
    busWrite s a v = writeLoc s v (Loc.ofAddr a.toNat) := by
  simp [busWrite, writeAllowed, hb]

/-- The refusal with its bit written out (10_state R47). -/
theorem refuse_eq (s : State) : refuse s = { s with sticky := s.sticky ||| 0x02000000#32 } := rfl

theorem readAllowed_of_busy (a : Addr) : readAllowed true a = true ↔ a.toNat ≤ 0x0F := by
  simp [readAllowed]

/-- While busy, writes are let through to CTRL, STICKY, IE and IP, and to the read-only registers below 0x10, which
ignore them. -/
theorem writeAllowed_of_busy (a : Addr) :
    writeAllowed true a = true ↔
      a.toNat ∈ [0x02, 0x06, 0x07, 0x08] ∨ (a.toNat ∈ readOnlyAddrs ∧ a.toNat ≤ 0x0F) := by
  simp only [writeAllowed, readOnlyAddrs, CtrlReg.addr, Bool.not_true, Bool.false_or, List.any_cons, List.any_nil,
    Bool.or_eq_true, Bool.false_eq_true, beq_iff_eq, List.mem_cons, List.not_mem_nil, or_false]
  omega

theorem busRead_of_busy {s : State} (hb : s.busy = true) (a : Addr) :
    busRead s a = if a.toNat ≤ 0x0F then (readLoc s (Loc.ofAddr a.toNat), s) else (0#32, refuse s) := by
  rw [busRead, hb]
  exact if_congr (readAllowed_of_busy a) rfl rfl

/-- What is let through while busy. The other writes are refused. -/
theorem busWrite_of_busy {s : State} (hb : s.busy = true) (a : Addr) (v : Word) :
    busWrite s a v = if a.toNat ∈ [0x02, 0x06, 0x07, 0x08] ∨ (a.toNat ∈ readOnlyAddrs ∧ a.toNat ≤ 0x0F) then
      writeLoc s v (Loc.ofAddr a.toNat) else refuse s := by
  rw [busWrite, hb]
  exact if_congr (writeAllowed_of_busy a) rfl rfl

theorem busWrite_refused {s : State} {a : Addr} (hb : s.busy = true) (v : Word)
    (hstatus : a.toNat ∉ [0x02, 0x06, 0x07, 0x08]) (hro : a.toNat ∈ readOnlyAddrs → 0x0F < a.toNat) :
    busWrite s a v = refuse s := by
  rw [busWrite_of_busy hb, if_neg]
  rintro (h | ⟨h, hlow⟩)
  · exact hstatus h
  · exact Nat.not_lt.2 hlow (hro h)

/-- STICKY, IE and IP are written while busy as on an idle block. -/
theorem busWrite_statusGroup (s : State) {a : Addr} {r : CtrlReg} (v : Word) (ha : a.toNat = r.addr)
    (hr : r.addr ∈ [0x02, 0x06, 0x07, 0x08]) : busWrite s a v = writeReg s v r := by
  cases hb : s.busy with
  | false => exact busWrite_reg hb ha v
  | true => rw [busWrite_of_busy hb, if_pos (.inl (ha ▸ hr)), ha, Loc.ofAddr_reg, writeLoc]

/-- A read-only register ignores writes (20_memory R107). -/
theorem writeReg_of_readOnly (s : State) (v : Word) {r : CtrlReg} (h : r.addr ∈ readOnlyAddrs) :
    writeReg s v r = s := by
  cases r with
  | ctrl | cmd | sticky | ie | ip | order | len | clen | elen | ylen | blen | symcount | lossT | rng | bitrate | qovf
  | ysat | lossev => exact absurd h (by decide)
  | _ => rfl

/-- Each read-only address is that of a register (10_state R65). -/
theorem exists_addr_of_readOnly : ∀ n ∈ readOnlyAddrs, ∃ r ∈ CtrlReg.all, r.addr = n := by
  decide

theorem writeLoc_of_readOnly (s : State) (v : Word) {n : Nat} (h : n ∈ readOnlyAddrs) :
    writeLoc s v (Loc.ofAddr n) = s := by
  obtain ⟨r, -, rfl⟩ := exists_addr_of_readOnly n h
  rw [Loc.ofAddr_reg, writeLoc, writeReg_of_readOnly s v h]

/-- What an idle block reads at an address written as a number. -/
theorem busRead_ofNat_of_standsAt {s : State} {l : Loc} {n : Nat} (hb : s.busy = false) (hn : n < 2 ^ 19)
    (hl : l.standsAt n) : (busRead s (BitVec.ofNat 19 n)).1 = readLoc s l := by
  rw [busRead_of_idle hb, BitVec.toNat_ofNat, Nat.mod_eq_of_lt hn, Loc.ofAddr_of_standsAt hl]

end Sys2Proof.Machine
end

section
/-! SUPPORT. The layouts of the elements as integers: a lag as its two words (20_memory R98). -/

namespace Sys2Proof.Machine

/-- The low word of a lag is the lag modulo 2^32. -/
theorem lowWord_eq_ofInt (x : BitVec 64) : x.extractLsb' 0 32 = BitVec.ofInt 32 x.toInt := by
  apply BitVec.eq_of_toNat_eq
  rw [lowWord_eq, BitVec.toNat_ofNat, BitVec.toNat_ofInt, BitVec.toInt_eq_toNat_cond]
  norm_num
  omega

/-- The high word of a lag is its quotient by 2^32, rounded down. -/
theorem highWord_eq_ofInt (x : BitVec 64) : x.extractLsb' 32 32 = BitVec.ofInt 32 (x.toInt / 2 ^ 32) := by
  apply BitVec.eq_of_toNat_eq
  rw [BitVec.toNat_ofInt, BitVec.toInt_eq_toNat_cond, BitVec.extractLsb'_toNat, Nat.shiftRight_eq_div_pow]
  norm_num
  have := x.isLt
  omega

end Sys2Proof.Machine
end

section
/-! CERTIFICATE. The statements about the host bus: the address map, reads and writes, and the refusals while busy. -/

namespace Sys2Proof.Proofs
open Sys2Proof Sys2Proof.Machine

/-- Settles O41: each row of the table is a location with its address, and the map and the table agree. -/
theorem addressMapIsTheTable : Obligations.AddressMapIsTheTable := by
  refine ⟨?registers, fun b hb => ⟨?_, ?_, ?_⟩, fun k hk hk' => ⟨?_, ?_⟩, fun k hk => ⟨?_, ?_⟩,
    fun i hi => ⟨?_, ?_, ?_⟩, fun j hj => ?_, fun n _ => Loc.ofAddr_eq_iff .unmapped n⟩
  case registers => decide
  all_goals exact Loc.ofAddr_of_standsAt ⟨by omega, rfl⟩

/-- Settles O42: the address written keeps its part, and a location at another address is another location. -/
theorem busWriteThenRead : Obligations.BusWriteThenRead := by
  intro s a b v hb ha
  have hstands := Loc.ofAddr_standsAt a.toNat
  have hidle : (writeLoc s v (Loc.ofAddr a.toNat)).busy = false := (writeLoc_busy s v hstands ha).trans hb
  rw [busWrite_of_idle hb, busRead_of_idle hidle, busRead_of_idle hb]
  split
  next hba => rw [hba, readLoc_writeLoc_self s v hstands ha]
  next hba =>
    exact readLoc_writeLoc_of_ne s v hstands ha (Loc.ofAddr_standsAt b.toNat) fun h => hba (BitVec.eq_of_toNat_eq h)

/-- Settles O43: on an idle block every read is done, and a read that is done changes nothing. -/
theorem idleReadChangesNothing : Obligations.IdleReadChangesNothing := by
  intro s a hb
  rw [busRead_of_idle hb]

/-- Settles O44: the stream's bits are the bits of its words, and only the word `j` was written. -/
theorem streamBitsAreMostSignificantFirst : Obligations.StreamBitsAreMostSignificantFirst := by
  intro s v j n hb hj _
  have hloc : Loc.ofAddr (BitVec.ofNat 19 (0x40000 + j)).toNat = .bsWord j := by
    rw [BitVec.toNat_ofNat, Nat.mod_eq_of_lt (by omega)]
    exact Loc.ofAddr_of_standsAt ⟨hj, rfl⟩
  rw [busWrite_of_idle hb, hloc, writeLoc, Memory.streamBit_eq_getLsbD_word, Memory.word_setWord,
    Memory.streamBit_eq_getLsbD_word]
  simp only [Nat.add_left_cancel_iff]
  split <;> rfl

/-- Settles O46: a write that reaches a read-only register is ignored, and while busy only those below 0x10 are
reached. -/
theorem readOnlyWritesAreIgnored : Obligations.ReadOnlyWritesAreIgnored := by
  intro s a v ha
  obtain hb | hb := Bool.eq_false_or_eq_true s.busy
  · by_cases hlow : a.toNat ≤ 0x0F
    · rw [busWrite_of_busy hb, if_pos (.inr ⟨ha, hlow⟩), writeLoc_of_readOnly s v ha,
        if_neg fun h => Nat.not_lt.2 hlow h.2]
    · have hstatus : a.toNat ∉ [0x02, 0x06, 0x07, 0x08] := by
        simp only [List.mem_cons, List.not_mem_nil, or_false]
        omega
      rw [busWrite_refused hb v hstatus fun _ => Nat.not_le.1 hlow, refuse_eq, if_pos ⟨hb, Nat.not_le.1 hlow⟩]
  · rw [busWrite_of_idle hb, writeLoc_of_readOnly s v ha, if_neg (by simp [hb])]

/-- Settles O47: such an address leads to the location that holds nothing. -/
theorem unmappedAddressesReadZero : Obligations.UnmappedAddressesReadZero := by
  intro s a v hb ha
  rw [busRead_of_idle hb, busWrite_of_idle hb, Loc.ofAddr_of_holdsNothing ha, readLoc, writeLoc]
  exact ⟨rfl, rfl⟩

/-- Settles O48: what is let through while busy, and the refusal of all else. -/
theorem busyAccessesAreRefused : Obligations.BusyAccessesAreRefused := by
  intro s a v hb
  refine ⟨?read, fun hstatus hro => ?refused, busWrite_statusGroup s (r := .sticky) v rfl (by decide),
    busWrite_statusGroup s (r := .ie) v rfl (by decide), busWrite_statusGroup s (r := .ip) v rfl (by decide)⟩
  case read => rw [busRead_of_busy hb, refuse_eq]
  case refused => rw [busWrite_refused hb v hstatus fun h => absurd h hro, refuse_eq]

/-- Settles O56: each element stands at its address, and its layout reads as the integer the commands use. -/
theorem filesAndBuffersReadTheirElements : Obligations.FilesAndBuffersReadTheirElements := by
  intro s hb word
  have read : ∀ (l : Loc) {n : Nat}, n < 2 ^ 19 → l.standsAt n → word n = readLoc s l :=
    fun l _ hn hl => busRead_ofNat_of_standsAt hb hn hl
  refine ⟨fun b => ?freq, fun b => ⟨?len, ?code⟩, fun k hk hk' => ⟨?coef, ?qc⟩, fun k hk => ⟨?low, ?high⟩,
    fun i hi => ⟨?x, ?qe, ?y⟩, fun j hj i hi => ?stream⟩
  case freq =>
    rw [read (.freq b) (by omega) ⟨b.isLt, rfl⟩, readLoc, Vector.getElem?_eq_getElem b.isLt, Option.getD_some]
  case len =>
    rw [read (.ctLen b.toNat) (by omega) ⟨b.isLt, rfl⟩, BitVec.ofNat_toNat]
    rfl
  case code => exact read (.ctCode b.toNat) (by omega) ⟨b.isLt, rfl⟩
  case coef => rw [read (.a k) (by omega) ⟨⟨hk, hk'⟩, rfl⟩, readLoc, State.coef, BitVec.ofInt_toInt]
  case qc => exact read (.qc k) (by omega) ⟨⟨hk, hk'⟩, rfl⟩
  case low => rw [read (.rLo k) (by omega) ⟨hk, rfl⟩, readLoc, State.lag, lowWord_eq_ofInt]
  case high => rw [read (.rHi k) (by omega) ⟨hk, rfl⟩, readLoc, State.lag, highWord_eq_ofInt]
  case x => exact read (.x i) (by omega) ⟨hi, rfl⟩
  case qe => exact read (.qe i) (by omega) ⟨hi, rfl⟩
  case y => exact read (.y i) (by omega) ⟨hi, rfl⟩
  case stream =>
    rw [read (.bsWord j) (by omega) ⟨hj, rfl⟩, readLoc, Memory.streamBit_eq_getLsbD_word,
      show (32 * j + i) / 32 = j by omega, show (32 * j + i) % 32 = i by omega]

end Sys2Proof.Proofs
end

section
/-! SUPPORT. The formats of the command words, and the decoder as the rows of the opcode map (30_encoding R120 to
R124). -/

namespace Sys2Proof
open Sys2Proof.Laws

/-- Two fields side by side are a word exactly when they are the word's two parts. -/
theorem append_eq_iff_fields {m n : Nat} {hi : BitVec m} {lo : BitVec n} {w : BitVec (m + n)} :
    hi ++ lo = w ↔ w.extractLsb' n m = hi ∧ w.extractLsb' 0 n = lo := by
  constructor
  · rintro rfl
    exact ⟨BitVec.extractLsb'_append_eq_left, BitVec.extractLsb'_append_eq_right⟩
  · rintro ⟨rfl, rfl⟩
    exact BitVec.extractLsb'_append_extractLsb'

/-- Three fields side by side are a word exactly when they are the word's three parts. -/
theorem append_append_eq_iff_fields {l m n : Nat} {hi : BitVec l} {mid : BitVec m} {lo : BitVec n}
    {w : BitVec (l + (m + n))} :
    hi ++ (mid ++ lo) = w ↔
      w.extractLsb' (m + n) l = hi ∧ w.extractLsb' n m = mid ∧ w.extractLsb' 0 n = lo := by
  refine append_eq_iff_fields.trans (and_congr_right' ?_)
  rw [eq_comm, append_eq_iff_fields, BitVec.extractLsb'_extractLsb'_of_le (Nat.add_comm n m).le,
    BitVec.extractLsb'_extractLsb'_of_le (by omega)]

/-- A format N word: its opcode, and zeros above it (30_encoding R120). -/
theorem encodeN_eq_iff {op : BitVec 8} {w : Word} :
    encodeN op = w ↔ w.extractLsb' 8 24 = 0#24 ∧ opcodeOf w = op :=
  append_eq_iff_fields

/-- A format S word: its opcode, its `sel`, and zeros above them (30_encoding R120). -/
theorem encodeS_eq_iff {op : BitVec 8} {sel : BitVec 2} {w : Word} :
    encodeS op sel = w ↔ w.extractLsb' 10 22 = 0#22 ∧ w.extractLsb' 8 2 = sel ∧ opcodeOf w = op :=
  append_append_eq_iff_fields

/-- A format M word: its opcode, its mode bit, and zeros above them (30_encoding R120). -/
theorem encodeM_eq_iff {op : BitVec 8} {m : BitVec 1} {w : Word} :
    encodeM op m = w ↔ w.extractLsb' 9 23 = 0#23 ∧ w.extractLsb' 8 1 = m ∧ opcodeOf w = op :=
  append_append_eq_iff_fields

theorem decodeN_eq_ok_iff {i j : Instr} {w : Word} : decodeN i w = .ok j ↔ w.extractLsb' 8 24 = 0#24 ∧ i = j := by
  unfold decodeN
  split_ifs <;> simp [*]

theorem decodeS_eq_ok_iff {mk : BitVec 2 → Instr} {j : Instr} {w : Word} :
    decodeS mk w = .ok j ↔
      w.extractLsb' 10 22 = 0#22 ∧ selLegal (w.extractLsb' 8 2) = true ∧ mk (w.extractLsb' 8 2) = j := by
  unfold decodeS
  split_ifs <;> simp [*]

theorem decodeM_eq_ok_iff {mk : BitVec 1 → Instr} {j : Instr} {w : Word} :
    decodeM mk w = .ok j ↔ w.extractLsb' 9 23 = 0#23 ∧ mk (w.extractLsb' 8 1) = j := by
  unfold decodeM
  split_ifs <;> simp [*]

/-- In format N a word of the opcode decodes exactly when it is the word of that opcode. -/
theorem decodeN_iff_encodeN {op : BitVec 8} {i : Instr} {w : Word} :
    opcodeOf w = op ∧ decodeN i w = .ok i ↔ encodeN op = w := by
  rw [decodeN_eq_ok_iff, encodeN_eq_iff]
  tauto

/-- In format S a word of the opcode decodes to a `sel` exactly when `sel` is legal and the word carries it. -/
theorem decodeS_iff_encodeS {op : BitVec 8} {mk : BitVec 2 → Instr} (hmk : mk.Injective) {sel : BitVec 2} {w : Word} :
    opcodeOf w = op ∧ decodeS mk w = .ok (mk sel) ↔ selLegal sel = true ∧ encodeS op sel = w := by
  rw [decodeS_eq_ok_iff, encodeS_eq_iff, hmk.eq_iff]
  constructor
  · rintro ⟨hop, hzero, hlegal, rfl⟩
    exact ⟨hlegal, hzero, rfl, hop⟩
  · rintro ⟨hlegal, hzero, rfl, hop⟩
    exact ⟨hop, hzero, hlegal, rfl⟩

/-- In format M a word of the opcode decodes to a mode bit exactly when it carries it. -/
theorem decodeM_iff_encodeM {op : BitVec 8} {mk : BitVec 1 → Instr} (hmk : mk.Injective) {m : BitVec 1} {w : Word} :
    opcodeOf w = op ∧ decodeM mk w = .ok (mk m) ↔ encodeM op m = w := by
  rw [decodeM_eq_ok_iff, encodeM_eq_iff, hmk.eq_iff]
  tauto

/-- The format's decoder that the command's row of the opcode map names (30_encoding R124). -/
def rowDecoder : Instr → Word → Except DecodeReject Instr
  | .hbuild _ => decodeS .hbuild
  | .henc _ => decodeS .henc
  | .hdec _ => decodeS .hdec
  | .erase _ => decodeM .erase
  | .fidel _ => decodeM .fidel
  | i => decodeN i

/-- A word with a row's opcode is decoded by that row. -/
theorem decode_of_opcode {i : Instr} {w : Word} (h : opcodeOf w = opcodeNumber i) : decode w = rowDecoder i w := by
  cases i <;> (rw [decode, h]; rfl)

/-- A row decodes to a command of its own opcode only. -/
theorem opcodeNumber_of_rowDecoder {i j : Instr} {w : Word} (h : rowDecoder i w = .ok j) :
    opcodeNumber j = opcodeNumber i := by
  cases i with
  | hbuild | henc | hdec =>
    obtain ⟨-, -, rfl⟩ := decodeS_eq_ok_iff.1 h
    rfl
  | erase | fidel =>
    obtain ⟨-, rfl⟩ := decodeM_eq_ok_iff.1 h
    rfl
  | _ =>
    obtain ⟨-, rfl⟩ := decodeN_eq_ok_iff.1 h
    rfl

/-- A word that decodes has the opcode of what it decodes to. -/
theorem opcodeOf_of_decode {i : Instr} {w : Word} (h : decode w = .ok i) : opcodeOf w = opcodeNumber i := by
  have ofRow : ∀ j, (opcodeOf w).toNat = (opcodeNumber j).toNat → opcodeOf w = opcodeNumber i := fun j hj => by
    have hop : opcodeOf w = opcodeNumber j := BitVec.eq_of_toNat_eq hj
    rw [decode_of_opcode hop] at h
    rw [hop, opcodeNumber_of_rowDecoder h]
  have hdispatch := h
  unfold decode at hdispatch
  split at hdispatch
  next hop => exact ofRow .nop hop
  next hop => exact ofRow .acorr hop
  next hop => exact ofRow .levd hop
  next hop => exact ofRow .qcoef hop
  next hop => exact ofRow .dqcoef hop
  next hop => exact ofRow .analyze hop
  next hop => exact ofRow .synth hop
  next hop => exact ofRow (.hbuild 0#2) hop
  next hop => exact ofRow (.henc 0#2) hop
  next hop => exact ofRow (.hdec 0#2) hop
  next hop => exact ofRow (.erase 0#1) hop
  next hop => exact ofRow (.fidel 0#1) hop
  next => cases hdispatch

/-- Decoding goes by the opcode, then by the row's format (30_encoding R131). -/
theorem decode_eq_ok_iff {i : Instr} {w : Word} :
    decode w = .ok i ↔ opcodeOf w = opcodeNumber i ∧ rowDecoder i w = .ok i := by
  constructor
  · intro h
    have hop := opcodeOf_of_decode h
    exact ⟨hop, decode_of_opcode hop ▸ h⟩
  · rintro ⟨hop, hrow⟩
    exact (decode_of_opcode hop).trans hrow

/-- The word of a well-formed command is what the command's row decodes to it. -/
theorem rowDecoder_iff_encode {i : Instr} {w : Word} :
    opcodeOf w = opcodeNumber i ∧ rowDecoder i w = .ok i ↔ i.wf = true ∧ encode i = w := by
  cases i with
  | hbuild => exact decodeS_iff_encodeS fun _ _ => Instr.hbuild.inj
  | henc => exact decodeS_iff_encodeS fun _ _ => Instr.henc.inj
  | hdec => exact decodeS_iff_encodeS fun _ _ => Instr.hdec.inj
  | erase => exact (decodeM_iff_encodeM fun _ _ => Instr.erase.inj).trans (and_iff_right rfl).symm
  | fidel => exact (decodeM_iff_encodeM fun _ _ => Instr.fidel.inj).trans (and_iff_right rfl).symm
  | _ => exact decodeN_iff_encodeN.trans (and_iff_right rfl).symm

theorem selLegal_iff (sel : BitVec 2) : selLegal sel = true ↔ sel = 0#2 ∨ sel = 1#2 := by
  revert sel
  decide

end Sys2Proof
end

section
/-! SUPPORT. What a raise leaves, the commands with a reserved `sel`, and the host's turn at a WAIT (46_system R305,
30_encoding R122, R129). -/

namespace Sys2Proof.Machine

/-- The bookkeeping of the model's completion is the rule's (46_system R305). -/
theorem completedWith_complete (s : State) (e : ErrCode) (fs : List Flag) :
    CompletedWith s (complete s e fs) e fs :=
  ⟨rfl, stickyAfter_resultWord s.sticky e fs, rfl, rfl, rfl, rfl⟩

/-- A command that answers by raising a code writes nothing else. -/
theorem raises_of_exec {i : Instr} {s : State} {e : ErrCode} (h : exec i s = .next (raise s e)) : Raises i s e :=
  ⟨raise s e, h, completedWith_complete s e [], rfl, fun _ => rfl⟩

/-- `sel` 2 and 3 name no array (30_encoding R122). -/
theorem Sel.ofField_reserved {f : BitVec 2} (h : f = 2#2 ∨ f = 3#2) : Sel.ofField f = none := by
  obtain rfl | rfl := h <;> rfl

/-- On an idle block the host passes a WAIT. -/
theorem hostTurn_wait_of_idle {s : State} {ops : List HostOp} (h : s.script = .wait :: ops) (hb : s.busy = false) :
    hostTurn s = { s with script := ops, windowLeft := s.windowLeft - 1 } := by
  simp [hostTurn, h, hb, hostEffect]

/-- While a command is pending the host stays at a WAIT, whose poll is one access of the window. -/
theorem hostTurn_wait_of_busy {s : State} {ops : List HostOp} (h : s.script = .wait :: ops) (hb : s.busy = true) :
    hostTurn s = { s with windowLeft := s.windowLeft - 1 } := by
  simp [hostTurn, h, hb]

end Sys2Proof.Machine
end

section
/-! CERTIFICATE. The statements about the encoding of the commands. -/

namespace Sys2Proof.Proofs
open Sys2Proof Sys2Proof.Machine

/-- Settles O2: both sides say that the word has the opcode of the command's row and passes its format. -/
theorem decodeEncodeAgree : Obligations.DecodeEncodeAgree := fun _ _ =>
  decode_eq_ok_iff.trans rowDecoder_iff_encode

/-- Settles O1: the legal words are the encodings of the well-formed commands, and these are 17. -/
theorem legalWordsAreExactlySeventeen : Obligations.LegalWordsAreExactlySeventeen := by
  intro w i
  constructor
  · intro h
    obtain ⟨hwf, rfl⟩ := (decodeEncodeAgree w i).1 h
    cases i with
    | hbuild sel | henc sel | hdec sel => obtain rfl | rfl := (selLegal_iff sel).1 hwf <;> decide
    | erase m | fidel m => obtain rfl | rfl := BitVec.eq_zero_or_eq_one m <;> decide
    | _ => decide
  · intro h
    exact (show ∀ p : Word × Instr, p ∈ _ → decode p.1 = .ok p.2 by decide) (w, i) h

/-- Settles O3: the first five words are on the list of legal words, the others fail a check of their format. -/
theorem wordsOfTheSpecDecode : Obligations.WordsOfTheSpecDecode := by
  have legal := fun w i => (legalWordsAreExactlySeventeen w i).2
  refine ⟨legal _ _ ?_, legal _ _ ?_, legal _ _ ?_, legal _ _ ?_, legal _ _ ?_, ?_, ?_, ?_, ?_⟩ <;> decide

/-- Settles O8: such a `sel` names no array, and each of the three raises the illegal command then. -/
theorem reservedSelIsIllegal : Obligations.ReservedSelIsIllegal := by
  intro s sel hsel
  have hnone := Sel.ofField_reserved hsel
  refine ⟨raises_of_exec ?hbuild, raises_of_exec ?henc, raises_of_exec ?hdec⟩
  case hbuild => rw [exec, execHbuild, hnone, illegalCommand]
  case henc => rw [exec, execHenc, hnone, illegalCommand]
  case hdec => rw [exec, execHdec, hnone, illegalCommand]

/-- Settles O50: in both cases the host moves, and WAIT is at the head of its list. -/
theorem waitHoldsWhileBusy : Obligations.WaitHoldsWhileBusy := by
  intro s ops h
  refine ⟨fun hb => ?idle, fun hb hleft => ?busy⟩
  case idle => rw [step_of_hostTurn ((engineTurn_eq_false_iff s).2 (.inl hb)), hostTurn_wait_of_idle h hb]
  case busy =>
    rw [step_of_hostTurn ((engineTurn_eq_false_iff s).2 (.inr ⟨hleft, by simp [h]⟩)), hostTurn_wait_of_busy h hb]

end Sys2Proof.Proofs
end

section
/-! SUPPORT. The common check of the estimator, and ACORR: what it completes, and that every sum it stores fits a lag
(40_estimator R160, R161). -/

namespace Sys2Proof.Machine

/-- The bookkeeping starts from the registers there were, when the command's own work left them (46_system R305). -/
theorem completedWith_complete_of_eq {s u : State} (e : ErrCode) (fs : List Flag) (hsticky : u.sticky = s.sticky)
    (hcnt : u.cmdcnt = s.cmdcnt) (hip : u.ip = s.ip) : CompletedWith s (complete u e fs) e fs := by
  have h := completedWith_complete u e fs
  rwa [CompletedWith, hsticky, hcnt, hip] at h

theorem estCheck_of_length {s : State} (h : 65536 < s.len.toNat) : estCheck s = some .invalidLength :=
  if_pos h

/-- The order is looked at only when the length fits (40_estimator R160). -/
theorem estCheck_of_order {s : State} (hlen : s.len.toNat ≤ 65536)
    (h : s.order.toNat = 0 ∨ 32 < s.order.toNat ∨ s.len.toNat ≤ s.order.toNat) :
    estCheck s = some .invalidOrder := by
  rw [estCheck, if_neg (Nat.not_lt.2 hlen), if_pos h]

theorem execAcorr_of_check {s : State} {e : ErrCode} (h : estCheck s = some e) :
    exec .acorr s = .next (raise s e) := by
  rw [exec, execAcorr, h]

theorem execLevd_of_check {s : State} {e : ErrCode} (h : estCheck s = some e) :
    exec .levd s = .next (raise s e) := by
  rw [exec, execLevd, h]

/-- `s` with the lags `0..ORDER` replaced by the sums. -/
def storeLags (s : State) : State :=
  { s with r := Vector.ofFn fun k : Fin 33 =>
      if k.val ≤ s.order.toNat then BitVec.ofInt 64 (autocorr s k.val) else s.r[k] }

theorem execAcorr_of_passes {s : State} (h : estCheck s = none) :
    exec .acorr s = .next (complete (storeLags s) .ok []) := by
  rw [exec, execAcorr, h]
  rfl

theorem autocorr_eq_sum (s : State) (k : Nat) :
    autocorr s k = ∑ n ∈ Finset.range (s.len.toNat - k), s.sample n * s.sample (n + k) :=
  sumTo_eq_sum _ _

/-- A sample has magnitude at most 2^15 (10_state R31). -/
theorem sample_natAbs_le (s : State) (i : Nat) : (s.sample i).natAbs ≤ 32768 := by
  have := toInt16_mem (s.mem.half (xBase + i))
  rw [State.sample]
  omega

/-- At most 2^16 products of at most 2^30 each (40_estimator R161). -/
theorem autocorr_natAbs_le {s : State} (hlen : s.len.toNat ≤ 65536) (k : Nat) :
    (autocorr s k).natAbs ≤ 70368744177664 := by
  have hproduct : ∀ n < s.len.toNat - k, (s.sample n * s.sample (n + k)).natAbs ≤ 32768 * 32768 := fun n _ => by
    rw [Int.natAbs_mul]
    exact Nat.mul_le_mul (sample_natAbs_le s n) (sample_natAbs_le s (n + k))
  have hsum := sumTo_natAbs_le hproduct
  rw [← autocorr] at hsum
  omega

@[simp] theorem storeLags_sticky (s : State) : (storeLags s).sticky = s.sticky := by rw [storeLags]
@[simp] theorem storeLags_cmdcnt (s : State) : (storeLags s).cmdcnt = s.cmdcnt := by rw [storeLags]
@[simp] theorem storeLags_ip (s : State) : (storeLags s).ip = s.ip := by rw [storeLags]

/-- A lag up to ORDER reads as its sum: the sum fits 64 bits. -/
theorem storeLags_lag_of_le {s : State} (hlen : s.len.toNat ≤ 65536) {k : Nat} (hk : k ≤ s.order.toNat)
    (hk' : k < 33) : (storeLags s).lag k = autocorr s k := by
  have hbound := autocorr_natAbs_le hlen k
  have hread : (BitVec.ofInt 64 (autocorr s k)).toInt = autocorr s k := toInt_ofInt64 (by omega) (by omega)
  rw [State.lag, storeLags, Vector.getElem?_eq_getElem hk', Option.getD_some, Vector.getElem_ofFn, if_pos hk, hread]

/-- A lag above ORDER reads as before. -/
theorem storeLags_lag_of_lt (s : State) {k : Nat} (hk : s.order.toNat < k) : (storeLags s).lag k = s.lag k := by
  rw [State.lag, State.lag, storeLags]
  by_cases hk' : k < 33
  · rw [Vector.getElem?_eq_getElem hk', Vector.getElem?_eq_getElem hk', Vector.getElem_ofFn,
      if_neg (Nat.not_le.2 hk)]
    rfl
  · rw [Vector.getElem?_eq_none (Nat.not_lt.1 hk'), Vector.getElem?_eq_none (Nat.not_lt.1 hk')]

end Sys2Proof.Machine
end

section
/-! SUPPORT. The normalisation of the lags to 31 significant bits (40_estimator R162). -/

namespace Sys2Proof.Machine

/-- A shift to the left is exact, and one to the right rounds down: the floor, either way. -/
theorem normLag_eq_floor (sh v : Int) : normLag sh v = ⌊(v : ℚ) * (2 : ℚ) ^ sh⌋ := by
  unfold normLag
  split
  next h =>
    lift sh to Nat using h
    rw [zpow_natCast, Int.toNat_natCast]
    exact_mod_cast (Int.floor_intCast (R := ℚ) (v * 2 ^ sh)).symm
  next h =>
    obtain ⟨n, rfl⟩ : ∃ n : Nat, sh = -n := ⟨(-sh).toNat, by omega⟩
    have hfloor := Int.floor_div_cast_of_nonneg (k := ℚ) (n := 2 ^ n) (by positivity) (v : ℚ)
    rw [Int.floor_intCast] at hfloor
    push_cast at hfloor
    rw [neg_neg, Int.toNat_natCast, zpow_neg, zpow_natCast, ← div_eq_mul_inv, hfloor]

/-- An integer of `bitlen` bits lies between two powers of 2 (00_scope R12). -/
theorem pow_log2_le_and_lt {v : Int} (h : 0 < v) : 2 ^ v.toNat.log2 ≤ v ∧ v < 2 ^ (v.toNat.log2 + 1) := by
  have hlow := Nat.log2_self_le (n := v.toNat) (by omega)
  have hhigh := Nat.lt_log2_self (n := v.toNat)
  zify at hlow hhigh
  rw [Int.toNat_of_nonneg h.le] at hlow hhigh
  exact ⟨hlow, hhigh⟩

/-- `Rn[0]` has 31 significant bits. -/
theorem normLag_normShift_mem {v : Int} (h : 0 < v) :
    2 ^ 30 ≤ normLag (normShift v) v ∧ normLag (normShift v) v < 2 ^ 31 := by
  obtain ⟨hlow, hhigh⟩ := pow_log2_le_and_lt h
  unfold normLag normShift bitlen
  generalize v.toNat.log2 = n at *
  split
  next hn =>
    obtain ⟨m, hm⟩ : ∃ m, 30 = n + m := ⟨30 - n, by omega⟩
    rw [show ((31 - ((n + 1 : Nat) : Int)).toNat) = m by omega, show (31 : Nat) = n + 1 + m by omega, hm, pow_add,
      pow_add _ (n + 1)]
    exact ⟨Int.mul_le_mul_of_nonneg_right hlow (by positivity), Int.mul_lt_mul_of_pos_right hhigh (by positivity)⟩
  next hn =>
    obtain ⟨m, rfl⟩ : ∃ m, n = 30 + m := ⟨n - 30, by omega⟩
    rw [show ((-(31 - ((30 + m + 1 : Nat) : Int))).toNat) = m by omega,
      Int.le_ediv_iff_mul_le (by positivity), Int.ediv_lt_iff_lt_mul (by positivity), ← pow_add, ← pow_add]
    exact ⟨hlow, by rwa [show 31 + m = 30 + m + 1 by omega]⟩

/-- The shift of a positive lag lies in -32..30. -/
theorem normShift_lag_mem {s : State} {k : Nat} (h : 0 < s.lag k) :
    -32 ≤ normShift (s.lag k) ∧ normShift (s.lag k) ≤ 30 := by
  have hlt : s.lag k < 2 ^ 63 := BitVec.toInt_lt
  have hlog : (s.lag k).toNat.log2 < 63 := (Nat.log2_lt (by omega)).2 (by omega)
  rw [normShift, bitlen]
  omega

/-- The normalised lag `k` is the lag shifted. -/
theorem normLags_getD (s : State) {k : Nat} (hk : k ≤ s.order.toNat) :
    (normLags s).getD k 0 = normLag (normShift (s.lag 0)) (s.lag k) := by
  simp [normLags, List.getD_eq_getElem?_getD, List.getElem?_range (Nat.lt_succ_of_le hk)]

/-- No lag in `1..ORDER` exceeds `R[0]` in magnitude. -/
theorem lagsExceed_eq_false {s : State} (h : ∀ k, 1 ≤ k → k ≤ s.order.toNat → |s.lag k| ≤ s.lag 0) :
    lagsExceed s = false := by
  rw [lagsExceed, List.any_eq_false]
  intro k hk
  have hle := h (k + 1) (by omega) (List.mem_range.1 hk)
  rw [Int.abs_eq_natAbs] at hle
  simpa using hle

end Sys2Proof.Machine
end

section
/-! SUPPORT. The recursion as the sequence of its works, one per order, and the order at which the loop leaves it
(40_estimator R162). -/

namespace Sys2Proof.Machine

/-- Before the first step: the error energy is `Rn[0]`, and there are no coefficients. -/
def levStart (rn : List Int) : LevWork :=
  { energy := rn.getD 0 0, coefs := [], achieved := 0, satA := false, stopped := false }

/-- The work as the loop leaves it, with LDSTOP or without. -/
def LevWork.withStop (w : LevWork) (b : Bool) : LevWork := { w with stopped := b }

@[simp] theorem LevWork.withStop_energy (w : LevWork) (b : Bool) : (w.withStop b).energy = w.energy := rfl
@[simp] theorem LevWork.withStop_coef (w : LevWork) (b : Bool) (j : Nat) : (w.withStop b).coef j = w.coef j := rfl
@[simp] theorem LevWork.withStop_achieved (w : LevWork) (b : Bool) : (w.withStop b).achieved = w.achieved := rfl
@[simp] theorem LevWork.withStop_satA (w : LevWork) (b : Bool) : (w.withStop b).satA = w.satA := rfl
@[simp] theorem LevWork.withStop_stopped (w : LevWork) (b : Bool) : (w.withStop b).stopped = b := rfl

theorem LevWork.withStop_self (w : LevWork) : w.withStop w.stopped = w := rfl

/-- The work after `i` steps, when none of them leaves the loop. -/
def levWork (rn : List Int) : Nat → LevWork
  | 0 => levStart rn
  | i + 1 => levStep (reflection rn (i + 1) (levWork rn i)) (i + 1) (levWork rn i)

/-- The reflection coefficient of step `i`, from the work before it. -/
def levRefl (rn : List Int) (i : Nat) : Int := reflection rn i (levWork rn (i - 1))

theorem levWork_succ (rn : List Int) (i : Nat) :
    levWork rn (i + 1) = levStep (levRefl rn (i + 1)) (i + 1) (levWork rn i) := rfl

/-- A step's work, named by the step. -/
theorem levWork_of_pos (rn : List Int) {i : Nat} (hi : 1 ≤ i) :
    levWork rn i = levStep (levRefl rn i) i (levWork rn (i - 1)) := by
  cases i with
  | zero => omega
  | succ i => exact levWork_succ rn i

/-- The energy that a step leaves (40_estimator R162). -/
theorem levWork_energy (rn : List Int) {i : Nat} (hi : 1 ≤ i) :
    (levWork rn i).energy = (levWork rn (i - 1)).energy -
      rshr (rshr (levRefl rn i * levRefl rn i) 24 * (levWork rn (i - 1)).energy) 24 := by
  rw [levWork_of_pos rn hi, levStep]

@[simp] theorem levWork_achieved (rn : List Int) (i : Nat) : (levWork rn i).achieved = i := by
  cases i <;> rfl

@[simp] theorem levWork_stopped (rn : List Int) (i : Nat) : (levWork rn i).stopped = false := by
  induction i with
  | zero => rfl
  | succ i ih => rw [levWork_succ, levStep, ih]

theorem levWork_zero_energy (rn : List Int) : (levWork rn 0).energy = rn.getD 0 0 := rfl

theorem levWork_zero_coef (rn : List Int) (j : Nat) : (levWork rn 0).coef j = 0 := rfl

/-- The coefficients after step `i`: the clamped updates, the reflection coefficient, and 0 above it. -/
theorem levStep_coef (k : Int) {i j : Nat} (w : LevWork) (hi : 1 ≤ i) (hj : 1 ≤ j) :
    (levStep k i w).coef j = if j < i then sat 32 (levUpdate k i w j) else if j = i then k else 0 := by
  obtain ⟨i, rfl⟩ := Nat.exists_eq_add_of_le' hi
  obtain ⟨j, rfl⟩ := Nat.exists_eq_add_of_le' hj
  obtain hlt | rfl | hgt := Nat.lt_trichotomy j i
  · rw [if_pos (by omega)]
    simp [levStep, LevWork.coef, List.getElem?_append, hlt]
  · simp [levStep, LevWork.coef]
  · rw [if_neg (by omega), if_neg (by omega)]
    simp [levStep, LevWork.coef, List.getElem?_append, hgt.not_gt, show j - i ≠ 0 by omega]

/-- Below its order, a vector is the one before with the clamped update (40_estimator R162). -/
theorem levWork_coef_below (rn : List Int) {i j : Nat} (hj : 1 ≤ j) (hji : j < i) :
    (levWork rn i).coef j = sat 32 ((levWork rn (i - 1)).coef j +
      rshr (levRefl rn i * (levWork rn (i - 1)).coef (i - j)) 24) := by
  rw [levWork_of_pos rn (by omega), levStep_coef _ _ (by omega) hj, if_pos hji, levUpdate]

/-- At its order, a vector is the reflection coefficient. -/
theorem levWork_coef_self (rn : List Int) {i : Nat} (hi : 1 ≤ i) : (levWork rn i).coef i = levRefl rn i := by
  rw [levWork_of_pos rn hi, levStep_coef _ _ hi hi, if_neg (lt_irrefl i), if_pos rfl]

/-- Above its order, a vector is 0. -/
theorem levWork_coef_above (rn : List Int) {i j : Nat} (h : i < j) : (levWork rn i).coef j = 0 := by
  cases i with
  | zero => exact levWork_zero_coef rn j
  | succ i => rw [levWork_succ, levStep_coef _ _ (by omega) (by omega), if_neg (by omega), if_neg (by omega)]

/-- The clamp acts in step `i` when it acts on one of its updates. -/
theorem levStep_satA (k : Int) (i : Nat) (w : LevWork) : (levStep k i w).satA = true ↔
    w.satA = true ∨ ∃ j, 1 ≤ j ∧ j < i ∧ clamped 32 (levUpdate k i w j) = true := by
  simp only [levStep, Bool.or_eq_true, List.any_map, List.any_eq_true, List.mem_range, Function.comp_apply]
  refine or_congr_right ⟨?_, ?_⟩
  · rintro ⟨j, hj, hc⟩
    exact ⟨j + 1, by omega, by omega, hc⟩
  · rintro ⟨j, hj, hji, hc⟩
    exact ⟨j - 1, by omega, by rwa [Nat.sub_add_cancel hj]⟩

/-- `SAT_A` collects the clamps of all the steps. -/
theorem levWork_satA (rn : List Int) (d : Nat) : (levWork rn d).satA = true ↔
    ∃ i j, 1 ≤ j ∧ j < i ∧ i ≤ d ∧ clamped 32 (levUpdate (levRefl rn i) i (levWork rn (i - 1)) j) = true := by
  induction d with
  | zero =>
    refine iff_of_false Bool.false_ne_true ?_
    rintro ⟨i, j, hj, hji, hi, -⟩
    omega
  | succ d ih =>
    rw [levWork_succ, levStep_satA, ih]
    constructor
    · rintro (⟨i, j, hj, hji, hi, hc⟩ | ⟨j, hj, hji, hc⟩)
      · exact ⟨i, j, hj, hji, by omega, hc⟩
      · exact ⟨d + 1, j, hj, hji, le_rfl, hc⟩
    · rintro ⟨i, j, hj, hji, hi, hc⟩
      obtain hi | rfl := Nat.le_succ_iff.1 hi
      · exact .inl ⟨i, j, hj, hji, hi, hc⟩
      · exact .inr ⟨j, hj, hji, hc⟩

theorem rshr_nonneg {x : Int} (hx : 0 ≤ x) (n : Nat) : 0 ≤ rshr x n :=
  Int.ediv_nonneg (by positivity) (by positivity)

/-- A step does not raise the error energy, which is reduced by a rounded square's share of it. -/
theorem levStep_energy_le (k : Int) (i : Nat) {w : LevWork} (hw : 0 ≤ w.energy) :
    (levStep k i w).energy ≤ w.energy :=
  sub_le_self _ (rshr_nonneg (mul_nonneg (rshr_nonneg (mul_self_nonneg k) 24) hw) 24)

/-- Step `i` is made and kept: there is energy before it, and its reflection coefficient has magnitude below 1. -/
def StepTaken (rn : List Int) (i : Nat) : Prop :=
  0 < (levWork rn (i - 1)).energy ∧ |levRefl rn i| < 2 ^ 24

/-- The recursion of order `p` ends with order `d`: the steps after `m` up to `d` are taken, and below `p` the energy is
used up or the next reflection coefficient has magnitude 1 or more (40_estimator R162). -/
structure EndsAt (rn : List Int) (m p d : Nat) : Prop where
  le : d ≤ p
  taken : ∀ i, m < i → i ≤ d → StepTaken rn i
  ended : d < p → (levWork rn d).energy ≤ 0 ∨ 2 ^ 24 ≤ |levRefl rn (d + 1)|

/-- From the work of order `m`, with energy left, the loop gives the work of the order at which the recursion ends, with
LDSTOP exactly when that is below `m + n`. -/
theorem levLoop_eq (rn : List Int) (n : Nat) : ∀ m, 0 < (levWork rn m).energy → ∃ d,
    levLoop rn n (m + 1) (levWork rn m) = (levWork rn d).withStop (decide (d < m + n)) ∧
      m ≤ d ∧ EndsAt rn m (m + n) d := by
  induction n with
  | zero =>
    intro m _
    refine ⟨m, ?_, le_rfl, le_rfl, fun i _ _ => by omega, fun h => absurd h (lt_irrefl _)⟩
    rw [levLoop, Nat.add_zero, decide_eq_false (lt_irrefl m), ← levWork_stopped rn m, LevWork.withStop_self]
  | succ n ih =>
    intro m hm
    rw [levLoop, show reflection rn (m + 1) (levWork rn m) = levRefl rn (m + 1) from rfl, ← levWork_succ]
    split_ifs with hbig hused
    case pos =>
      refine ⟨m, by simp [LevWork.withStop], le_rfl, by omega, fun i _ _ => by omega, fun _ => .inr ?_⟩
      rw [Int.abs_eq_natAbs]
      exact_mod_cast hbig
    all_goals
      have hstep : StepTaken rn (m + 1) := ⟨hm, by rw [Int.abs_eq_natAbs]; exact_mod_cast Nat.lt_of_not_le hbig⟩
    case pos =>
      refine ⟨m + 1, ?_, by omega, by omega, fun i hi hi' => ?_, fun _ => .inl hused⟩
      · rcases n with _ | n <;> simp [LevWork.withStop]
      · obtain rfl : i = m + 1 := by omega
        exact hstep
    case neg =>
      obtain ⟨d, heq, hd, hend⟩ := ih (m + 1) (not_le.1 hused)
      rw [show m + 1 + n = m + (n + 1) by omega] at heq hend
      refine ⟨d, heq, by omega, hend.le, fun i hi hi' => ?_, hend.ended⟩
      obtain rfl | hlt := Nat.eq_or_lt_of_le (Nat.succ_le_of_lt hi)
      · exact hstep
      · exact hend.taken i hlt hi'

/-- While steps are taken the energy does not rise. -/
theorem levWork_energy_le {rn : List Int} {d : Nat} (h : ∀ i, 0 < i → i ≤ d → StepTaken rn i) :
    (levWork rn d).energy ≤ rn.getD 0 0 := by
  induction d with
  | zero => exact le_rfl
  | succ d ih =>
    have hpos : 0 < (levWork rn d).energy := (h (d + 1) (by omega) le_rfl).1
    calc (levWork rn (d + 1)).energy ≤ (levWork rn d).energy := levStep_energy_le _ _ hpos.le
      _ ≤ rn.getD 0 0 := ih fun i hi hi' => h i hi (by omega)

/-- Every coefficient of an order reached fits `S32`: an update by its clamp, a reflection coefficient by its bound. -/
theorem levWork_coef_mem {rn : List Int} {d : Nat} (h : ∀ i, 0 < i → i ≤ d → StepTaken rn i) {j : Nat} (hj : 1 ≤ j) :
    -2147483648 ≤ (levWork rn d).coef j ∧ (levWork rn d).coef j ≤ 2147483647 := by
  cases d with
  | zero => rw [levWork_zero_coef]; decide
  | succ d =>
    obtain ⟨-, hrefl⟩ := h (d + 1) (by omega) le_rfl
    rw [abs_lt] at hrefl
    rw [levWork_succ, levStep_coef _ _ (by omega) hj]
    split_ifs
    · exact sat32_mem _
    · omega
    · decide

/-- The sum of the rule over the coefficients `1..i-1` (40_estimator R162). -/
theorem levRefl_eq (rn : List Int) (i : Nat) :
    levRefl rn i = rdiv (-(rn.getD i 0 * 2 ^ 24 +
      ∑ j ∈ Finset.Ico 1 i, (levWork rn (i - 1)).coef j * rn.getD (i - j) 0)) (levWork rn (i - 1)).energy := by
  rw [levRefl, reflection, sumTo_eq_sum, Finset.sum_Ico_eq_sum_range]
  simp only [Nat.add_comm 1]

end Sys2Proof.Machine
end

section
/-! SUPPORT. LEVD: what it completes on silence and on lags a signal can have, and that what it stores is exact
(40_estimator R162). -/

namespace Sys2Proof.Machine

/-- `s` with the zero vector, and RSH, EFIN and LDORD 0. -/
def storeSilence (s : State) : State :=
  { s with a := Vector.replicate 32 0#32, rsh := 0#32, efin := 0#32, ldord := 0#32 }

@[simp] theorem storeSilence_sticky (s : State) : (storeSilence s).sticky = s.sticky := by rw [storeSilence]
@[simp] theorem storeSilence_cmdcnt (s : State) : (storeSilence s).cmdcnt = s.cmdcnt := by rw [storeSilence]
@[simp] theorem storeSilence_ip (s : State) : (storeSilence s).ip = s.ip := by rw [storeSilence]

theorem storeSilence_coef (s : State) (k : Nat) : (storeSilence s).coef k = 0 := by
  rw [State.coef, storeSilence, Vector.getElem?_replicate]
  split_ifs <;> rfl

theorem execLevd_of_silence {s : State} (hcheck : estCheck s = none) (h0 : s.lag 0 = 0) :
    exec .levd s = .next (complete (storeSilence s) .ok [.degen]) := by
  rw [exec, execLevd, hcheck]
  dsimp only
  rw [if_neg (by omega), if_pos h0]
  rfl

/-- `s` with what LEVD stores of the recursion's work. -/
def storeLevWork (s : State) (w : LevWork) : State :=
  { s with
    a := Vector.ofFn fun k : Fin 32 => BitVec.ofInt 32 (w.coef (k.val + 1))
    rsh := BitVec.ofInt 32 (normShift (s.lag 0))
    efin := BitVec.ofInt 32 (max w.energy 0)
    ldord := BitVec.ofNat 32 w.achieved }

theorem execLevd_of_signal {s : State} (hcheck : estCheck s = none) (h0 : 0 < s.lag 0) (h : lagsExceed s = false) :
    exec .levd s = .next (complete (storeLevWork s (levRun s)) .ok
      (flagIf (levRun s).stopped .ldstop ++ flagIf (levRun s).satA .satA)) := by
  rw [exec, execLevd, hcheck]
  dsimp only
  rw [if_neg (by omega), if_neg (by omega), h, if_neg Bool.false_ne_true]
  rfl

@[simp] theorem storeLevWork_sticky (s : State) (w : LevWork) : (storeLevWork s w).sticky = s.sticky := by
  rw [storeLevWork]
@[simp] theorem storeLevWork_cmdcnt (s : State) (w : LevWork) : (storeLevWork s w).cmdcnt = s.cmdcnt := by
  rw [storeLevWork]
@[simp] theorem storeLevWork_ip (s : State) (w : LevWork) : (storeLevWork s w).ip = s.ip := by
  rw [storeLevWork]

theorem storeLevWork_rsh {s : State} (w : LevWork) (h0 : 0 < s.lag 0) :
    (storeLevWork s w).rsh.toInt = normShift (s.lag 0) := by
  have hmem := normShift_lag_mem h0
  exact toInt_ofInt32 (by omega) (by omega)

theorem storeLevWork_coef (s : State) (w : LevWork) {k : Nat} (hk : 1 ≤ k) (hk' : k ≤ 32)
    (hmem : -2147483648 ≤ w.coef k ∧ w.coef k ≤ 2147483647) : (storeLevWork s w).coef k = w.coef k := by
  rw [State.coef, storeLevWork, Vector.getElem?_eq_getElem (by omega), Option.getD_some, Vector.getElem_ofFn,
    Nat.sub_add_cancel hk, toInt_ofInt32 hmem.1 hmem.2]

theorem storeLevWork_efin (s : State) {w : LevWork} (h : w.energy < 2 ^ 31) :
    ((storeLevWork s w).efin.toNat : Int) = max w.energy 0 := by
  rw [storeLevWork, BitVec.toNat_ofInt]
  norm_num
  omega

theorem storeLevWork_ldord (s : State) {w : LevWork} (h : w.achieved ≤ 32) :
    (storeLevWork s w).ldord.toNat = w.achieved := by
  rw [storeLevWork, BitVec.toNat_ofNat, Nat.mod_eq_of_lt (by omega)]

/-- The run on a state's lags gives the work of the order at which its recursion ends, with LDSTOP exactly when that is
below ORDER. -/
theorem levRun_eq {s : State} (h0 : 0 < s.lag 0) : ∃ d,
    levRun s = (levWork (normLags s) d).withStop (decide (d < s.order.toNat)) ∧
      EndsAt (normLags s) 0 s.order.toNat d := by
  have henergy : 0 < (levWork (normLags s) 0).energy := by
    have hmem := normLag_normShift_mem h0
    rw [levWork_zero_energy, normLags_getD s (Nat.zero_le _)]
    omega
  obtain ⟨d, heq, -, hend⟩ := levLoop_eq (normLags s) s.order.toNat 0 henergy
  rw [Nat.zero_add s.order.toNat] at heq hend
  exact ⟨d, heq, hend⟩

end Sys2Proof.Machine
end

section
/-! CERTIFICATE. The statements about the estimator. -/

namespace Sys2Proof.Proofs
open Sys2Proof Sys2Proof.Machine

/-- ACORR's line of the table of what commands write (10_state R67). -/
theorem acorr_writes_only_r {s t : State} (h : exec .acorr s = .next t) :
    t = { s.bookFrom t with r := t.r } ∧ ∀ k, t.byteAt k = s.byteAt k := by
  obtain ⟨hfields, hbytes⟩ := commandsWriteOnlyWhatTheTableLists .acorr s t h
  exact ⟨hfields, fun k => hbytes k nofun⟩

/-- LEVD's line of the table of what commands write (10_state R67). -/
theorem levd_writes_only_prediction {s t : State} (h : exec .levd s = .next t) :
    t = { s.bookFrom t with a := t.a, rsh := t.rsh, efin := t.efin, ldord := t.ldord } ∧
      ∀ k, t.byteAt k = s.byteAt k := by
  obtain ⟨hfields, hbytes⟩ := commandsWriteOnlyWhatTheTableLists .levd s t h
  exact ⟨hfields, fun k => hbytes k nofun⟩

/-- Settles O17: both commands raise what their common check reports, and it reports the length first. -/
theorem estimatorCheckRaises : Obligations.EstimatorCheckRaises := by
  intro s
  have raised : ∀ {e : ErrCode}, estCheck s = some e → Raises .acorr s e ∧ Raises .levd s e := fun h =>
    ⟨raises_of_exec (execAcorr_of_check h), raises_of_exec (execLevd_of_check h)⟩
  exact ⟨fun hlen => raised (estCheck_of_length hlen), fun hlen horder => raised (estCheck_of_order hlen horder)⟩

/-- Settles O18: the sums fit the 64 bits of a lag. -/
theorem acorrWritesTheAutocorrelation : Obligations.AcorrWritesTheAutocorrelation := by
  intro s hlen hpos hmax hlt
  have hcheck := (estCheck_eq_none s).2 ⟨hlen, hpos, hmax, hlt⟩
  have hexec := execAcorr_of_passes hcheck
  refine ⟨_, hexec, completedWith_complete_of_eq _ _ (by simp) (by simp) (by simp), fun k hk => ?sums,
    fun k hk => ?others, acorr_writes_only_r hexec⟩
  case sums => rw [complete_lag, storeLags_lag_of_le hlen hk (by omega), autocorr_eq_sum]
  case others => rw [complete_lag, storeLags_lag_of_lt s hk]

/-- Settles O21: silence is found before the other lags are looked at. -/
theorem levdOfSilenceIsZero : Obligations.LevdOfSilenceIsZero := by
  intro s hlen hpos hmax hlt h0
  have hcheck := (estCheck_eq_none s).2 ⟨hlen, hpos, hmax, hlt⟩
  have hexec := execLevd_of_silence hcheck h0
  refine ⟨_, hexec, completedWith_complete_of_eq _ _ (by simp) (by simp) (by simp),
    fun k => ?coefs, rfl, rfl, rfl, levd_writes_only_prediction hexec⟩
  case coefs => rw [complete_coef, storeSilence_coef]

/-- Settles O22: the energies and vectors are those of the sequence of works, and LDORD is the order at which the loop
leaves it. -/
theorem levdIsTheFixedPointRecursion : Obligations.LevdIsTheFixedPointRecursion := by
  intro s hlen hpos hmax hlt h0 hlags
  have hcheck := (estCheck_eq_none s).2 ⟨hlen, hpos, hmax, hlt⟩
  obtain ⟨d, hrun, hend⟩ := levRun_eq h0
  obtain ⟨hlow, hhigh⟩ := normLag_normShift_mem h0
  rw [← normLags_getD s (Nat.zero_le _)] at hlow hhigh
  have hexec := execLevd_of_signal hcheck h0 (lagsExceed_eq_false hlags)
  generalize levRun s = w at hrun hexec
  have hldord : (storeLevWork s w).ldord.toNat = d := by
    rw [storeLevWork_ldord s (by simpa [hrun] using hend.le.trans hmax), hrun, LevWork.withStop_achieved,
      levWork_achieved]
  have hcoef : ∀ k, w.coef k = (levWork (normLags s) d).coef k := fun k => by rw [hrun, LevWork.withStop_coef]
  have henergy : w.energy = (levWork (normLags s) d).energy := by rw [hrun, LevWork.withStop_energy]
  have hstopped : w.stopped = decide (d < s.order.toNat) := by rw [hrun, LevWork.withStop_stopped]
  refine ⟨_, fun k => (normLags s).getD k 0, fun i => (levWork (normLags s) i).energy,
    fun i => (levWork (normLags s) i).coef, levRefl (normLags s), w.satA, hexec, fun k hk => ?lags, hlow, hhigh, rfl,
    levWork_zero_coef _, fun i _ _ => levRefl_eq _ i, ?_⟩
  case lags =>
    rw [complete_rsh, storeLevWork_rsh w h0, ← normLag_eq_floor]
    exact normLags_getD s hk
  rw [complete_ldord, hldord]
  refine ⟨fun i hi hid => ?step, hend.le, hend.ended, ?sat, ?flags, fun k hk hk' => ?coefs, ?energy,
    levd_writes_only_prediction hexec⟩
  case step =>
    obtain ⟨hpositive, hrefl⟩ := hend.taken i hi hid
    exact ⟨hpositive, hrefl, fun j hj hji => levWork_coef_below _ hj hji, levWork_coef_self _ hi,
      fun j => levWork_coef_above _, levWork_energy _ hi⟩
  case sat => rw [hrun, LevWork.withStop_satA, levWork_satA]; rfl
  case flags => rw [← hstopped]; exact completedWith_complete_of_eq _ _ (by simp) (by simp) (by simp)
  case coefs =>
    rw [complete_coef, storeLevWork_coef s w hk hk' (hcoef k ▸ levWork_coef_mem hend.taken hk), hcoef]
    split_ifs with hkd
    · rfl
    · exact levWork_coef_above _ (not_le.1 hkd)
  case energy =>
    have hle := levWork_energy_le hend.taken
    rw [complete_efin, storeLevWork_efin s (by omega), henergy]

end Sys2Proof.Proofs
end

section
/-! SUPPORT. The transforms over the integers: the rounding shift undoes the scaling, the clamp and the shift are
monotonic, and how far a dequantized value is from the one that was quantized (41_quantizer R190 to R192, R196). -/

namespace Sys2Proof.Machine

theorem rshr_mono {x y : Int} (h : x ≤ y) (n : Nat) : rshr x n ≤ rshr y n :=
  Int.ediv_le_ediv (by positivity) (by omega)

theorem sat16_mono {v w : Int} (h : v ≤ w) : sat 16 v ≤ sat 16 w := by
  rw [sat16_eq, sat16_eq]; split_ifs <;> omega

/-- The half that the shift adds is lost on a multiple of `2^n` (00_scope R13). -/
theorem rshr_mul_two_pow (q : Int) {n : Nat} (hn : 1 ≤ n) : rshr (q * 2 ^ n) n = q := by
  have hhalf : (2 : Int) ^ (n - 1) / 2 ^ n = 0 :=
    Int.ediv_eq_zero_of_lt (by positivity) (pow_lt_pow_right₀ (by norm_num) (by omega))
  rw [rshr, Int.add_comm, Int.add_mul_ediv_right _ _ (by positivity), hhalf, Int.zero_add]

theorem qcoef_dqcoef {q : Int} (h : -32768 ≤ q) (h' : q ≤ 32767) : qcoef (dqcoef q) = q := by
  rw [qcoef, dqcoef, rshr_mul_two_pow q (by norm_num), sat16_of_mem h h']

theorem qres_dqres {q : Int} (h : -32768 ≤ q) (h' : q ≤ 32767) : qres (dqres q * 2 ^ 24) = q := by
  rw [qres, dqres, rshr_mul_two_pow q (by norm_num), sat16_of_mem h h']

/-- Without the clamp the error is that of the rounding, at most half a step of `2^9`. -/
theorem abs_dqcoef_qcoef_sub_le_of_not_clamped {v : Int} (h : clamped 16 (rshr v 9) = false) :
    |dqcoef (qcoef v) - v| ≤ 256 := by
  have hunclamped : sat 16 (rshr v 9) = rshr v 9 := by simpa [clamped] using h
  rw [dqcoef, qcoef, hunclamped, rshr9_eq, abs_le]
  omega

/-- Below magnitude 1 the clamp acts only on a value that rounds up to 1. -/
theorem rshr9_eq_of_clamped {v : Int} (hv : |v| < 2 ^ 24) (h : clamped 16 (rshr v 9) = true) : rshr v 9 = 32768 := by
  rw [clamped16_iff, rshr9_eq] at h
  rw [abs_lt] at hv
  rw [rshr9_eq]
  omega

/-- A value that rounds up to 1 is at least half a step, and less than a whole one, above the greatest element of the
grid (41_quantizer R196). -/
theorem abs_dqcoef_qcoef_sub_le_of_clamped {v : Int} (hv : |v| < 2 ^ 24) (h : clamped 16 (rshr v 9) = true) :
    |dqcoef (qcoef v) - v| ≤ 511 := by
  have hround := rshr9_eq_of_clamped hv h
  have hgrid : dqcoef (qcoef v) = 2 ^ 24 - 512 := by rw [dqcoef, qcoef, hround]; decide
  rw [rshr9_eq] at hround
  rw [abs_lt] at hv
  rw [hgrid, abs_le]
  omega

theorem qcoef_mono {v w : Int} (h : v ≤ w) : qcoef v ≤ qcoef w := sat16_mono (rshr_mono h 9)

theorem qres_mono {v w : Int} (h : v ≤ w) : qres v ≤ qres w := sat16_mono (rshr_mono h 24)

end Sys2Proof.Machine
end

section
/-! SUPPORT. The check of the order, and what QCOEF and DQCOEF store (41_quantizer R193 to R195). -/

namespace Sys2Proof.Machine

theorem orderCheck_of_order {s : State} (h : s.order.toNat = 0 ∨ 32 < s.order.toNat) :
    orderCheck s = some .invalidOrder :=
  if_pos h

theorem lengthCheck_of_length {len : Word} {cap : Nat} (h : cap < len.toNat) :
    lengthCheck len cap = some .invalidLength :=
  if_pos h

theorem execQcoef_of_check {s : State} {e : ErrCode} (h : orderCheck s = some e) :
    exec .qcoef s = .next (raise s e) := by
  rw [exec, execQcoef, h]

theorem execDqcoef_of_check {s : State} {e : ErrCode}
    (h : firstOf (orderCheck s) (lengthCheck s.clen Config.pmax) = some e) :
    exec .dqcoef s = .next (raise s e) := by
  rw [exec, execDqcoef, h]

/-- `s` with what QCOEF stores. -/
def storeQcoef (s : State) : State :=
  { s with
    qc := Vector.ofFn fun k : Fin 32 =>
      if k.val < s.order.toNat then BitVec.ofInt 16 (qcoef (s.coef (k.val + 1))) else 0#16
    clen := s.order
    qovf := satCount s.qovf (coefClamps s s.order.toNat) }

@[simp] theorem storeQcoef_sticky (s : State) : (storeQcoef s).sticky = s.sticky := by rw [storeQcoef]
@[simp] theorem storeQcoef_cmdcnt (s : State) : (storeQcoef s).cmdcnt = s.cmdcnt := by rw [storeQcoef]
@[simp] theorem storeQcoef_ip (s : State) : (storeQcoef s).ip = s.ip := by rw [storeQcoef]
@[simp] theorem storeQcoef_clen (s : State) : (storeQcoef s).clen = s.order := by rw [storeQcoef]

theorem storeQcoef_qovf (s : State) :
    (storeQcoef s).qovf.toNat = min (s.qovf.toNat + coefClamps s s.order.toNat) (2 ^ 32 - 1) :=
  satCount_toNat _ _

theorem storeQcoef_qcHalf (s : State) {k : Nat} (hk : 1 ≤ k) (hk' : k ≤ 32) :
    ((storeQcoef s).qcHalf k).toInt = if k ≤ s.order.toNat then sat 16 (rshr (s.coef k) 9) else 0 := by
  rw [State.qcHalf, storeQcoef, Vector.getElem?_eq_getElem (by omega), Option.getD_some, Vector.getElem_ofFn,
    Nat.sub_add_cancel hk]
  by_cases hreach : k ≤ s.order.toNat
  · obtain ⟨hlow, hhigh⟩ := sat16_mem (rshr (s.coef k) 9)
    rw [if_pos (show k - 1 < s.order.toNat by omega), if_pos hreach, qcoef, toInt_ofInt16 hlow hhigh]
  · rw [if_neg (show ¬ k - 1 < s.order.toNat by omega), if_neg hreach, BitVec.toInt_zero]

theorem execQcoef_of_passes {s : State} (h : orderCheck s = none) :
    exec .qcoef s = .next (complete (storeQcoef s) .ok (flagIf (0 < coefClamps s s.order.toNat) .qovf)) := by
  have hflag : (coefClamps s s.order.toNat != 0) = decide (0 < coefClamps s s.order.toNat) := by
    rw [Bool.eq_iff_iff, bne_iff_ne, decide_eq_true_iff, Nat.pos_iff_ne_zero]
  rw [exec, execQcoef, h, ← hflag]
  rfl

/-- How often a test holds below `n` is the size of the set it picks out. -/
theorem countP_range_eq_card (n : Nat) {p : Nat → Bool} {q : Nat → Prop} [DecidablePred q]
    (h : ∀ k, p k = true ↔ q k) : (List.range n).countP p = ((Finset.range n).filter q).card := by
  have hp : p = fun k => decide (q k) := funext fun k => by rw [Bool.eq_iff_iff, h, decide_eq_true_iff]
  rw [hp, List.countP_eq_length_filter]
  rfl

/-- The clamps are the coefficients whose rounded value leaves the range of `S16`. -/
theorem coefClamps_eq_card (s : State) (p : Nat) : coefClamps s p = ((Finset.range p).filter fun k =>
    rshr (s.coef (k + 1)) 9 < -32768 ∨ 32767 < rshr (s.coef (k + 1)) 9).card :=
  countP_range_eq_card p fun _ => clamped16_iff _

/-- `s` with what DQCOEF stores. -/
def storeDqcoef (s : State) : State :=
  { s with a := Vector.ofFn fun k : Fin 32 =>
      if k.val < s.order.toNat ∧ k.val < s.clen.toNat then BitVec.ofInt 32 (dqcoef (s.qcHalf (k.val + 1)).toInt)
      else 0#32 }

@[simp] theorem storeDqcoef_sticky (s : State) : (storeDqcoef s).sticky = s.sticky := by rw [storeDqcoef]
@[simp] theorem storeDqcoef_cmdcnt (s : State) : (storeDqcoef s).cmdcnt = s.cmdcnt := by rw [storeDqcoef]
@[simp] theorem storeDqcoef_ip (s : State) : (storeDqcoef s).ip = s.ip := by rw [storeDqcoef]

/-- A dequantized `S16` value fits 32 bits. -/
theorem storeDqcoef_coef (s : State) {k : Nat} (hk : 1 ≤ k) (hk' : k ≤ 32) : (storeDqcoef s).coef k =
    if k ≤ s.order.toNat ∧ k ≤ s.clen.toNat then (s.qcHalf k).toInt * 2 ^ 9 else 0 := by
  rw [State.coef, storeDqcoef, Vector.getElem?_eq_getElem (by omega), Option.getD_some, Vector.getElem_ofFn,
    Nat.sub_add_cancel hk]
  by_cases hreach : k ≤ s.order.toNat ∧ k ≤ s.clen.toNat
  · have hrange := toInt16_mem (s.qcHalf k)
    rw [if_pos (show k - 1 < s.order.toNat ∧ k - 1 < s.clen.toNat by omega), if_pos hreach, dqcoef,
      toInt_ofInt32 (by omega) (by omega)]
  · rw [if_neg (show ¬ (k - 1 < s.order.toNat ∧ k - 1 < s.clen.toNat) by omega), if_neg hreach, BitVec.toInt_zero]

theorem execDqcoef_of_passes {s : State} (h : firstOf (orderCheck s) (lengthCheck s.clen Config.pmax) = none) :
    exec .dqcoef s = .next (complete (storeDqcoef s) .ok (flagIf (s.clen ≠ s.order) .degraded)) := by
  have hflag : (s.clen != s.order) = decide (s.clen ≠ s.order) := by
    rw [Bool.eq_iff_iff, bne_iff_ne, decide_eq_true_iff]
  rw [exec, execDqcoef, h, ← hflag]
  rfl

end Sys2Proof.Machine
end

section
/-! CERTIFICATE. The statements about the quantizer. -/

namespace Sys2Proof.Proofs
open Sys2Proof Sys2Proof.Machine

/-- QCOEF's line of the table of what commands write (10_state R67). -/
theorem qcoef_writes_only_quantized {s t : State} (h : exec .qcoef s = .next t) :
    t = { s.bookFrom t with qc := t.qc, clen := t.clen, qovf := t.qovf } ∧ ∀ k, t.byteAt k = s.byteAt k := by
  obtain ⟨hfields, hbytes⟩ := commandsWriteOnlyWhatTheTableLists .qcoef s t h
  exact ⟨hfields, fun k => hbytes k nofun⟩

/-- DQCOEF's line of the table of what commands write (10_state R67). -/
theorem dqcoef_writes_only_a {s t : State} (h : exec .dqcoef s = .next t) :
    t = { s.bookFrom t with a := t.a } ∧ ∀ k, t.byteAt k = s.byteAt k := by
  obtain ⟨hfields, hbytes⟩ := commandsWriteOnlyWhatTheTableLists .dqcoef s t h
  exact ⟨hfields, fun k => hbytes k nofun⟩

/-- Settles O24: the error is that of the rounding, except where the clamp takes back a rounding up to 1. -/
theorem quantizersRoundTripAndAreMonotonic : Obligations.QuantizersRoundTripAndAreMonotonic := by
  refine ⟨fun q h h' => ⟨qcoef_dqcoef h h', qres_dqres h h'⟩,
    fun v hv => ⟨?error, abs_dqcoef_qcoef_sub_le_of_not_clamped⟩, by decide,
    fun v w h => ⟨qcoef_mono h, qres_mono h⟩⟩
  case error =>
    cases hclamp : clamped 16 (rshr v 9) with
    | false => exact (abs_dqcoef_qcoef_sub_le_of_not_clamped hclamp).trans (by norm_num)
    | true => exact abs_dqcoef_qcoef_sub_le_of_clamped hv hclamp

/-- Settles O25: a clamped value fits the 16 bits of an element of QC. -/
theorem qcoefQuantizesTheCoefficients : Obligations.QcoefQuantizesTheCoefficients := by
  refine ⟨(legalWordsAreExactlySeventeen _ _).2 (by decide), fun s => ⟨fun horder => ?raises, fun hpos hmax => ?_⟩⟩
  case raises => exact raises_of_exec (execQcoef_of_check (orderCheck_of_order horder))
  intro clamps
  have hclamps : coefClamps s s.order.toNat = clamps := coefClamps_eq_card s s.order.toNat
  have hexec := execQcoef_of_passes ((orderCheck_eq_none s).2 ⟨hpos, hmax⟩)
  rw [hclamps] at hexec
  refine ⟨_, hexec, completedWith_complete_of_eq _ _ (by simp) (by simp) (by simp), fun k hk hk' => ?values,
    by simp, ?counter, qcoef_writes_only_quantized hexec⟩
  case values => rw [complete_qcHalf, storeQcoef_qcHalf s hk hk']
  case counter => rw [complete_qovf, storeQcoef_qovf, hclamps]

/-- Settles O26: a dequantized `S16` value fits the 32 bits of an element of A. -/
theorem dqcoefDequantizesTheCoefficients : Obligations.DqcoefDequantizesTheCoefficients := by
  refine ⟨(legalWordsAreExactlySeventeen _ _).2 (by decide), fun s => ⟨fun horder => ?badOrder,
    fun hpos hmax hlen => ?badLength, fun hpos hmax hlen => ?_⟩⟩
  case badOrder =>
    exact raises_of_exec (execDqcoef_of_check (by rw [orderCheck_of_order horder, firstOf]))
  case badLength =>
    have horder := (orderCheck_eq_none s).2 ⟨hpos, hmax⟩
    exact raises_of_exec (execDqcoef_of_check (by rw [horder, firstOf, lengthCheck_of_length hlen]))
  have hexec := execDqcoef_of_passes
    ((firstOf_eq_none _ _).2 ⟨(orderCheck_eq_none s).2 ⟨hpos, hmax⟩, (lengthCheck_eq_none _ _).2 hlen⟩)
  refine ⟨_, hexec, completedWith_complete_of_eq _ _ (by simp) (by simp) (by simp), fun k hk hk' => ?values,
    dqcoef_writes_only_a hexec⟩
  case values => rw [complete_coef, storeDqcoef_coef s hk hk']

end Sys2Proof.Proofs
end

section
/-! SUPPORT. What ANALYZE and SYNTH share: the checks in their order, the rounded prediction from the samples that
exist, and the clamped samples of a buffer (42_filter R211, R212). -/

namespace Sys2Proof.Machine

theorem filterCheck_of_length {s : State} {len : Word} (h : 65536 < len.toNat) :
    firstOf (lengthCheck len Config.nmax) (orderCheck s) = some .invalidLength := by
  rw [lengthCheck_of_length h, firstOf]

/-- The order is looked at only when the length fits. -/
theorem filterCheck_of_order {s : State} {len : Word} (hlen : len.toNat ≤ 65536)
    (h : s.order.toNat = 0 ∨ 32 < s.order.toNat) :
    firstOf (lengthCheck len Config.nmax) (orderCheck s) = some .invalidOrder := by
  rw [(lengthCheck_eq_none _ _).2 hlen, firstOf, orderCheck_of_order h]

theorem filterCheck_of_legal {s : State} {len : Word} (hlen : len.toNat ≤ 65536) (hpos : 1 ≤ s.order.toNat)
    (hmax : s.order.toNat ≤ 32) : firstOf (lengthCheck len Config.nmax) (orderCheck s) = none :=
  (firstOf_eq_none _ _).2 ⟨(lengthCheck_eq_none _ _).2 hlen, (orderCheck_eq_none s).2 ⟨hpos, hmax⟩⟩

/-- The prediction of sample `n` of `y`, rounded, over the history that exists. -/
def prediction (coef y : Nat → Int) (p n : Nat) : Int :=
  rshr (∑ k ∈ Finset.Icc 1 (min p n), coef k * y (n - k)) 24

/-- The pseudocode's sum over `j < n` is the rule's sum over `k = j + 1` from 1 to `n`. -/
theorem sumTo_eq_sum_Icc (n : Nat) (f : Nat → Int) : (sumTo n fun j => f (j + 1)) = ∑ k ∈ Finset.Icc 1 n, f k := by
  induction n with
  | zero => rfl
  | succ n ih => rw [sumTo, ih, Finset.sum_Icc_succ_top (by omega)]

theorem residualAt_eq (s : State) (n : Nat) :
    residualAt s n = s.sample n + prediction s.coef s.sample s.order.toNat n := by
  rw [residualAt, prediction, sumTo_eq_sum_Icc _ fun k => s.coef k * s.sample (n - k)]

/-- A prediction depends on the coefficients up to the order and on the earlier samples only. -/
theorem prediction_congr {coef coef' y y' : Nat → Int} {p n : Nat} (hcoef : ∀ k, 1 ≤ k → k ≤ p → coef k = coef' k)
    (hy : ∀ i < n, y i = y' i) : prediction coef y p n = prediction coef' y' p n := by
  rw [prediction, prediction]
  congr 1
  refine Finset.sum_congr rfl fun k hk => ?_
  obtain ⟨hone, hle⟩ := Finset.mem_Icc.1 hk
  rw [hcoef k hone (by omega), hy (n - k) (by omega)]

/-- A flag is set by a scan exactly when the scan counts something. -/
theorem any_eq_decide_countP_pos {α : Type} (p : α → Bool) (l : List α) : l.any p = decide (0 < l.countP p) := by
  rw [Bool.eq_iff_iff, List.any_eq_true, decide_eq_true_iff, List.countP_pos_iff]

/-- The clamped samples are those that leave the range of `S16`. -/
theorem countP_clamped_map_range (n : Nat) (f : Nat → Int) : ((List.range n).map f).countP (clamped 16) =
    ((Finset.range n).filter fun i => f i < -32768 ∨ 32767 < f i).card := by
  rw [List.countP_map]
  exact countP_range_eq_card n fun i => clamped16_iff (f i)

/-- A clamped value stored in a buffer reads back. -/
theorem toInt_half_storeInts_sat (m : Memory) (base : Nat) {vs : List Int} {n : Nat} (h : n < vs.length) :
    ((storeInts m base (vs.map (sat 16))).half (base + n)).toInt = sat 16 (vs.getD n 0) := by
  obtain ⟨hlow, hhigh⟩ := sat16_mem vs[n]
  rw [half_storeInts, if_pos (Nat.le_add_right base n), Nat.add_sub_cancel_left, List.getElem?_map, List.getElem?_map,
    List.getElem?_eq_getElem h, List.getD_eq_getElem vs 0 h]
  exact toInt_ofInt16 hlow hhigh

/-- The bytes that no stored value stands in are left alone. -/
theorem byteAt_storeInts_of_outside (m : Memory) {base j : Nat} {vs : List Int}
    (h : ∀ n < vs.length, j ≠ 4 * (base + n) ∧ j ≠ 4 * (base + n) + 1) :
    (storeInts m base vs).byteAt j = m.byteAt j :=
  Memory.byteAt_setHalves_of_outside _ _ _ _ (by rwa [List.length_map])

end Sys2Proof.Machine
end

section
/-! SUPPORT. What ANALYZE stores (42_filter R211). -/

namespace Sys2Proof.Machine

theorem execAnalyze_of_check {s : State} {e : ErrCode}
    (h : firstOf (lengthCheck s.len Config.nmax) (orderCheck s) = some e) : exec .analyze s = .next (raise s e) := by
  rw [exec, execAnalyze, h]

/-- `s` with what ANALYZE stores. -/
def storeResidual (s : State) : State :=
  { s with
    mem := storeInts s.mem qeBase ((residual s).map (sat 16))
    elen := s.len
    qovf := satCount s.qovf ((residual s).countP (clamped 16)) }

@[simp] theorem storeResidual_sticky (s : State) : (storeResidual s).sticky = s.sticky := by rw [storeResidual]
@[simp] theorem storeResidual_cmdcnt (s : State) : (storeResidual s).cmdcnt = s.cmdcnt := by rw [storeResidual]
@[simp] theorem storeResidual_ip (s : State) : (storeResidual s).ip = s.ip := by rw [storeResidual]
@[simp] theorem storeResidual_elen (s : State) : (storeResidual s).elen = s.len := by rw [storeResidual]

theorem storeResidual_qovf (s : State) :
    (storeResidual s).qovf.toNat = min (s.qovf.toNat + (residual s).countP (clamped 16)) (2 ^ 32 - 1) :=
  satCount_toNat _ _

@[simp] theorem length_residual (s : State) : (residual s).length = s.len.toNat := by simp [residual]

theorem storeResidual_qeHalf {s : State} {n : Nat} (hn : n < s.len.toNat) :
    ((storeResidual s).qeHalf n).toInt = sat 16 (residualAt s n) := by
  rw [State.qeHalf, storeResidual, toInt_half_storeInts_sat _ _ (by rwa [length_residual]), residual,
    List.getD_eq_getElem _ _ (by simpa using hn), List.getElem_map, List.getElem_range]

theorem storeResidual_byteAt_of_outside {s : State} {k : Nat}
    (h : ∀ n < s.len.toNat, k ≠ 4 * (qeBase + n) ∧ k ≠ 4 * (qeBase + n) + 1) :
    (storeResidual s).byteAt k = s.byteAt k :=
  byteAt_storeInts_of_outside s.mem (by rwa [List.length_map, length_residual])

theorem execAnalyze_of_passes {s : State} (h : firstOf (lengthCheck s.len Config.nmax) (orderCheck s) = none) :
    exec .analyze s =
      .next (complete (storeResidual s) .ok (flagIf (0 < (residual s).countP (clamped 16)) .qovf)) := by
  rw [exec, execAnalyze, h, ← any_eq_decide_countP_pos]
  rfl

/-- The clamps are counted over the residuals as the rule writes them. -/
theorem countP_clamped_residual (s : State) : (residual s).countP (clamped 16) =
    ((Finset.range s.len.toNat).filter fun n =>
      s.sample n + prediction s.coef s.sample s.order.toNat n < -32768 ∨
        32767 < s.sample n + prediction s.coef s.sample s.order.toNat n).card := by
  simp only [residual, countP_clamped_map_range, residualAt_eq]

end Sys2Proof.Machine
end

section
/-! SUPPORT. The synthesis loop satisfies its own equation, and what SYNTH stores (42_filter R212). -/

namespace Sys2Proof.Machine

/-- The loop with its accumulator: `y` is a sequence whose samples before `n` are `ys`, newest first, and whose later
ones are the loop's outputs, clamped. Each output then is its residual sample less the prediction from `y`. -/
theorem synthLoop_getD (coef y : Nat → Int) (p : Nat) : ∀ (es : List Int) (n : Nat) (ys : List Int),
    (∀ j < n, ys.getD j 0 = y (n - (j + 1))) →
    (∀ i < es.length, y (n + i) = sat 16 ((synthLoop coef p es n ys).getD i 0)) →
    ∀ i < es.length, (synthLoop coef p es n ys).getD i 0 = es.getD i 0 - prediction coef y p (n + i) := by
  intro es
  induction es with
  | nil => intro n ys _ _ i hi; exact absurd hi (Nat.not_lt_zero i)
  | cons e es ih =>
    intro n ys hpast hnext i hi
    have hsum : (sumTo (min p n) fun j => coef (j + 1) * ys.getD j 0) =
        ∑ k ∈ Finset.Icc 1 (min p n), coef k * y (n - k) := by
      rw [← sumTo_eq_sum_Icc]
      exact sumTo_congr fun j hj => by rw [hpast j (by omega)]
    rw [synthLoop, hsum, ← prediction] at hnext ⊢
    cases i with
    | zero => rfl
    | succ i =>
      have hy : y n = sat 16 (e - prediction coef y p n) := hnext 0 (Nat.succ_pos _)
      rw [← hy] at hnext ⊢
      have hshift : ∀ i, n + (i + 1) = n + 1 + i := fun i => by omega
      rw [List.getD_cons_succ, List.getD_cons_succ, hshift i]
      refine ih (n + 1) (y n :: ys) (fun j hj => ?past) (fun j hj => ?next) i (Nat.lt_of_succ_lt_succ hi)
      case past =>
        cases j with
        | zero => rfl
        | succ j => rw [List.getD_cons_succ, hpast j (by omega), Nat.add_sub_add_right]
      case next =>
        rw [← hshift, hnext (j + 1) (Nat.succ_lt_succ hj), List.getD_cons_succ]

theorem execSynth_of_check {s : State} {e : ErrCode}
    (h : firstOf (lengthCheck s.elen Config.nmax) (orderCheck s) = some e) : exec .synth s = .next (raise s e) := by
  rw [exec, execSynth, h]

/-- `s` with what SYNTH stores. -/
def storeReconstruction (s : State) : State :=
  { s with
    mem := storeInts s.mem yBase ((reconstruction s).map (sat 16))
    ylen := s.elen
    ysat := satCount s.ysat ((reconstruction s).countP (clamped 16)) }

@[simp] theorem storeReconstruction_sticky (s : State) : (storeReconstruction s).sticky = s.sticky := by
  rw [storeReconstruction]
@[simp] theorem storeReconstruction_cmdcnt (s : State) : (storeReconstruction s).cmdcnt = s.cmdcnt := by
  rw [storeReconstruction]
@[simp] theorem storeReconstruction_ip (s : State) : (storeReconstruction s).ip = s.ip := by rw [storeReconstruction]
@[simp] theorem storeReconstruction_ylen (s : State) : (storeReconstruction s).ylen = s.elen := by
  rw [storeReconstruction]

theorem storeReconstruction_ysat (s : State) : (storeReconstruction s).ysat.toNat =
    min (s.ysat.toNat + (reconstruction s).countP (clamped 16)) (2 ^ 32 - 1) :=
  satCount_toNat _ _

@[simp] theorem length_reconstruction (s : State) : (reconstruction s).length = s.elen.toNat := by
  simp [reconstruction]

theorem storeReconstruction_recon_getD {s : State} {n : Nat} (hn : n < s.elen.toNat) :
    (storeReconstruction s).recon n = sat 16 ((reconstruction s).getD n 0) := by
  rw [State.recon, storeReconstruction, toInt_half_storeInts_sat _ _ (by rwa [length_reconstruction])]

theorem storeReconstruction_byteAt_of_outside {s : State} {k : Nat}
    (h : ∀ n < s.elen.toNat, k ≠ 4 * (yBase + n) ∧ k ≠ 4 * (yBase + n) + 1) :
    (storeReconstruction s).byteAt k = s.byteAt k :=
  byteAt_storeInts_of_outside s.mem (by rwa [List.length_map, length_reconstruction])

theorem execSynth_of_passes {s : State} (h : firstOf (lengthCheck s.elen Config.nmax) (orderCheck s) = none) :
    exec .synth s =
      .next (complete (storeReconstruction s) .ok (flagIf (0 < (reconstruction s).countP (clamped 16)) .satY)) := by
  rw [exec, execSynth, h, ← any_eq_decide_countP_pos]
  rfl

/-- The output of the all-pole filter before its clamp, the stored outputs fed back. -/
def outputAt (s : State) (n : Nat) : Int :=
  (s.qeHalf n).toInt - prediction s.coef (storeReconstruction s).recon s.order.toNat n

/-- The loop starts from rest, so its equation holds of the stored outputs from the first on. -/
theorem reconstruction_eq_map (s : State) : reconstruction s = (List.range s.elen.toNat).map (outputAt s) := by
  refine List.ext_getElem (by simp) fun n hn _ => ?_
  rw [length_reconstruction] at hn
  have hloop := synthLoop_getD s.coef (storeReconstruction s).recon s.order.toNat
    ((List.range s.elen.toNat).map fun i => (s.qeHalf i).toInt) 0 [] (fun j hj => absurd hj (Nat.not_lt_zero j))
    (fun i hi => ?stored) n (by simpa using hn)
  case stored =>
    rw [Nat.zero_add, ← reconstruction, storeReconstruction_recon_getD (by simpa using hi)]
  rw [← reconstruction, Nat.zero_add, List.getD_eq_getElem _ _ (by simpa using hn),
    List.getD_eq_getElem _ _ (by simpa using hn), List.getElem_map, List.getElem_range] at hloop
  rw [hloop, List.getElem_map, List.getElem_range, outputAt]

theorem storeReconstruction_recon {s : State} {n : Nat} (hn : n < s.elen.toNat) :
    (storeReconstruction s).recon n = sat 16 (outputAt s n) := by
  rw [storeReconstruction_recon_getD hn, reconstruction_eq_map, List.getD_eq_getElem _ _ (by simpa using hn),
    List.getElem_map, List.getElem_range]

/-- The clamps are counted over the outputs as the rule writes them. -/
theorem countP_clamped_reconstruction (s : State) : (reconstruction s).countP (clamped 16) =
    ((Finset.range s.elen.toNat).filter fun n => outputAt s n < -32768 ∨ 32767 < outputAt s n).card := by
  rw [reconstruction_eq_map, countP_clamped_map_range]

end Sys2Proof.Machine
end

section
/-! SUPPORT. SYNTH undoes ANALYZE when no residual sample was clamped (42_filter R213). -/

namespace Sys2Proof.Machine

/-- ANALYZE's flag QOVF is bit 16 of RESULT. -/
theorem getLsbD_resultWord_qovf (c : Bool) : (resultWord .ok (flagIf c .qovf)).getLsbD 16 = c := by
  cases c <;> decide

theorem clamped_sample (s : State) (n : Nat) : clamped 16 (s.sample n) = false := by
  obtain ⟨hlow, hhigh⟩ := toInt16_mem (s.mem.half (xBase + n))
  rw [Bool.eq_false_iff, ne_eq, clamped16_iff, State.sample]
  omega

/-- A sample is in the range of `S16`, so the clamp leaves it. -/
theorem sat_sample (s : State) (n : Nat) : sat 16 (s.sample n) = s.sample n := by
  simpa [clamped] using clamped_sample s n

/-- Without the flag QOVF every stored residual is the unclamped one. -/
theorem qeHalf_of_analyze_without_qovf {s t : State}
    (hcheck : firstOf (lengthCheck s.len Config.nmax) (orderCheck s) = none) (hexec : exec .analyze s = .next t)
    (hflag : t.result.getLsbD 16 = false) {n : Nat} (hn : n < s.len.toNat) :
    (t.qeHalf n).toInt = residualAt s n := by
  rw [execAnalyze_of_passes hcheck] at hexec
  obtain rfl := Host.Outcome.next.inj hexec
  rw [complete_result, getLsbD_resultWord_qovf, ← any_eq_decide_countP_pos, List.any_eq_false] at hflag
  have hclamp : clamped 16 (residualAt s n) ≠ true :=
    hflag _ (List.mem_map_of_mem (List.mem_range.2 hn))
  rw [complete_qeHalf, storeResidual_qeHalf hn]
  simpa [clamped] using hclamp

section Inverse
variable {s u : State} (horder : u.order = s.order)
  (hcoef : ∀ k, 1 ≤ k → k ≤ s.order.toNat → u.coef k = s.coef k)
  (hqe : ∀ n < s.len.toNat, (u.qeHalf n).toInt = residualAt s n)
include horder hcoef hqe

/-- Both filters predict a sample alike when the outputs before it are the signal. -/
theorem outputAt_eq_sample {n : Nat} (hn : n < s.len.toNat)
    (hpast : ∀ i < n, (storeReconstruction u).recon i = s.sample i) : outputAt u n = s.sample n := by
  rw [outputAt, hqe n hn, residualAt_eq, horder, prediction_congr hcoef hpast, add_sub_cancel_right]

variable (helen : u.elen = s.len)
include helen

/-- By strong induction on the sample: the outputs fed back so far are the signal's own samples. -/
theorem storeReconstruction_recon_eq_sample : ∀ n < s.len.toNat, (storeReconstruction u).recon n = s.sample n := by
  intro n
  induction n using Nat.strong_induction_on with
  | h n ih =>
    intro hn
    rw [storeReconstruction_recon (helen ▸ hn),
      outputAt_eq_sample horder hcoef hqe hn fun i hi => ih i hi (hi.trans hn), sat_sample]

/-- The outputs are the signal's samples before the clamp too, so none is clamped. -/
theorem countP_clamped_reconstruction_eq_zero : (reconstruction u).countP (clamped 16) = 0 := by
  rw [reconstruction_eq_map, List.countP_eq_zero]
  intro v hv
  obtain ⟨n, hn, rfl⟩ := List.mem_map.1 hv
  rw [List.mem_range, helen] at hn
  rw [outputAt_eq_sample horder hcoef hqe hn fun i hi =>
    storeReconstruction_recon_eq_sample horder hcoef hqe helen i (hi.trans hn), clamped_sample]
  exact Bool.false_ne_true

end Inverse

end Sys2Proof.Machine
end

section
/-! CERTIFICATE. The statements about the predictive filter pair. -/

namespace Sys2Proof.Proofs
open Sys2Proof Sys2Proof.Machine

/-- Settles O27: a clamped value fits the 16 bits of an element of QE. -/
theorem analyzeWritesTheResidual : Obligations.AnalyzeWritesTheResidual := by
  refine ⟨(legalWordsAreExactlySeventeen _ _).2 (by decide), fun s => ⟨fun hlen => ?badLength,
    fun hlen horder => ?badOrder, fun hlen hpos hmax => ?_⟩⟩
  case badLength => exact raises_of_exec (execAnalyze_of_check (filterCheck_of_length hlen))
  case badOrder => exact raises_of_exec (execAnalyze_of_check (filterCheck_of_order hlen horder))
  intro res clamps
  have hclamps : (residual s).countP (clamped 16) = clamps := countP_clamped_residual s
  have hexec := execAnalyze_of_passes (filterCheck_of_legal hlen hpos hmax)
  rw [hclamps] at hexec
  refine ⟨_, hexec, completedWith_complete_of_eq _ _ (by simp) (by simp) (by simp), fun n hn => ?values,
    by simp, ?counter, (commandsWriteOnlyWhatTheTableLists .analyze s _ hexec).1, fun k hk => ?bytes⟩
  case values => rw [complete_qeHalf, storeResidual_qeHalf hn, residualAt_eq]; rfl
  case counter => rw [complete_qovf, storeResidual_qovf, hclamps]
  case bytes => rw [complete_byteAt, storeResidual_byteAt_of_outside hk]

/-- Settles O28: the loop's equation holds of the outputs that it stored. -/
theorem synthWritesTheReconstruction : Obligations.SynthWritesTheReconstruction := by
  refine ⟨(legalWordsAreExactlySeventeen _ _).2 (by decide), fun s => ⟨fun hlen => ?badLength,
    fun hlen horder => ?badOrder, fun hlen hpos hmax => ?_⟩⟩
  case badLength => exact raises_of_exec (execSynth_of_check (filterCheck_of_length hlen))
  case badOrder => exact raises_of_exec (execSynth_of_check (filterCheck_of_order hlen horder))
  have hexec := execSynth_of_passes (filterCheck_of_legal hlen hpos hmax)
  refine ⟨_, hexec, ?_⟩
  intro out clamps
  have hclamps : (reconstruction s).countP (clamped 16) = clamps := countP_clamped_reconstruction s
  refine ⟨?flag, fun n hn => ?values, by simp, ?counter,
    (commandsWriteOnlyWhatTheTableLists .synth s _ hexec).1, fun k hk => ?bytes⟩
  case flag => rw [← hclamps]; exact completedWith_complete_of_eq _ _ (by simp) (by simp) (by simp)
  case values => rw [complete_recon, storeReconstruction_recon hn]; rfl
  case counter => rw [complete_ysat, storeReconstruction_ysat, hclamps]
  case bytes => rw [complete_byteAt, storeReconstruction_byteAt_of_outside hk]

/-- Settles O29: no residual was clamped, so the prediction that ANALYZE added is the one that SYNTH takes away. -/
theorem synthInvertsAnalyze : Obligations.SynthInvertsAnalyze := by
  intro s t u hlen hpos hmax hexec hflag horder hcoef helen hqe
  have hresidual : ∀ n < s.len.toNat, (u.qeHalf n).toInt = residualAt s n := fun n hn => by
    rw [hqe n hn, qeHalf_of_analyze_without_qovf (filterCheck_of_legal hlen hpos hmax) hexec hflag hn]
  have hcheck : firstOf (lengthCheck u.elen Config.nmax) (orderCheck u) = none :=
    filterCheck_of_legal (helen ▸ hlen) (horder ▸ hpos) (horder ▸ hmax)
  refine ⟨_, execSynth_of_passes hcheck, fun n hn => ?values, ?result⟩
  case values => rw [complete_recon, storeReconstruction_recon_eq_sample horder hcoef hresidual helen n hn]
  case result =>
    rw [complete_result, countP_clamped_reconstruction_eq_zero horder hcoef hresidual helen]
    rfl

end Sys2Proof.Proofs
end

section
/-! SUPPORT. Bit sequences as numbers, and the entry of the code table that holds one (43_entropy R233, R236, R237). -/

namespace Sys2Proof.Machine

/-- A bit sequence read on from a number already read, the next bit less significant. -/
def appendBits (n : Nat) (p : List Bool) : Nat := p.foldl (fun n b => 2 * n + b.toNat) n

@[simp] theorem appendBits_nil (n : Nat) : appendBits n [] = n := rfl

@[simp] theorem appendBits_cons (n : Nat) (b : Bool) (p : List Bool) :
    appendBits n (b :: p) = appendBits (2 * n + b.toNat) p := rfl

theorem appendBits_zero (p : List Bool) : appendBits 0 p = bitValue p := rfl

@[simp] theorem bitValue_nil : bitValue [] = 0 := rfl

@[simp] theorem bitValue_concat (p : List Bool) (b : Bool) : bitValue (p ++ [b]) = 2 * bitValue p + b.toNat := by
  simp [bitValue]

theorem bitValue_lt (p : List Bool) : bitValue p < 2 ^ p.length := by
  induction p using List.reverseRecOn with
  | nil => exact Nat.one_pos
  | append_singleton p b ih =>
    have hbit := Bool.toNat_le b
    rw [bitValue_concat, List.length_append, List.length_singleton, pow_succ]
    omega

/-- Bit `length - 1 - i` of the number is the `i`-th of the sequence. -/
theorem testBit_bitValue (p : List Bool) {i : Nat} (hi : i < p.length) :
    (bitValue p).testBit (p.length - 1 - i) = p[i] := by
  induction p using List.reverseRecOn with
  | nil => exact absurd hi (Nat.not_lt_zero i)
  | append_singleton p b ih =>
    rw [List.length_append, List.length_singleton] at hi
    simp only [bitValue_concat, List.length_append, List.length_singleton, Nat.add_sub_cancel]
    obtain hlt | rfl : i < p.length ∨ i = p.length := by omega
    · have hhalf : (2 * bitValue p + b.toNat) / 2 = bitValue p := by have := Bool.toNat_lt b; omega
      rw [List.getElem_append_left hlt, ← ih hlt, show p.length - i = p.length - 1 - i + 1 by omega,
        Nat.testBit_succ, hhalf]
    · cases b <;> simp [Nat.testBit_zero]

theorem getElem_bits (e : CodeEntry) {i : Nat} (hi : i < e.bits.length) :
    e.bits[i] = e.code.getLsbD (e.len.toNat - 1 - i) := by
  simp [CodeEntry.bits]

/-- The entry that holds the codeword `p`. -/
def entryOf (p : List Bool) : CodeEntry := ⟨BitVec.ofNat 6 p.length, BitVec.ofNat 32 (bitValue p)⟩

section EntryOf
variable {p : List Bool} (h : p.length ≤ 32)
include h

/-- A codeword of at most 32 bits fits the 6 bits of its length. -/
theorem entryOf_len : (entryOf p).len.toNat = p.length := by
  rw [entryOf, BitVec.toNat_ofNat, Nat.mod_eq_of_lt (by omega)]

theorem entryOf_code : (entryOf p).code.toNat = bitValue p := by
  have hvalue : bitValue p < 2 ^ 32 := (bitValue_lt p).trans_le (Nat.pow_le_pow_right (by decide) h)
  rw [entryOf, BitVec.toNat_ofNat, Nat.mod_eq_of_lt hvalue]

theorem entryOf_bits : (entryOf p).bits = p := by
  refine List.ext_getElem (by rw [length_codeEntry_bits, entryOf_len h]) fun i _ hi => ?_
  rw [← testBit_bitValue p hi, ← entryOf_code h, ← entryOf_len h, getElem_bits]
  rfl

end EntryOf

/-- The bits of an entry are its code below its length, read as a number (10_state R62). -/
theorem bitValue_bits (e : CodeEntry) : bitValue e.bits = e.code.toNat % 2 ^ e.len.toNat := by
  have hlen : e.bits.length = e.len.toNat := length_codeEntry_bits e
  refine Nat.eq_of_testBit_eq fun j => ?_
  rw [Nat.testBit_mod_two_pow]
  by_cases hj : j < e.len.toNat
  · have hplace : e.len.toNat - 1 - (e.len.toNat - 1 - j) = j := by omega
    have hbit := testBit_bitValue e.bits (i := e.len.toNat - 1 - j) (by omega)
    simp only [hlen, hplace] at hbit
    rw [hbit, getElem_bits, hplace, decide_eq_true hj, Bool.true_and]
    rfl
  · have hvalue : bitValue e.bits < 2 ^ j :=
      (hlen ▸ bitValue_lt e.bits).trans_le (Nat.pow_le_pow_right (by decide) (Nat.not_lt.1 hj))
    rw [Nat.testBit_lt_two_pow hvalue, decide_eq_false hj, Bool.false_and]

/-- Sequences of one length that read as one number are equal. -/
theorem eq_of_bitValue_eq {p q : List Bool} (hlen : p.length = q.length) (h : bitValue p = bitValue q) : p = q := by
  refine List.ext_getElem hlen fun i hp hq => ?_
  rw [← testBit_bitValue p hp, ← testBit_bitValue q hq, hlen, h]

end Sys2Proof.Machine
end

section
/-! SUPPORT. The trees of the merge rule: their symbols, weights and costs, their paths, and that the codewords are the
paths (43_entropy R232, R233). -/

namespace Sys2Proof.Machine
open HTree

/-- The symbols of the leaves, from left to right. -/
def HTree.symbols : HTree → List Nat
  | .leaf s => [s]
  | .node l r => l.symbols ++ r.symbols

/-- The most steps from the root to a leaf. -/
def HTree.depth : HTree → Nat
  | .leaf _ => 0
  | .node l r => max l.depth r.depth + 1

/-- The weight of a tree whose leaves weigh `w`. -/
def HTree.weight (w : Nat → Nat) : HTree → Nat
  | .leaf s => w s
  | .node l r => l.weight w + r.weight w

/-- The weights of all the merged nodes together: what the tree's codewords cost in bits. -/
def HTree.cost (w : Nat → Nat) : HTree → Nat
  | .leaf _ => 0
  | .node l r => l.cost w + r.cost w + (l.weight w + r.weight w)

/-- The codewords are those of the leaves, one for each. -/
theorem map_fst_codewords (t : HTree) : ∀ len code, (t.codewords len code).map Prod.fst = t.symbols := by
  induction t with
  | leaf s => intro _ _; rfl
  | node l r ihl ihr => intro _ _; rw [codewords, List.map_append, ihl, ihr, symbols]

/-- A codeword is the path to the leaf of its symbol (43_entropy R233). -/
theorem exists_path_of_mem_codewords {t : HTree} {c : Nat × Nat × Nat} : ∀ {len code : Nat},
    c ∈ t.codewords len code → ∃ p, t.Path c.1 p ∧ c.2 = (len + p.length, appendBits code p) := by
  induction t with
  | leaf s =>
    intro len code hc
    obtain rfl := List.mem_singleton.1 hc
    exact ⟨[], .leaf s, rfl⟩
  | node l r ihl ihr =>
    intro len code hc
    obtain hc | hc := List.mem_append.1 hc
    · obtain ⟨p, hp, hcode⟩ := ihl hc
      exact ⟨false :: p, .left l r _ p hp, by simp [hcode]; omega⟩
    · obtain ⟨p, hp, hcode⟩ := ihr hc
      exact ⟨true :: p, .right l r _ p hp, by simp [hcode]; omega⟩

/-- The total of the codewords' lengths, each as often as its symbol's weight, is the tree's cost. -/
theorem sum_codewords_length (w : Nat → Nat) (t : HTree) : ∀ len code,
    ((t.codewords len code).map fun c => w c.1 * c.2.1).sum = t.cost w + t.weight w * len := by
  induction t with
  | leaf s => intro len code; simp [codewords, cost, weight]
  | node l r ihl ihr =>
    intro len code
    rw [codewords, List.map_append, List.sum_append, ihl, ihr, cost, weight]
    ring

theorem HTree.Path.length_le_depth {t : HTree} {s : Nat} {p : List Bool} (h : t.Path s p) : p.length ≤ t.depth := by
  induction h with
  | leaf s => exact Nat.le_refl 0
  | left l r s p _ ih => exact Nat.succ_le_succ (ih.trans (Nat.le_max_left _ _))
  | right l r s p _ ih => exact Nat.succ_le_succ (ih.trans (Nat.le_max_right _ _))

/-- A path ends at a leaf, so no path goes on where another ended (43_entropy R260 (a)). -/
theorem HTree.Path.eq_of_prefix {t : HTree} {s s' : Nat} {p q : List Bool} (hp : t.Path s p) (hq : t.Path s' q)
    (h : p <+: q) : s = s' := by
  induction hp generalizing q with
  | leaf s => cases hq; rfl
  | left l r s p _ ih =>
    cases hq with
    | left _ _ _ q hq => exact ih hq (List.cons_prefix_cons.1 h).2
    | right _ _ _ q hq => exact absurd (List.cons_prefix_cons.1 h).1 Bool.false_ne_true
  | right l r s p _ ih =>
    cases hq with
    | left _ _ _ q hq => exact absurd (List.cons_prefix_cons.1 h).1.symm Bool.false_ne_true
    | right _ _ _ q hq => exact ih hq (List.cons_prefix_cons.1 h).2

/-- Only in a tree that is a leaf is the empty path one. -/
theorem symbols_of_path_nil {t : HTree} {s : Nat} (h : t.Path s []) : t.symbols = [s] := by
  cases h
  rfl

end Sys2Proof.Machine
end

section
/-! SUPPORT. What merging keeps, by induction on the merges: the symbols and weights of the active nodes, the Fibonacci
bound on the depth (43_entropy R261) and the bound of the cost by that of a fixed-length code (R260 (d)). -/

namespace Sys2Proof.Machine

/-- The total weight of a set of active nodes. -/
def totalWeight (ns : Multiset HNode) : Nat := (ns.map HNode.weight).sum

@[simp] theorem totalWeight_zero : totalWeight 0 = 0 := rfl

@[simp] theorem totalWeight_cons (n : HNode) (ns : Multiset HNode) :
    totalWeight (n ::ₘ ns) = n.weight + totalWeight ns := by
  simp [totalWeight]

@[simp] theorem totalWeight_singleton (n : HNode) : totalWeight {n} = n.weight := by
  simp [totalWeight]

theorem before_iff (u v : HNode) :
    u.before v = true ↔ u.weight < v.weight ∨ (u.weight = v.weight ∧ u.index < v.index) := by
  simp [HNode.before]

theorem weight_le_of_before {u v : HNode} (h : u.before v = true) : u.weight ≤ v.weight := by
  rw [before_iff] at h
  omega

/-- The symbols of all the leaves below the active nodes. -/
def symbolsBelow (ns : Multiset HNode) : Multiset Nat := ns.bind fun n => (n.tree.symbols : Multiset Nat)

/-- The merges keep the leaves. -/
theorem Merges.symbols_eq {ns : Multiset HNode} {idx : Nat} {tree : HTree} (h : Merges ns idx tree) :
    (tree.symbols : Multiset Nat) = symbolsBelow ns := by
  induction h with
  | root n idx => simp [symbolsBelow]
  | merge u v rest idx tree _ _ _ ih =>
    rw [ih]
    simp [symbolsBelow, HTree.symbols, ← Multiset.coe_add, add_assoc]

/-- Every active node weighs what its depth asks for, and what the depth of any other active node asks for less one. -/
def FibonacciBound (ns : Multiset HNode) : Prop :=
  ∀ n ∈ ns, Nat.fib (n.tree.depth + 2) ≤ n.weight ∧ ∀ m ∈ ns, Nat.fib (n.tree.depth + 1) ≤ m.weight

/-- The deeper of the two nodes merged gives one Fibonacci number and the other node the one before it. -/
theorem fibonacciBound_merge {u v : HNode} {rest : Multiset HNode} (idx : Nat)
    (hu : ∀ x ∈ v ::ₘ rest, u.before x = true) (hv : ∀ x ∈ rest, v.before x = true)
    (h : FibonacciBound (u ::ₘ v ::ₘ rest)) :
    FibonacciBound (⟨u.weight + v.weight, idx, .node u.tree v.tree⟩ ::ₘ rest) := by
  obtain ⟨huOwn, huOther⟩ := h u (by simp)
  obtain ⟨hvOwn, hvOther⟩ := h v (by simp)
  have huv := weight_le_of_before (hu v (by simp))
  have huv' := huOther v (by simp)
  have hvu' := hvOther u (by simp)
  have hfib : ∀ d, Nat.fib (d + 3) = Nat.fib (d + 1) + Nat.fib (d + 2) := fun d => Nat.fib_add_two
  have hmerged : Nat.fib (max u.tree.depth v.tree.depth + 3) ≤ u.weight + v.weight ∧
      Nat.fib (max u.tree.depth v.tree.depth + 2) ≤ v.weight := by
    obtain hmax | hmax := max_choice u.tree.depth v.tree.depth
    · rw [hmax, hfib]
      omega
    · rw [hmax, hfib]
      omega
  obtain ⟨hown, hdeeper⟩ := hmerged
  intro n hn
  obtain rfl | hn := Multiset.mem_cons.1 hn
  · refine ⟨hown, fun m hm => ?_⟩
    obtain rfl | hm := Multiset.mem_cons.1 hm
    · exact hdeeper.trans (Nat.le_add_left _ _)
    · exact hdeeper.trans (weight_le_of_before (hv m hm))
  · obtain ⟨hnOwn, hnOther⟩ := h n (by simp [hn])
    refine ⟨hnOwn, fun m hm => ?_⟩
    obtain rfl | hm := Multiset.mem_cons.1 hm
    · exact (hnOther u (by simp)).trans (Nat.le_add_right _ _)
    · exact hnOther m (by simp [hm])

/-- A deep tree is heavy: the Fibonacci bound of the root (43_entropy R261). -/
theorem Merges.fib_depth_le {ns : Multiset HNode} {idx : Nat} {tree : HTree} (h : Merges ns idx tree)
    (hns : FibonacciBound ns) : Nat.fib (tree.depth + 2) ≤ totalWeight ns := by
  induction h with
  | root n idx => simpa using (hns n (by simp)).1
  | merge u v rest idx tree hu hv _ ih =>
    have := ih (fibonacciBound_merge idx hu hv hns)
    simpa [add_assoc] using this

/-- Whichever nodes are chosen, one of them can be given up for the least node of all at no gain in weight. -/
theorem exists_le_without_least {u : HNode} {rest D : Multiset HNode} (hu : ∀ x ∈ rest, u.weight ≤ x.weight)
    (hD : D ≤ u ::ₘ rest) (hpos : 0 < D.card) :
    ∃ D' ≤ rest, D'.card + 1 = D.card ∧ u.weight + totalWeight D' ≤ totalWeight D := by
  by_cases hmem : u ∈ D
  · obtain ⟨D', rfl⟩ := Multiset.exists_cons_of_mem hmem
    exact ⟨D', (Multiset.cons_le_cons_iff u).1 hD, by simp, by simp⟩
  · have hrest : D ≤ rest := (Multiset.le_cons_of_notMem hmem).1 hD
    obtain ⟨x, hx⟩ := Multiset.card_pos_iff_exists_mem.1 hpos
    obtain ⟨D', rfl⟩ := Multiset.exists_cons_of_mem hx
    exact ⟨D', (Multiset.le_cons_self D' x).trans hrest, by simp,
      by simpa using hu x (Multiset.mem_of_le hrest hx)⟩

/-- A tree built from active nodes costs at most a code which gives `k + 1` bits to the nodes in `D` and `k` bits to the
others, whenever the nodes are few enough that pairing those of `D` would leave at most `2 ^ k`. -/
def CostBound (w : Nat → Nat) (ns : Multiset HNode) (tree : HTree) : Prop :=
  ∀ (k : Nat) (D : Multiset HNode), D ≤ ns → 2 * ns.card ≤ 2 * 2 ^ k + D.card →
    tree.cost w ≤ (ns.map fun n => n.tree.cost w).sum + k * totalWeight ns + totalWeight D

/-- A merge takes two nodes no heavier than two of `D`, and their cost is what the code gives those two in bits beyond
`k`. -/
theorem cost_le_of_merge {w : Nat → Nat} {u v : HNode} {rest D : Multiset HNode} {idx k : Nat} {tree : HTree}
    (hu : ∀ x ∈ v ::ₘ rest, u.before x = true) (hv : ∀ x ∈ rest, v.before x = true)
    (huw : u.tree.weight w = u.weight) (hvw : v.tree.weight w = v.weight)
    (h : CostBound w (⟨u.weight + v.weight, idx, .node u.tree v.tree⟩ ::ₘ rest) tree) (hD : D ≤ u ::ₘ v ::ₘ rest)
    (htwo : 2 ≤ D.card) (hcard : 2 * (u ::ₘ v ::ₘ rest).card ≤ 2 * 2 ^ k + D.card) :
    tree.cost w ≤ ((u ::ₘ v ::ₘ rest).map fun n => n.tree.cost w).sum + k * totalWeight (u ::ₘ v ::ₘ rest)
      + totalWeight D := by
  obtain ⟨D₁, hD₁, hcard₁, hweight₁⟩ :=
    exists_le_without_least (fun x hx => weight_le_of_before (hu x hx)) hD (by omega)
  obtain ⟨D₂, hD₂, hcard₂, hweight₂⟩ :=
    exists_le_without_least (fun x hx => weight_le_of_before (hv x hx)) hD₁ (by omega)
  have hmerged := h k D₂ (hD₂.trans (Multiset.le_cons_self _ _)) (by simp at hcard ⊢; omega)
  simp only [Multiset.map_cons, Multiset.sum_cons, totalWeight_cons, HTree.cost, huw, hvw] at hmerged ⊢
  rw [← add_assoc u.weight]
  omega

/-- By induction on the merges; when `D` has no two nodes left, all the nodes have codewords of `k` bits, and these are
one bit beyond `k - 1` (43_entropy R260 (d)). -/
theorem Merges.costBound {w : Nat → Nat} {ns : Multiset HNode} {idx : Nat} {tree : HTree} (h : Merges ns idx tree)
    (hw : ∀ n ∈ ns, n.tree.weight w = n.weight) : CostBound w ns tree := by
  induction h with
  | root n idx =>
    intro k D _ _
    simp only [Multiset.map_singleton, Multiset.sum_singleton]
    omega
  | merge u v rest idx tree hu hv _ ih =>
    have huw : u.tree.weight w = u.weight := hw u (by simp)
    have hvw : v.tree.weight w = v.weight := hw v (by simp)
    have hmerged := ih fun n hn => by
      obtain rfl | hn := Multiset.mem_cons.1 hn
      · rw [HTree.weight, huw, hvw]
      · exact hw n (by simp [hn])
    intro k D hD hcard
    by_cases htwo : 2 ≤ D.card
    · exact cost_le_of_merge hu hv huw hvw hmerged hD htwo hcard
    · cases k with
      | zero =>
        simp only [Multiset.card_cons] at hcard
        omega
      | succ k =>
        have hall := cost_le_of_merge (k := k) hu hv huw hvw hmerged le_rfl (by simp)
          (by rw [pow_succ] at hcard; omega)
        rw [Nat.succ_mul]
        omega

end Sys2Proof.Machine
end

section
/-! SUPPORT. The active nodes in the order of the merge rule, and that the model's merges are those of the rule
(43_entropy R232). -/

namespace Sys2Proof.Machine

theorem before_trans {u v x : HNode} (h : u.before v = true) (h' : v.before x = true) : u.before x = true := by
  rw [before_iff] at *
  omega

/-- The order is total on nodes of different indices. -/
theorem before_of_not_before {u v : HNode} (hne : u.index ≠ v.index) (h : ¬ u.before v = true) :
    v.before u = true := by
  rw [before_iff] at *
  omega

theorem activate_perm (n : HNode) (us : List HNode) : (activate n us).Perm (n :: us) := by
  induction us with
  | nil => exact .refl _
  | cons u us ih =>
    rw [activate]
    split
    · exact (ih.cons u).trans (.swap n u us)
    · exact .refl _

/-- A list of active nodes, the least first. -/
abbrev Ascending (us : List HNode) : Prop := us.Pairwise fun u v => u.before v = true

theorem ascending_activate {n : HNode} {us : List HNode} (h : Ascending us) (hne : ∀ u ∈ us, u.index ≠ n.index) :
    Ascending (activate n us) := by
  induction us with
  | nil => exact List.pairwise_singleton _ n
  | cons u us ih =>
    obtain ⟨hu, hus⟩ := List.pairwise_cons.1 h
    rw [activate]
    split
    next hbefore =>
      refine List.pairwise_cons.2 ⟨fun x hx => ?_, ih hus fun x hx => hne x (List.mem_cons_of_mem u hx)⟩
      obtain rfl | hx := List.mem_cons.1 ((activate_perm n us).mem_iff.1 hx)
      · exact hbefore
      · exact hu x hx
    next hbefore =>
      have hn : n.before u = true := before_of_not_before (hne u List.mem_cons_self) hbefore
      refine List.pairwise_cons.2 ⟨fun x hx => ?_, h⟩
      obtain rfl | hx := List.mem_cons.1 hx
      · exact hn
      · exact before_trans hn (hu x hx)

/-- Nodes of different indices made active one by one are the same nodes in ascending order. -/
theorem foldr_activate (ns : List HNode) (h : (ns.map HNode.index).Nodup) :
    (ns.foldr activate []).Perm ns ∧ Ascending (ns.foldr activate []) := by
  induction ns with
  | nil => exact ⟨.refl _, .nil⟩
  | cons n ns ih =>
    obtain ⟨hn, hns⟩ := List.nodup_cons.1 h
    obtain ⟨hperm, hasc⟩ := ih hns
    refine ⟨(activate_perm n _).trans (hperm.cons n), ascending_activate hasc fun u hu heq => hn ?_⟩
    exact heq ▸ List.mem_map_of_mem (hperm.mem_iff.1 hu)

/-- One merge less than there are nodes leaves the root of the tree that the merge rule builds. -/
theorem mergeNodes_merges : ∀ (fuel idx : Nat) (us : List HNode), us.length = fuel + 1 → Ascending us →
    (∀ u ∈ us, u.index < idx) →
    ∃ root, mergeNodes fuel idx us = [root] ∧ Merges (us : Multiset HNode) idx root.tree := by
  intro fuel
  induction fuel with
  | zero =>
    intro idx us hlen _ _
    obtain ⟨u, rfl⟩ := List.length_eq_one_iff.1 hlen
    exact ⟨u, rfl, .root u idx⟩
  | succ fuel ih =>
    intro idx us hlen hasc hidx
    obtain ⟨u, v, rest, rfl⟩ : ∃ u v rest, us = u :: v :: rest := by
      match us, hlen with
      | u :: v :: rest, _ => exact ⟨u, v, rest, rfl⟩
    obtain ⟨hu, hasc⟩ := List.pairwise_cons.1 hasc
    obtain ⟨hv, hrest⟩ := List.pairwise_cons.1 hasc
    have hidxRest : ∀ x ∈ rest, x.index < idx := fun x hx => hidx x (by simp [hx])
    obtain ⟨root, hroot, hmerges⟩ := ih (idx + 1)
      (activate ⟨u.weight + v.weight, idx, .node u.tree v.tree⟩ rest)
      (by rw [(activate_perm _ rest).length_eq]; simpa using hlen)
      (ascending_activate hrest fun x hx => (hidxRest x hx).ne)
      fun x hx => by
        obtain rfl | hx := List.mem_cons.1 ((activate_perm _ rest).mem_iff.1 hx)
        · exact Nat.lt_succ_self idx
        · exact (hidxRest x hx).trans (Nat.lt_succ_self idx)
    rw [Multiset.coe_eq_coe.2 (activate_perm _ rest)] at hmerges
    exact ⟨root, hroot, .merge u v rest idx root.tree (by simpa using hu) (by simpa using hv) hmerges⟩

end Sys2Proof.Machine
end

section
/-! SUPPORT. The counts of an array, its distinct symbols, and the codewords that HBUILD derives from them: none, the one
codeword "0", or the paths of the tree (43_entropy R231 to R234). -/

namespace Sys2Proof.Machine

/-- How often the byte of value `s` occurs: the weight of the leaf `s` (43_entropy R232). -/
def byteCount (bs : List Byte) (s : Nat) : Nat := bs.count (BitVec.ofNat 8 s)

@[simp] theorem byteCount_toNat (bs : List Byte) (b : Byte) : byteCount bs b.toNat = bs.count b := by
  simp [byteCount]

theorem countBytes_getD (bs : List Byte) {s : Nat} (hs : s < 256) : (countBytes bs).getD s 0 = byteCount bs s := by
  simp [countBytes, byteCount, hs]

/-- The symbols that occur, in ascending order (43_entropy R231). -/
def distinctSymbols (bs : List Byte) : List Nat := (List.range 256).filter fun s => 0 < byteCount bs s

theorem lt_of_mem_distinctSymbols {bs : List Byte} {s : Nat} (h : s ∈ distinctSymbols bs) : s < 256 :=
  List.mem_range.1 (List.mem_filter.1 h).1

theorem mem_distinctSymbols {bs : List Byte} {s : Nat} : s ∈ distinctSymbols bs ↔ ∃ b ∈ bs, b.toNat = s := by
  rw [distinctSymbols, List.mem_filter, List.mem_range, decide_eq_true_iff, byteCount, List.count_pos_iff]
  constructor
  · rintro ⟨hs, hmem⟩
    exact ⟨_, hmem, by rw [BitVec.toNat_ofNat, Nat.mod_eq_of_lt hs]⟩
  · rintro ⟨b, hb, rfl⟩
    exact ⟨b.isLt, by simpa using hb⟩

theorem nodup_distinctSymbols (bs : List Byte) : (distinctSymbols bs).Nodup := List.nodup_range.filter _

theorem distinctSymbols_perm (bs : List Byte) : (distinctSymbols bs).Perm (bs.dedup.map BitVec.toNat) := by
  refine (List.perm_ext_iff_of_nodup (nodup_distinctSymbols bs)
    (bs.nodup_dedup.map fun _ _ h => BitVec.eq_of_toNat_eq h)).2 fun s => ?_
  rw [mem_distinctSymbols, List.mem_map]
  simp

theorem length_distinctSymbols (bs : List Byte) : (distinctSymbols bs).length = bs.toFinset.card := by
  rw [(distinctSymbols_perm bs).length_eq, List.length_map, List.card_toFinset]

theorem distinctCount_countBytes (bs : List Byte) : distinctCount (countBytes bs) = bs.toFinset.card := by
  rw [← length_distinctSymbols, distinctCount, countBytes, List.countP_map, List.countP_eq_length_filter,
    distinctSymbols]
  congr 1
  refine List.filter_congr fun s _ => ?_
  rw [Bool.eq_iff_iff, Function.comp_apply, bne_iff_ne, decide_eq_true_iff, byteCount, Nat.pos_iff_ne_zero]

/-- The leaf of a symbol, with the index and weight of 43_entropy R232. -/
def leafOf (bs : List Byte) (s : Nat) : HNode := ⟨byteCount bs s, s, .leaf s⟩

theorem leavesOf_eq (bs : List Byte) : leavesOf bs = (distinctSymbols bs).map (leafOf bs) := rfl

theorem activeLeaves_countBytes (bs : List Byte) : activeLeaves (countBytes bs) = (leavesOf bs).foldr activate [] := by
  have hsymbols : ((List.range 256).filter fun s => (countBytes bs).getD s 0 != 0) = distinctSymbols bs := by
    refine List.filter_congr fun s hs => ?_
    rw [countBytes_getD bs (List.mem_range.1 hs), Bool.eq_iff_iff, bne_iff_ne, decide_eq_true_iff,
      Nat.pos_iff_ne_zero]
  have hleaves : (distinctSymbols bs).map (fun s => HNode.mk ((countBytes bs).getD s 0) s (.leaf s)) = leavesOf bs :=
    List.map_congr_left fun s hs => by rw [countBytes_getD bs (lt_of_mem_distinctSymbols hs)]; rfl
  rw [activeLeaves, hsymbols, ← hleaves, List.foldr_map]

theorem activeLeaves_ascending (bs : List Byte) :
    (activeLeaves (countBytes bs)).Perm (leavesOf bs) ∧ Ascending (activeLeaves (countBytes bs)) := by
  rw [activeLeaves_countBytes]
  refine foldr_activate _ ?_
  simpa [leavesOf_eq, Function.comp_def, leafOf] using nodup_distinctSymbols bs

theorem index_lt_of_mem_leavesOf {bs : List Byte} {n : HNode} (h : n ∈ leavesOf bs) : n.index < 256 := by
  obtain ⟨s, hs, rfl⟩ := List.mem_map.1 h
  exact lt_of_mem_distinctSymbols hs

/-- The three ways of 43_entropy R233 and R234 to derive the codewords: none for an empty array, the codeword "0" for a
single symbol, else those of the tree that the merge rule builds. -/
theorem codewordsOf_cases (bs : List Byte) :
    (bs = [] ∧ codewordsOf (countBytes bs) = []) ∨
    (∃ b, bs.toFinset = {b} ∧ codewordsOf (countBytes bs) = [(b.toNat, 1, 0)]) ∨
    (2 ≤ bs.toFinset.card ∧ ∃ tree, Merges (leavesOf bs : Multiset HNode) 256 tree ∧
      codewordsOf (countBytes bs) = tree.codewords 0 0) := by
  obtain ⟨hperm, hasc⟩ := activeLeaves_ascending bs
  have hlen : (activeLeaves (countBytes bs)).length = bs.toFinset.card := by
    rw [hperm.length_eq, leavesOf_eq, List.length_map, length_distinctSymbols]
  rcases hactive : activeLeaves (countBytes bs) with _ | ⟨u, _ | ⟨v, rest⟩⟩
  · rw [hactive] at hlen
    have hempty : bs.toFinset = ∅ := Finset.card_eq_zero.1 hlen.symm
    exact .inl ⟨List.toFinset_eq_empty_iff bs |>.1 hempty, by rw [codewordsOf, hactive]⟩
  · rw [hactive] at hlen hperm
    obtain ⟨b, hb⟩ := Finset.card_eq_one.1 hlen.symm
    have hu : u.index = b.toNat := by
      obtain ⟨s, hs, rfl⟩ := List.mem_map.1 (hperm.mem_iff.1 (List.mem_singleton_self u))
      obtain ⟨c, hc, rfl⟩ := mem_distinctSymbols.1 hs
      have hcb : c ∈ bs.toFinset := List.mem_toFinset.2 hc
      rw [hb, Finset.mem_singleton] at hcb
      rw [hcb]
    exact .inr (.inl ⟨b, hb, by rw [codewordsOf, hactive, ← hu]⟩)
  · obtain ⟨root, hroot, hmerges⟩ := mergeNodes_merges (rest.length + 1) 256 (u :: v :: rest) rfl (hactive ▸ hasc)
      fun x hx => index_lt_of_mem_leavesOf (hperm.mem_iff.1 (hactive ▸ hx))
    rw [Multiset.coe_eq_coe.2 (hactive ▸ hperm)] at hmerges
    refine .inr (.inr ⟨?_, root.tree, hmerges, ?_⟩)
    · rw [← hlen, hactive]
      exact Nat.le_add_left 2 _
    · simp [codewordsOf, hactive, hroot]

end Sys2Proof.Machine
end

section
/-! SUPPORT. The derived codewords: one for each symbol that occurs, their length (43_entropy R261) and their total
(R260 (d)). -/

namespace Sys2Proof.Machine

/-- The leaves weigh what the counts say, which is the array's length in all. -/
theorem totalWeight_leavesOf (bs : List Byte) : totalWeight (leavesOf bs : Multiset HNode) = bs.length := by
  have hcounts : totalWeight (leavesOf bs : Multiset HNode) = ((distinctSymbols bs).map (byteCount bs)).sum := by
    rw [totalWeight, leavesOf_eq, Multiset.map_coe, Multiset.sum_coe, List.map_map]
    rfl
  rw [hcounts, ((distinctSymbols_perm bs).map _).sum_eq, List.map_map, ← List.sum_map_count_dedup_eq_length bs]
  simp [Function.comp_def]

theorem symbolsBelow_leavesOf (bs : List Byte) :
    symbolsBelow (leavesOf bs : Multiset HNode) = (distinctSymbols bs : Multiset Nat) := by
  rw [leavesOf_eq, ← Multiset.map_coe, symbolsBelow, Multiset.bind_map]
  exact (Multiset.bind_singleton _ id).trans (Multiset.map_id _)

theorem fibonacciBound_leavesOf (bs : List Byte) : FibonacciBound (leavesOf bs : Multiset HNode) := by
  have hpos : ∀ n ∈ leavesOf bs, 1 ≤ n.weight ∧ n.tree.depth = 0 := fun n hn => by
    obtain ⟨s, hs, rfl⟩ := List.mem_map.1 hn
    exact ⟨of_decide_eq_true (List.mem_filter.1 hs).2, rfl⟩
  intro n hn
  obtain ⟨hweight, hdepth⟩ := hpos n hn
  rw [hdepth]
  exact ⟨hweight, fun m hm => (hpos m hm).1⟩

section Tree
variable {bs : List Byte} {tree : HTree} (h : Merges (leavesOf bs : Multiset HNode) 256 tree)
include h

theorem Merges.symbols_perm : tree.symbols.Perm (distinctSymbols bs) :=
  Multiset.coe_eq_coe.1 (h.symbols_eq.trans (symbolsBelow_leavesOf bs))

/-- The arrays hold at most 131072 bytes, fewer than the Fibonacci number 196418 (43_entropy R261). -/
theorem Merges.depth_le (hlen : bs.length ≤ 131072) : tree.depth ≤ 24 := by
  have hfib := h.fib_depth_le (fibonacciBound_leavesOf bs)
  rw [totalWeight_leavesOf] at hfib
  by_contra hdeep
  have hmono : Nat.fib 27 ≤ Nat.fib (tree.depth + 2) := Nat.fib_mono (by omega)
  have hvalue : Nat.fib 27 = 196418 := by decide
  omega

/-- A codeword of a tree over two or more symbols is a path with at least one step. -/
theorem Merges.path_of_mem_codewords (htwo : 2 ≤ bs.toFinset.card) {c : Nat × Nat × Nat}
    (hc : c ∈ tree.codewords 0 0) : ∃ p, tree.Path c.1 p ∧ c.2 = (p.length, bitValue p) ∧ 1 ≤ p.length := by
  obtain ⟨p, hp, hcode⟩ := exists_path_of_mem_codewords hc
  refine ⟨p, hp, by rw [hcode, Nat.zero_add, appendBits_zero], List.length_pos_iff.2 ?_⟩
  rintro rfl
  have hone := h.symbols_perm.length_eq
  rw [symbols_of_path_nil hp, length_distinctSymbols, List.length_singleton] at hone
  omega

/-- The fixed code of 8 bits is no shorter than the tree's codewords (43_entropy R260 (d)). -/
theorem Merges.cost_le_eight_mul : tree.cost (byteCount bs) ≤ 8 * bs.length := by
  have hleaf : ∀ n ∈ leavesOf bs, n.tree.weight (byteCount bs) = n.weight ∧ n.tree.cost (byteCount bs) = 0 := by
    intro n hn
    obtain ⟨s, -, rfl⟩ := List.mem_map.1 hn
    exact ⟨rfl, rfl⟩
  have hcard : (leavesOf bs).length ≤ 256 := by
    rw [leavesOf_eq, List.length_map]
    exact (List.length_filter_le _ _).trans_eq List.length_range
  have hcost := h.costBound (fun n hn => (hleaf n hn).1) 8 0 (Multiset.zero_le _) (by simp; omega)
  have hzero : ((leavesOf bs : Multiset HNode).map fun n => n.tree.cost (byteCount bs)).sum = 0 :=
    Multiset.sum_eq_zero fun x hx => by
      obtain ⟨n, hn, rfl⟩ := Multiset.mem_map.1 hx
      exact (hleaf n hn).2
  rwa [hzero, totalWeight_leavesOf, totalWeight_zero, Nat.zero_add, Nat.add_zero] at hcost

end Tree

/-- There is one codeword for each symbol that occurs. -/
theorem map_fst_codewordsOf (bs : List Byte) :
    ((codewordsOf (countBytes bs)).map Prod.fst).Perm (distinctSymbols bs) := by
  obtain ⟨rfl, hcws⟩ | ⟨b, hb, hcws⟩ | ⟨-, tree, htree, hcws⟩ := codewordsOf_cases bs <;> rw [hcws]
  · have hnone := length_distinctSymbols []
    rw [List.toFinset_nil, Finset.card_empty, List.length_eq_zero_iff] at hnone
    rw [hnone, List.map_nil]
  · refine (List.perm_ext_iff_of_nodup (List.nodup_singleton _) (nodup_distinctSymbols bs)).2 fun s => ?_
    have hmem : ∀ c, c ∈ bs ↔ c = b := fun c => by rw [← List.mem_toFinset, hb, Finset.mem_singleton]
    simp [mem_distinctSymbols, hmem, eq_comm]
  · rw [map_fst_codewords]
    exact htree.symbols_perm

theorem nodup_codewordsOf (bs : List Byte) : ((codewordsOf (countBytes bs)).map Prod.fst).Nodup :=
  (map_fst_codewordsOf bs).nodup_iff.2 (nodup_distinctSymbols bs)

/-- A derived codeword is a bit sequence of 1 to 24 bits (43_entropy R233, R234, R261). -/
theorem exists_bits_of_mem_codewordsOf {bs : List Byte} (hlen : bs.length ≤ 131072) {c : Nat × Nat × Nat}
    (hc : c ∈ codewordsOf (countBytes bs)) : ∃ p, c.2 = (p.length, bitValue p) ∧ 1 ≤ p.length ∧ p.length ≤ 24 := by
  obtain ⟨-, hcws⟩ | ⟨b, -, hcws⟩ | ⟨htwo, tree, htree, hcws⟩ := codewordsOf_cases bs <;> rw [hcws] at hc
  · exact absurd hc List.not_mem_nil
  · obtain rfl := List.mem_singleton.1 hc
    exact ⟨[false], rfl, by decide, by decide⟩
  · obtain ⟨p, hp, hcode, hpos⟩ := htree.path_of_mem_codewords htwo hc
    exact ⟨p, hcode, hpos, hp.length_le_depth.trans (htree.depth_le hlen)⟩

theorem codeOf_of_notMem {cws : List (Nat × Nat × Nat)} {s : Nat} (h : s ∉ cws.map Prod.fst) :
    codeOf cws s = (0, 0) := by
  have hnone : cws.find? (fun c => c.1 == s) = none :=
    List.find?_eq_none.2 fun c hc heq => h (List.mem_map.2 ⟨c, hc, beq_iff_eq.1 heq⟩)
  rw [codeOf, hnone]

/-- Where each symbol has one codeword, the table gives it. -/
theorem codeOf_of_mem {cws : List (Nat × Nat × Nat)} (h : (cws.map Prod.fst).Nodup) {c : Nat × Nat × Nat}
    (hc : c ∈ cws) : codeOf cws c.1 = c.2 := by
  cases hfind : cws.find? (fun d => d.1 == c.1) with
  | none => exact absurd (beq_self_eq_true c.1) (List.find?_eq_none.1 hfind c hc)
  | some d =>
    have hsym := List.find?_some (p := fun d : Nat × Nat × Nat => d.1 == c.1) hfind
    have hd : d = c := List.inj_on_of_nodup_map h (List.mem_of_find?_eq_some hfind) hc (beq_iff_eq.1 hsym)
    rw [codeOf, hfind, hd]

/-- A sum over an array's bytes is a sum over its distinct symbols, each as often as it occurs. -/
theorem sum_map_eq_sum_distinctSymbols (bs : List Byte) (g : Nat → Nat) :
    (bs.map fun b => g b.toNat).sum = ((distinctSymbols bs).map fun s => byteCount bs s * g s).sum := by
  rw [((distinctSymbols_perm bs).map _).sum_eq, Finset.sum_list_map_count, List.map_map]
  simp [Finset.sum, Function.comp_def]

/-- The codewords of an array's bytes have at most 8 bits a byte in all (43_entropy R260 (d)). -/
theorem sum_codeOf_length (bs : List Byte) :
    (bs.map fun b => (codeOf (codewordsOf (countBytes bs)) b.toNat).1).sum ≤ 8 * bs.length := by
  have hsum : (bs.map fun b => (codeOf (codewordsOf (countBytes bs)) b.toNat).1).sum =
      ((codewordsOf (countBytes bs)).map fun c => byteCount bs c.1 * c.2.1).sum := by
    rw [sum_map_eq_sum_distinctSymbols bs fun s => (codeOf (codewordsOf (countBytes bs)) s).1,
      ← ((map_fst_codewordsOf bs).map _).sum_eq, List.map_map]
    exact congrArg List.sum (List.map_congr_left fun c hc => by
      rw [Function.comp_apply, codeOf_of_mem (nodup_codewordsOf bs) hc])
  rw [hsum]
  obtain ⟨rfl, hcws⟩ | ⟨b, hb, hcws⟩ | ⟨-, tree, htree, hcws⟩ := codewordsOf_cases bs <;> rw [hcws]
  · exact Nat.le_refl 0
  · have hcount : bs.count b ≤ bs.length := List.count_le_length
    simp
    omega
  · rw [sum_codewords_length, Nat.mul_zero, Nat.add_zero]
    exact htree.cost_le_eight_mul

end Sys2Proof.Machine
end

section
/-! SUPPORT. What HBUILD stores (43_entropy R235). -/

namespace Sys2Proof.Machine

@[simp] theorem complete_readLoc_freq (s : State) (e : ErrCode) (fs : List Flag) (b : Nat) :
    readLoc (complete s e fs) (.freq b) = readLoc s (.freq b) := by
  rw [readLoc, readLoc, complete_freq]

theorem srcCheck_of_length {s : State} {v : Sel} (h : v.capacity < s.selLen v) :
    srcCheck s v = some .invalidLength :=
  if_pos h

@[simp] theorem length_src (s : State) (v : Sel) : (s.src v).length = 2 * s.selLen v := by
  simp [State.src, length_bytesOf, State.selArray]

theorem capacity_le (v : Sel) : v.capacity ≤ 65536 := by cases v <;> decide

/-- An array within its capacity has at most 131072 bytes. -/
theorem length_src_le {s : State} {v : Sel} (h : s.selLen v ≤ v.capacity) : (s.src v).length ≤ 131072 := by
  have hcap := capacity_le v
  rw [length_src]
  omega

/-- The arrays are QC and CLEN, and the memory and ELEN. -/
theorem selArray_congr {s t : State} (hmem : t.mem = s.mem) (hqc : t.qc = s.qc) (hclen : t.clen = s.clen)
    (helen : t.elen = s.elen) (v : Sel) : t.selLen v = s.selLen v ∧ t.src v = s.src v := by
  have hlen : t.selLen v = s.selLen v := by cases v <;> simp only [State.selLen, hclen, helen]
  have hhalf : t.selHalf v = s.selHalf v := by
    funext i
    cases v <;> simp only [State.selHalf, State.qcHalf, State.qeHalf, hqc, hmem]
  exact ⟨hlen, by rw [State.src, State.src, State.selArray, State.selArray, hlen, hhalf]⟩

/-- `s` with what HBUILD stores. -/
def storeTable (s : State) (v : Sel) : State :=
  { s with
    freq := Vector.ofFn fun b : Fin 256 => BitVec.ofNat 32 ((countBytes (s.src v)).getD b.val 0)
    ct := Vector.ofFn fun b : Fin 256 =>
      ⟨BitVec.ofNat 6 (codeOf (codewordsOf (countBytes (s.src v))) b.val).1,
        BitVec.ofNat 32 (codeOf (codewordsOf (countBytes (s.src v))) b.val).2⟩
    nsym := BitVec.ofNat 32 (distinctCount (countBytes (s.src v))) }

section StoreTable
variable (s : State) (v : Sel)

@[simp] theorem storeTable_sticky : (storeTable s v).sticky = s.sticky := by rw [storeTable]
@[simp] theorem storeTable_cmdcnt : (storeTable s v).cmdcnt = s.cmdcnt := by rw [storeTable]
@[simp] theorem storeTable_ip : (storeTable s v).ip = s.ip := by rw [storeTable]
@[simp] theorem storeTable_mem : (storeTable s v).mem = s.mem := by rw [storeTable]
@[simp] theorem storeTable_qc : (storeTable s v).qc = s.qc := by rw [storeTable]
@[simp] theorem storeTable_clen : (storeTable s v).clen = s.clen := by rw [storeTable]
@[simp] theorem storeTable_elen : (storeTable s v).elen = s.elen := by rw [storeTable]

theorem storeTable_entry (b : Byte) : (storeTable s v).entry b =
    ⟨BitVec.ofNat 6 (codeOf (codewordsOf (countBytes (s.src v))) b.toNat).1,
      BitVec.ofNat 32 (codeOf (codewordsOf (countBytes (s.src v))) b.toNat).2⟩ := by
  simp [storeTable, State.entry, b.isLt]

/-- A symbol that does not occur has no codeword. -/
theorem storeTable_entry_of_notMem {b : Byte} (hb : b ∉ s.src v) : (storeTable s v).entry b = ⟨0#6, 0#32⟩ := by
  have hnone : b.toNat ∉ (codewordsOf (countBytes (s.src v))).map Prod.fst := fun hmem => by
    obtain ⟨c, hc, heq⟩ := mem_distinctSymbols.1 ((map_fst_codewordsOf _).mem_iff.1 hmem)
    exact hb (BitVec.eq_of_toNat_eq heq ▸ hc)
  rw [storeTable_entry, codeOf_of_notMem hnone]

end StoreTable

section Stored
variable {s : State} {v : Sel}

/-- A symbol that occurs has the entry of its derived codeword. -/
theorem exists_codeword_of_mem {b : Byte} (hb : b ∈ s.src v) : ∃ c ∈ codewordsOf (countBytes (s.src v)),
    c.1 = b.toNat ∧ ∀ p : List Bool, c.2 = (p.length, bitValue p) → (storeTable s v).entry b = entryOf p := by
  obtain ⟨c, hc, hsym⟩ := List.mem_map.1
    ((map_fst_codewordsOf _).mem_iff.2 (mem_distinctSymbols.2 ⟨b, hb, rfl⟩))
  refine ⟨c, hc, hsym, fun p hp => ?_⟩
  rw [storeTable_entry, ← hsym, codeOf_of_mem (nodup_codewordsOf _) hc, hp]
  rfl

/-- A single symbol has the codeword "0" (43_entropy R234). -/
theorem storeTable_entry_of_single (hone : (s.src v).toFinset.card = 1) {b : Byte} (hb : b ∈ s.src v) :
    (storeTable s v).entry b = ⟨1#6, 0#32⟩ := by
  obtain ⟨c, hc, -, hentry⟩ := exists_codeword_of_mem hb
  obtain ⟨hnil, -⟩ | ⟨x, -, hcws⟩ | ⟨htwo, -⟩ := codewordsOf_cases (s.src v)
  · rw [hnil] at hb
    exact absurd hb List.not_mem_nil
  · rw [hcws, List.mem_singleton] at hc
    exact hentry [false] (by rw [hc]; rfl)
  · omega

/-- The array's own stream is at most 8 bits a byte (43_entropy R260 (d)). -/
theorem sum_storeTable_len :
    ((s.src v).map fun b => ((storeTable s v).entry b).len.toNat).sum ≤ 8 * (s.src v).length := by
  refine Nat.le_trans (List.sum_le_sum fun b _ => ?_) (sum_codeOf_length (s.src v))
  rw [storeTable_entry, BitVec.toNat_ofNat]
  exact Nat.mod_le _ _

variable (hlen : s.selLen v ≤ v.capacity)
include hlen

/-- What HBUILD reports: DEGEN exactly for a single symbol. CodeTooLong does not occur (43_entropy R261). -/
theorem execHbuild_of_passes {f : BitVec 2} (hf : Sel.ofField f = some v) : exec (.hbuild f) s =
    .next (complete (storeTable s v) .ok (flagIf ((s.src v).toFinset.card = 1) .degen)) := by
  have hshort : (codewordsOf (countBytes (s.src v))).any (fun c => decide (c.2.1 > Config.cwmax)) = false := by
    rw [List.any_eq_false]
    intro c hc
    obtain ⟨p, hp, -, hle⟩ := exists_bits_of_mem_codewordsOf (length_src_le hlen) hc
    rw [hp, decide_eq_true_iff]
    exact Nat.not_lt.2 (hle.trans (by decide))
  have hone : (distinctCount (countBytes (s.src v)) == 1) = decide ((s.src v).toFinset.card = 1) := by
    rw [distinctCount_countBytes]
    rfl
  simp only [exec, execHbuild, hf, buildTable, (srcCheck_eq_none s v).2 hlen, hshort, ← hone]
  rfl

/-- A symbol that occurs has a codeword of 1 to 24 bits. -/
theorem storeTable_entry_of_mem {b : Byte} (hb : b ∈ s.src v) :
    ∃ p : List Bool, (storeTable s v).entry b = entryOf p ∧ 1 ≤ p.length ∧ p.length ≤ 24 := by
  obtain ⟨c, hc, -, hentry⟩ := exists_codeword_of_mem hb
  obtain ⟨p, hp, hpos, hle⟩ := exists_bits_of_mem_codewordsOf (length_src_le hlen) hc
  exact ⟨p, hentry p hp, hpos, hle⟩

/-- For two or more symbols the entries are the paths of a tree that the merge rule builds (43_entropy R232, R233). -/
theorem exists_tree_of_storeTable (htwo : 2 ≤ (s.src v).toFinset.card) :
    ∃ tree, Merges (leavesOf (s.src v) : Multiset HNode) 256 tree ∧ ∀ b ∈ s.src v, ∃ p,
      tree.Path b.toNat p ∧ (storeTable s v).entry b = entryOf p ∧ p.length ≤ 32 := by
  obtain ⟨hnil, -⟩ | ⟨x, hx, -⟩ | ⟨-, tree, htree, hcws⟩ := codewordsOf_cases (s.src v)
  · rw [hnil] at htwo
    exact absurd htwo (by decide)
  · rw [hx, Finset.card_singleton] at htwo
    omega
  · refine ⟨tree, htree, fun b hb => ?_⟩
    obtain ⟨c, hc, hsym, hentry⟩ := exists_codeword_of_mem hb
    rw [hcws] at hc
    obtain ⟨p, hp, hcode, -⟩ := htree.path_of_mem_codewords htwo hc
    have hdepth := hp.length_le_depth.trans (htree.depth_le (length_src_le hlen))
    exact ⟨p, hsym ▸ hp, hentry p hcode, by omega⟩

/-- The counts fit 32 bits. -/
theorem storeTable_freq (b : Byte) : (readLoc (storeTable s v) (.freq b.toNat)).toNat = (s.src v).count b := by
  have hcount : (s.src v).count b ≤ (s.src v).length := List.count_le_length
  have hbytes := length_src_le hlen
  have hread : readLoc (storeTable s v) (.freq b.toNat) = BitVec.ofNat 32 ((countBytes (s.src v)).getD b.toNat 0) := by
    simp [readLoc, storeTable, b.isLt]
  rw [hread, countBytes_getD _ b.isLt, byteCount_toNat, BitVec.toNat_ofNat, Nat.mod_eq_of_lt (by omega)]

theorem storeTable_nsym : (storeTable s v).nsym.toNat = (s.src v).toFinset.card := by
  have hcard := List.toFinset_card_le (s.src v)
  have hbytes := length_src_le hlen
  rw [storeTable, BitVec.toNat_ofNat, distinctCount_countBytes, Nat.mod_eq_of_lt (by omega)]

end Stored

theorem execHbuild_of_check {f : BitVec 2} {v : Sel} (hf : Sel.ofField f = some v) {s : State} {e : ErrCode}
    (h : srcCheck s v = some e) : exec (.hbuild f) s = .next (raise s e) := by
  simp only [exec, execHbuild, hf, buildTable, h]

/-- HBUILD answers code 0 only for an array within its capacity; it then leaves the array and stores its table. -/
theorem hbuild_ok {f : BitVec 2} {v : Sel} (hf : Sel.ofField f = some v) {s t : State}
    (h : exec (.hbuild f) s = .next t) (hok : t.errByte = 0) : s.selLen v ≤ v.capacity ∧
      t.selLen v = s.selLen v ∧ t.src v = s.src v ∧ ∀ b, t.entry b = (storeTable s v).entry b := by
  by_cases hlen : s.selLen v ≤ v.capacity
  · obtain rfl := Host.Outcome.next.inj ((execHbuild_of_passes hlen hf).symm.trans h)
    obtain ⟨htLen, htSrc⟩ := selArray_congr (s := s)
      (t := complete (storeTable s v) .ok (flagIf ((s.src v).toFinset.card = 1) .degen)) (by simp) (by simp) (by simp)
      (by simp) v
    exact ⟨hlen, htLen, htSrc, complete_entry _ _ _⟩
  · have hraise := execHbuild_of_check hf (srcCheck_of_length (Nat.not_le.1 hlen))
    rw [← Host.Outcome.next.inj (hraise.symm.trans h), raise_eq, complete_errByte] at hok
    exact absurd hok (by decide)

end Sys2Proof.Machine
end

section
/-! CERTIFICATE. The statements about HBUILD. -/

namespace Sys2Proof.Proofs
open Sys2Proof Sys2Proof.Machine

/-- HBUILD's line of the table of what commands write (10_state R67). -/
theorem hbuild_writes_only_tables {f : BitVec 2} {s t : State} (h : exec (.hbuild f) s = .next t) :
    t = { s.bookFrom t with freq := t.freq, ct := t.ct, nsym := t.nsym } ∧ ∀ k, t.byteAt k = s.byteAt k := by
  obtain ⟨hfields, hbytes⟩ := commandsWriteOnlyWhatTheTableLists (.hbuild f) s t h
  exact ⟨hfields, fun k => hbytes k nofun⟩

/-- Settles O33: a tree of depth 25 would weigh a Fibonacci number above 131072 (43_entropy R261). -/
theorem codeTooLongCannotOccur : Obligations.CodeTooLongCannotOccur := by
  intro s f v hf hlen
  refine ⟨fun c hc => ?short, _, execHbuild_of_passes hlen hf, complete_errByte _ _ _⟩
  case short =>
    obtain ⟨p, hp, -, hle⟩ := exists_bits_of_mem_codewordsOf (length_src_le hlen) hc
    rwa [hp]

/-- Settles O30: the counts and the codewords fit their registers. -/
theorem hbuildCountsTheSymbols : Obligations.HbuildCountsTheSymbols := by
  refine ⟨(legalWordsAreExactlySeventeen _ _).2 (by decide), (legalWordsAreExactlySeventeen _ _).2 (by decide),
    fun s f v hf => ⟨fun hlen => ?badLength, fun hlen _ => ?_⟩⟩
  case badLength => exact raises_of_exec (execHbuild_of_check hf (srcCheck_of_length hlen))
  have hexec := execHbuild_of_passes hlen hf
  refine ⟨_, hexec, completedWith_complete_of_eq _ _ (by simp) (by simp) (by simp),
    fun b => ?count, ?nsym, fun b hb => ?absent, fun b hb => ?codeword, fun hone b hb => ?single,
    hbuild_writes_only_tables hexec⟩
  case count => rw [complete_readLoc_freq, storeTable_freq hlen]
  case nsym => rw [complete_nsym, storeTable_nsym hlen]
  case absent => rw [complete_entry, storeTable_entry_of_notMem s v hb]
  case single => rw [complete_entry, storeTable_entry_of_single hone hb]
  case codeword =>
    obtain ⟨p, hentry, hpos, hle⟩ := storeTable_entry_of_mem hlen hb
    rw [complete_entry, hentry, entryOf_len (by omega), entryOf_code (by omega)]
    exact ⟨hpos, by omega, bitValue_lt p⟩

/-- Settles O31: the model's merges are those of the rule, and its codewords the paths of their tree. -/
theorem hbuildFollowsTheMergeRule : Obligations.HbuildFollowsTheMergeRule := by
  intro s f v hf hlen _ htwo
  obtain ⟨tree, htree, hpaths⟩ := exists_tree_of_storeTable hlen htwo
  refine ⟨_, tree, execHbuild_of_passes hlen hf, htree, fun b hb => ?codeword, fun b hb => ?absent⟩
  case codeword =>
    obtain ⟨p, hp, hentry, hle⟩ := hpaths b hb
    refine ⟨p, hp, ?_⟩
    rw [complete_entry, hentry]
    exact ⟨entryOf_bits hle, entryOf_len hle, entryOf_code hle⟩
  case absent => rw [complete_entry, storeTable_entry_of_notMem s v hb]

/-- Settles O32: with two codewords in the table there are two symbols, so the codewords are paths to different leaves
of one tree. -/
theorem hbuildCodesArePrefixFree : Obligations.HbuildCodesArePrefixFree := by
  intro s t f v hf hexec hok b c hne hb hc
  obtain ⟨hlen, -, -, hentry⟩ := hbuild_ok hf hexec hok
  rw [hentry] at hb hc
  rw [hentry, hentry]
  have occurs : ∀ {x : Byte}, ((storeTable s v).entry x).len ≠ 0#6 → x ∈ s.src v := fun hx =>
    by_contra fun hmem => hx (by rw [storeTable_entry_of_notMem s v hmem])
  have htwo : 2 ≤ (s.src v).toFinset.card :=
    Finset.one_lt_card.2 ⟨b, List.mem_toFinset.2 (occurs hb), c, List.mem_toFinset.2 (occurs hc), hne⟩
  obtain ⟨tree, -, hpaths⟩ := exists_tree_of_storeTable hlen htwo
  obtain ⟨p, hp, hbEntry, hpLen⟩ := hpaths b (occurs hb)
  obtain ⟨q, hq, hcEntry, hqLen⟩ := hpaths c (occurs hc)
  rw [hbEntry, hcEntry, entryOf_bits hpLen, entryOf_bits hqLen]
  exact fun hprefix => hne (BitVec.eq_of_toNat_eq (hp.eq_of_prefix hq hprefix))

end Sys2Proof.Proofs
end

section
/-! SUPPORT. What HENC checks and stores (43_entropy R236, R240). -/

namespace Sys2Proof.Machine

theorem usable_iff (e : CodeEntry) : e.usable = true ↔ 1 ≤ e.len.toNat ∧ e.len.toNat ≤ 32 := by
  simp only [CodeEntry.usable, Bool.and_eq_true, bne_iff_ne, decide_eq_true_iff, Config.cwmax]
  omega

/-- Every byte of the array has a codeword that HENC can use. -/
def State.Coded (s : State) (v : Sel) : Prop :=
  ∀ b ∈ s.src v, 1 ≤ (s.entry b).len.toNat ∧ (s.entry b).len.toNat ≤ 32

theorem any_not_usable_iff (s : State) (v : Sel) :
    (s.src v).any (fun b => !(s.entry b).usable) = true ↔ ¬ s.Coded v := by
  rw [← not_iff_not, not_not, Bool.not_eq_true, List.any_eq_false, State.Coded]
  simp only [Bool.not_eq_true', Bool.not_eq_false, usable_iff]

/-- `s` with what HENC stores. -/
def storeStream (s : State) (v : Sel) : State :=
  { s with
    mem := storeBits s.mem (encodeBytes s (s.src v))
    blen := BitVec.ofNat 32 (encodeBytes s (s.src v)).length
    symcount := BitVec.ofNat 32 (s.src v).length }

@[simp] theorem storeStream_sticky (s : State) (v : Sel) : (storeStream s v).sticky = s.sticky := by rw [storeStream]
@[simp] theorem storeStream_cmdcnt (s : State) (v : Sel) : (storeStream s v).cmdcnt = s.cmdcnt := by rw [storeStream]
@[simp] theorem storeStream_ip (s : State) (v : Sel) : (storeStream s v).ip = s.ip := by rw [storeStream]
@[simp] theorem storeStream_entry (s : State) (v : Sel) (b : Byte) : (storeStream s v).entry b = s.entry b := by
  simp only [State.entry, storeStream]

section Henc
variable {f : BitVec 2} {v : Sel} (hf : Sel.ofField f = some v) {s : State}
include hf

theorem execHenc_of_check {e : ErrCode} (h : srcCheck s v = some e) : exec (.henc f) s = .next (raise s e) := by
  simp only [exec, execHenc, hf, encodeArray, h]

variable (hlen : s.selLen v ≤ v.capacity)
include hlen

/-- The codewords are looked at only when the length fits. -/
theorem execHenc_of_not_coded (h : ¬ s.Coded v) : exec (.henc f) s = .next (raise s .symbolNotInTable) := by
  simp only [exec, execHenc, hf, encodeArray, (srcCheck_eq_none s v).2 hlen, (any_not_usable_iff s v).2 h, if_true]

variable (hcoded : s.Coded v)
include hcoded

theorem execHenc_of_coded : exec (.henc f) s =
    .next (if encodedLength s (s.src v) > Config.bsmax then raise s .streamOverflow
      else complete (storeStream s v) .ok []) := by
  have husable : (s.src v).any (fun b => !(s.entry b).usable) = false :=
    Bool.eq_false_iff.2 fun h => (any_not_usable_iff s v).1 h hcoded
  simp only [exec, execHenc, hf, encodeArray, (srcCheck_eq_none s v).2 hlen, husable, Bool.false_eq_true, if_false]
  rfl

/-- The stream's length is looked at only when every byte has a codeword. -/
theorem execHenc_of_overflow (h : 1048576 < encodedLength s (s.src v)) :
    exec (.henc f) s = .next (raise s .streamOverflow) := by
  rw [execHenc_of_coded hf hlen hcoded, if_pos h]

theorem execHenc_of_passes (h : encodedLength s (s.src v) ≤ 1048576) :
    exec (.henc f) s = .next (complete (storeStream s v) .ok []) := by
  rw [execHenc_of_coded hf hlen hcoded, if_neg (Nat.not_lt.2 h)]

end Henc

section Stored
variable {s : State} {v : Sel}

theorem storeStream_symcount (hlen : s.selLen v ≤ v.capacity) :
    (storeStream s v).symcount.toNat = 2 * s.selLen v := by
  have hbytes := length_src_le hlen
  rw [storeStream, BitVec.toNat_ofNat, Nat.mod_eq_of_lt (by omega), length_src]

theorem storeStream_blen (h : encodedLength s (s.src v) ≤ 1048576) :
    (storeStream s v).blen.toNat = encodedLength s (s.src v) := by
  rw [storeStream, BitVec.toNat_ofNat, length_encodeBytes, Nat.mod_eq_of_lt (by omega)]

/-- The stored stream reads back (43_entropy R240). -/
theorem storeStream_stream (s : State) (v : Sel) :
    (storeStream s v).stream (encodedLength s (s.src v)) = encodeBytes s (s.src v) := by
  have hlen := length_encodeBytes s (s.src v)
  refine List.ext_getElem (by rw [length_stream, hlen]) fun i hi hi' => ?_
  have hword : i < 32 * streamWords (encodeBytes s (s.src v)).length := by
    rw [streamWords]
    omega
  simp only [State.stream, storeStream, List.getElem_map, List.getElem_range, streamBit_storeBits, if_pos hword]
  exact List.getD_eq_getElem _ _ hi'

/-- The rest of the last word is 0 (43_entropy R240). -/
theorem storeStream_streamBit_of_le {i : Nat} (h : encodedLength s (s.src v) ≤ i)
    (h' : i < 32 * streamWords (encodedLength s (s.src v))) : (storeStream s v).mem.streamBit i = false := by
  rw [storeStream, streamBit_storeBits, length_encodeBytes, if_pos h']
  exact List.getD_eq_default _ _ (by rwa [length_encodeBytes])

theorem storeStream_byteAt_of_outside {k : Nat}
    (h : ¬ (bsBase ≤ k / 4 ∧ k / 4 < bsBase + streamWords (encodedLength s (s.src v)))) :
    (storeStream s v).byteAt k = s.byteAt k :=
  byteAt_storeBits_of_outside s.mem _ (by rwa [length_encodeBytes])

end Stored

/-- `RESULT[7:0]` after a completion is its code. -/
theorem errByte_of_completedWith {s t : State} {e : ErrCode} {fs : List Flag} (h : CompletedWith s t e fs) :
    t.errByte = e.code := by
  obtain ⟨hresult, -⟩ := h
  rw [← complete_errByte s e fs, State.errByte, State.errByte, hresult, complete_result, resultWord]

end Sys2Proof.Machine
end

section
/-! SUPPORT. HENC of the array that HBUILD made the table of passes every check (43_entropy R260 (d)). -/

namespace Sys2Proof.Machine

/-- Every byte of the array has its codeword, and the stream is at most 8 bits a byte. -/
theorem coded_of_hbuild {f : BitVec 2} {v : Sel} (hf : Sel.ofField f = some v) {s t : State}
    (h : exec (.hbuild f) s = .next t) (hok : t.errByte = 0) :
    t.Coded v ∧ encodedLength t (t.src v) ≤ 8 * (2 * s.selLen v) := by
  obtain ⟨hlen, -, htSrc, hentry⟩ := hbuild_ok hf h hok
  rw [State.Coded, encodedLength, htSrc]
  simp only [hentry]
  refine ⟨fun b hb => ?_, length_src s v ▸ sum_storeTable_len⟩
  obtain ⟨p, hp, hpos, hle⟩ := storeTable_entry_of_mem hlen hb
  rw [hp, entryOf_len (by omega)]
  omega

/-- A length within the capacity gives a stream that fits BS. -/
theorem eight_mul_selLen_le {s : State} {v : Sel} (h : s.selLen v ≤ v.capacity) : 8 * (2 * s.selLen v) ≤ 1048576 := by
  have hbytes := length_src_le h
  rw [length_src] at hbytes
  omega

end Sys2Proof.Machine
end

section
/-! CERTIFICATE. The statements about HENC. -/

namespace Sys2Proof.Proofs
open Sys2Proof Sys2Proof.Machine

/-- Settles O34: the three checks in their order, then the stream is stored. -/
theorem hencWritesTheStream : Obligations.HencWritesTheStream := by
  refine ⟨(legalWordsAreExactlySeventeen _ _).2 (by decide), (legalWordsAreExactlySeventeen _ _).2 (by decide), ?_⟩
  intro s f v hf coded total
  refine ⟨fun hlen => ?badLength, fun hlen hcoded => ?notCoded, fun hlen hcoded htotal => ?overflow,
    fun hlen hcoded htotal => ?_⟩
  case badLength => exact raises_of_exec (execHenc_of_check hf (srcCheck_of_length hlen))
  case notCoded => exact raises_of_exec (execHenc_of_not_coded hf hlen hcoded)
  case overflow => exact raises_of_exec (execHenc_of_overflow hf hlen hcoded htotal)
  have hexec := execHenc_of_passes hf hlen hcoded htotal
  exact ⟨_, hexec, completedWith_complete_of_eq _ _ (by simp) (by simp) (by simp), storeStream_blen htotal,
    storeStream_symcount hlen, storeStream_stream s v, fun i => storeStream_streamBit_of_le,
    (commandsWriteOnlyWhatTheTableLists (.henc f) s _ hexec).1, fun k hk => storeStream_byteAt_of_outside hk⟩

/-- Settles O57: HBUILD gives each byte a codeword, and the codewords of the array's bytes are at most 8 bits a byte. -/
theorem hencAfterHbuildCannotRaise : Obligations.HencAfterHbuildCannotRaise := by
  intro s t f v hf hbuild hok
  obtain ⟨hlen, htLen, htSrc, hentry⟩ := hbuild_ok hf hbuild hok
  obtain ⟨hcoded, hbits⟩ := coded_of_hbuild hf hbuild hok
  have hfits := hbits.trans (eight_mul_selLen_le hlen)
  refine ⟨_, execHenc_of_passes hf (htLen ▸ hlen) hcoded hfits, complete_errByte _ _ _, ?bound, fun hone => ?single⟩
  case bound => rwa [complete_blen, storeStream_blen hfits]
  case single =>
    have hbit : ∀ b ∈ s.src v, (t.entry b).len.toNat = 1 := fun b hb => by
      rw [hentry, storeTable_entry_of_single hone hb]
      rfl
    rw [complete_blen, storeStream_blen hfits, encodedLength, htSrc, List.map_congr_left hbit]
    simp

end Sys2Proof.Proofs
end

section
/-! SUPPORT. The table lookup as a relation between bit sequences and symbols, the scan of a stream bit by bit, and that
it is the parse into codewords, which is the only one (43_entropy R237, R238). -/

namespace Sys2Proof.Machine

/-- `match(L, c)` on a buffer of bits, the oldest first. -/
def matchBits (s : State) (w : List Bool) : Option Byte := matchCode s.ct.toList w.length (bitValue w)

/-- The comparison that the lookup makes at the index of a symbol. -/
theorem isCodeword_iff (s : State) (b : Byte) (w : List Bool) : s.IsCodeword b w ↔
    (1 ≤ w.length ∧ w.length ≤ 32) ∧
      ((s.entry b).len.toNat == w.length && (s.entry b).code.toNat % 2 ^ w.length == bitValue w) = true := by
  rw [State.IsCodeword, Bool.and_eq_true, beq_iff_eq, beq_iff_eq, and_assoc]

theorem entry_ofNat (s : State) {i : Nat} (hi : i < s.ct.toList.length) :
    s.entry (BitVec.ofNat 8 i) = s.ct.toList[i] := by
  have h256 : i < 256 := by simpa using hi
  simp [State.entry, Nat.mod_eq_of_lt h256, h256]

theorem length_ct (s : State) : s.ct.toList.length = 256 := Vector.length_toList

/-- The lookup finds the least symbol whose codeword the buffer is (43_entropy R237). -/
theorem matchBits_eq_some_iff (s : State) (w : List Bool) (b : Byte) : matchBits s w = some b ↔ s.Matches w b := by
  by_cases hlen : w.length < 1 ∨ w.length > 32
  · rw [matchBits, matchCode, if_pos hlen]
    refine ⟨fun h => (Option.some_ne_none b h.symm).elim, fun ⟨⟨hpos, hle, _⟩, _⟩ => ?_⟩
    omega
  · have hrange : 1 ≤ w.length ∧ w.length ≤ 32 := by omega
    simp only [State.Matches, isCodeword_iff, hrange, and_self, true_and]
    rw [matchBits, matchCode, if_neg hlen, Option.map_eq_some_iff]
    constructor
    · rintro ⟨i, hi, rfl⟩
      obtain ⟨hlt, hmatch, hleast⟩ := List.findIdx?_eq_some_iff_getElem.1 hi
      have h256 : i < 256 := length_ct s ▸ hlt
      refine ⟨by rwa [entry_ofNat s hlt], fun c hc => ?_⟩
      rw [BitVec.toNat_ofNat, Nat.mod_eq_of_lt h256] at hc
      have hci := hleast c.toNat hc
      rwa [← entry_ofNat, BitVec.ofNat_toNat, BitVec.setWidth_eq] at hci
    · rintro ⟨hmatch, hleast⟩
      have hlt : b.toNat < s.ct.toList.length := (length_ct s).symm ▸ b.isLt
      refine ⟨b.toNat, List.findIdx?_eq_some_iff_getElem.2 ⟨hlt, ?_, fun j hj => ?_⟩, by simp⟩
      · rwa [← entry_ofNat s hlt, BitVec.ofNat_toNat, BitVec.setWidth_eq]
      · have h256 : j < 256 := hj.trans b.isLt
        have hj' := hleast (BitVec.ofNat 8 j) (by rwa [BitVec.toNat_ofNat, Nat.mod_eq_of_lt h256])
        rwa [entry_ofNat s (hj.trans hlt)] at hj'

/-- The lookup fails when no symbol has the buffer as its codeword. -/
theorem matchBits_eq_none_iff (s : State) (w : List Bool) : matchBits s w = none ↔ ∀ c, ¬ s.IsCodeword c w := by
  constructor
  · intro h c hc
    obtain ⟨b, hb, hleast⟩ := WellFounded.has_min (measure (BitVec.toNat (w := 8))).wf {c | s.IsCodeword c w} ⟨c, hc⟩
    have hmatch := (matchBits_eq_some_iff s w b).2 ⟨hb, fun d hd hcode => hleast d hcode hd⟩
    rw [h] at hmatch
    exact Option.some_ne_none b hmatch.symm
  · intro h
    refine Option.eq_none_iff_forall_ne_some.2 fun b hb => ?_
    obtain ⟨hcode, -⟩ := (matchBits_eq_some_iff s w b).1 hb
    exact h b hcode

/-- The scan of a stream when the buffer holds the bits `w`, the oldest first. -/
def scan (s : State) (bits w : List Bool) : Parsed := parseStream s.ct.toList bits w.length (bitValue w) w.reverse

theorem parsed_eq_scan (s : State) : s.parsed = scan s (s.stream s.blen.toNat) [] := rfl

theorem scan_nil (s : State) (w : List Bool) : scan s [] w = ⟨[], w⟩ := by
  rw [scan, parseStream, List.reverse_reverse]

theorem scan_cons_of_some {s : State} {x : Bool} {bits w : List Bool} {b : Byte} (h : matchBits s (w ++ [x]) = some b) :
    scan s (x :: bits) w = ⟨(b, w ++ [x]) :: (scan s bits []).units, (scan s bits []).rest⟩ := by
  rw [matchBits, bitValue_concat, List.length_append, List.length_singleton] at h
  rw [scan, parseStream, h]
  simp [scan]

theorem scan_cons_of_none {s : State} {x : Bool} {bits w : List Bool} (h : matchBits s (w ++ [x]) = none) :
    scan s (x :: bits) w = scan s bits (w ++ [x]) := by
  rw [matchBits, bitValue_concat, List.length_append, List.length_singleton] at h
  rw [scan, parseStream, h, scan]
  simp

/-- No beginning of a bit sequence is a codeword. -/
def State.Unmatched (s : State) (w : List Bool) : Prop := ∀ w', w' <+: w → ∀ c, ¬ s.IsCodeword c w'

theorem unmatched_nil (s : State) : s.Unmatched [] := by
  intro w' hw' c hc
  obtain ⟨hpos, -⟩ := hc
  rw [List.prefix_nil.1 hw', List.length_nil] at hpos
  omega

theorem unmatched_concat {s : State} {w : List Bool} {x : Bool} (h : s.Unmatched w)
    (hx : matchBits s (w ++ [x]) = none) : s.Unmatched (w ++ [x]) := by
  intro w' hw'
  obtain rfl | hw' := List.prefix_concat_iff.1 hw'
  · exact (matchBits_eq_none_iff s _).1 hx
  · exact h w' hw'

/-- The scan parses the buffer and the stream, when the buffer was found to match nothing so far. -/
theorem parses_scan (s : State) (bits : List Bool) : ∀ w, s.Unmatched w →
    s.Parses (w ++ bits) (scan s bits w).units (scan s bits w).rest := by
  induction bits with
  | nil =>
    intro w hw
    rw [scan_nil, List.append_nil]
    exact ⟨rfl, fun u hu => absurd hu List.not_mem_nil, hw⟩
  | cons x bits ih =>
    intro w hw
    cases hmatch : matchBits s (w ++ [x]) with
    | none =>
      rw [scan_cons_of_none hmatch, List.append_cons]
      exact ih _ (unmatched_concat hw hmatch)
    | some b =>
      obtain ⟨hbits, hunits, hrest⟩ := ih [] (unmatched_nil s)
      rw [scan_cons_of_some hmatch]
      refine ⟨?_, fun u hu => ?_, hrest⟩
      · rw [List.flatMap_cons, List.append_assoc, hbits]
        simp
      · obtain rfl | hu := List.mem_cons.1 hu
        · refine ⟨(matchBits_eq_some_iff s _ b).1 hmatch, fun w' hw' hne => ?_⟩
          exact hw w' ((List.prefix_concat_iff.1 hw').resolve_left hne)
        · exact hunits u hu

theorem parses_parsed (s : State) : s.Parses (s.stream s.blen.toNat) s.parsed.units s.parsed.rest := by
  rw [parsed_eq_scan]
  exact parses_scan s _ [] (unmatched_nil s)

end Sys2Proof.Machine
end

section
/-! SUPPORT. What HDEC stores and reports (43_entropy R238, R239). -/

namespace Sys2Proof.Machine

/-- Value `i` of the reassembled bytes is pair `i`, the low byte first (43_entropy R239). -/
theorem getD_halvesOf : ∀ (bs : List Byte) (i : Nat), i < bs.length / 2 →
    (halvesOf bs).getD i 0#16 = bs.getD (2 * i + 1) 0#8 ++ bs.getD (2 * i) 0#8
  | [], i, hi => absurd hi (Nat.not_lt_zero i)
  | [_], i, hi => absurd hi (by simp)
  | _ :: _ :: _, 0, _ => rfl
  | _ :: _ :: bs, i + 1, hi => by
    simp only [List.length_cons] at hi
    rw [halvesOf, List.getD_cons_succ, getD_halvesOf bs i (by omega)]
    rfl

section Reassemble
variable (s : State) (v : Sel) (out : List Byte)

@[simp] theorem reassemble_sticky : (reassemble s v out).sticky = s.sticky := by cases v <;> rw [reassemble]
@[simp] theorem reassemble_cmdcnt : (reassemble s v out).cmdcnt = s.cmdcnt := by cases v <;> rw [reassemble]
@[simp] theorem reassemble_ip : (reassemble s v out).ip = s.ip := by cases v <;> rw [reassemble]
@[simp] theorem reassemble_lossev : (reassemble s v out).lossev = s.lossev := by cases v <;> rw [reassemble]

end Reassemble

/-- `s` with what HDEC stores. -/
def storeDecoded (s : State) (v : Sel) (out : List Byte) (lossev : Word) : State :=
  { reassemble s v out with dcount := BitVec.ofNat 32 out.length, lossev := lossev }

section StoreDecoded
variable (s : State) (v : Sel) (out : List Byte) (lossev : Word)

@[simp] theorem storeDecoded_sticky : (storeDecoded s v out lossev).sticky = s.sticky := by
  simp only [storeDecoded, reassemble_sticky]
@[simp] theorem storeDecoded_cmdcnt : (storeDecoded s v out lossev).cmdcnt = s.cmdcnt := by
  simp only [storeDecoded, reassemble_cmdcnt]
@[simp] theorem storeDecoded_ip : (storeDecoded s v out lossev).ip = s.ip := by
  simp only [storeDecoded, reassemble_ip]
@[simp] theorem storeDecoded_lossev : (storeDecoded s v out lossev).lossev = lossev := by rw [storeDecoded]

theorem storeDecoded_qcHalf {k : Nat} (hk : 1 ≤ k) (hk' : k ≤ 32) :
    (storeDecoded s .qc out lossev).qcHalf k = (halvesOf out).getD (k - 1) 0#16 := by
  simp [storeDecoded, reassemble, State.qcHalf, show k - 1 < 32 by omega]

/-- Above the values decoded QC is cleared (43_entropy R239). -/
theorem storeDecoded_qcHalf_of_lt {k : Nat} (hk : out.length / 2 < k) (hk' : k ≤ 32) :
    (storeDecoded s .qc out lossev).qcHalf k = 0#16 := by
  rw [storeDecoded_qcHalf s out lossev (by omega) hk']
  exact List.getD_eq_default _ _ (by rw [length_halvesOf]; omega)

theorem storeDecoded_qeHalf {i : Nat} (hi : i < out.length / 2) :
    (storeDecoded s .qe out lossev).qeHalf i = (halvesOf out).getD i 0#16 := by
  have hlt : i < (halvesOf out).length := by rwa [length_halvesOf]
  simp [storeDecoded, reassemble, State.qeHalf, Memory.half_setHalves, hlt]

/-- Only the elements of QE that were decoded are stored to, and only when QE is decoded into. -/
theorem storeDecoded_byteAt {k : Nat}
    (h : v = .qe → ∀ i < out.length / 2, k ≠ 4 * (qeBase + i) ∧ k ≠ 4 * (qeBase + i) + 1) :
    (storeDecoded s v out lossev).byteAt k = s.byteAt k := by
  cases v with
  | qc => simp only [State.byteAt, storeDecoded, reassemble]
  | qe =>
    simp only [State.byteAt, storeDecoded, reassemble]
    exact Memory.byteAt_setHalves_of_outside _ _ _ _ (by rw [length_halvesOf]; exact h rfl)

variable {out} (hout : out.length ≤ 2 * v.capacity)
include hout

theorem storeDecoded_dcount : (storeDecoded s v out lossev).dcount.toNat = out.length := by
  have hcap := capacity_le v
  rw [storeDecoded, BitVec.toNat_ofNat, Nat.mod_eq_of_lt (by omega)]

theorem storeDecoded_selLen : (storeDecoded s v out lossev).selLen v = out.length / 2 := by
  have hcap := capacity_le v
  have hread : (storeDecoded s v out lossev).selLen v = (BitVec.ofNat 32 (halvesOf out).length).toNat := by
    cases v <;> simp only [storeDecoded, reassemble, State.selLen]
  rw [hread, length_halvesOf, BitVec.toNat_ofNat, Nat.mod_eq_of_lt (by omega)]

theorem storeDecoded_selHalf {i : Nat} (hi : i < out.length / 2) :
    (storeDecoded s v out lossev).selHalf v i = out.getD (2 * i + 1) 0#8 ++ out.getD (2 * i) 0#8 := by
  rw [← getD_halvesOf out i hi]
  cases v with
  | qc =>
    have hcap : out.length ≤ 2 * 32 := hout
    exact storeDecoded_qcHalf s out lossev (k := i + 1) (by omega) (by omega)
  | qe => exact storeDecoded_qeHalf s out lossev hi

end StoreDecoded

/-- The bytes that HDEC emits: those of the units, up to the array's capacity. -/
def decodedBytes (s : State) (v : Sel) : List Byte := (s.parsed.units.map Prod.fst).take (2 * v.capacity)

theorem length_decodedBytes_le (s : State) (v : Sel) : (decodedBytes s v).length ≤ 2 * v.capacity :=
  List.length_take_le _ _

/-- How HDEC ends: more units than the array holds, bits left over, or neither; LOSSEV counts the second. -/
def HdecEnds (s : State) (v : Sel) (e : ErrCode) (fs : List Flag) (lossev : Word) : Prop :=
  if 2 * v.capacity < s.parsed.units.length then e = .destOverflow ∧ fs = [] ∧ lossev = s.lossev
  else if s.parsed.rest ≠ [] then e = .incompleteCodeword ∧ fs = [.incomplete] ∧ lossev = satCount s.lossev 1
  else e = .ok ∧ fs = [] ∧ lossev = s.lossev

theorem decodeArray_of_passes {s : State} {v : Sel} (h : lengthCheck s.blen Config.bsmax = none) : decodeArray s v =
    if 2 * v.capacity < s.parsed.units.length then
      complete (storeDecoded s v (decodedBytes s v) s.lossev) .destOverflow []
    else if s.parsed.rest ≠ [] then
      complete (storeDecoded s v (decodedBytes s v) (satCount s.lossev 1)) .incompleteCodeword [.incomplete]
    else complete (storeDecoded s v (decodedBytes s v) s.lossev) .ok [] := by
  have hkept : storeDecoded s v (decodedBytes s v) s.lossev =
      { reassemble s v (decodedBytes s v) with dcount := BitVec.ofNat 32 (decodedBytes s v).length } := by
    rw [storeDecoded, ← reassemble_lossev s v (decodedBytes s v)]
  rw [hkept]
  simp only [decodeArray, h, decodedBytes, storeDecoded, reassemble_lossev, gt_iff_lt, bne_iff_ne]

section Hdec
variable {f : BitVec 2} {v : Sel} (hf : Sel.ofField f = some v) {s : State}
include hf

theorem execHdec_of_check {e : ErrCode} (h : lengthCheck s.blen Config.bsmax = some e) :
    exec (.hdec f) s = .next (raise s e) := by
  simp only [exec, execHdec, hf, decodeArray, h]

/-- Whichever way HDEC ends, it commits what it decoded. -/
theorem execHdec_of_passes (h : lengthCheck s.blen Config.bsmax = none) : ∃ e fs lossev, HdecEnds s v e fs lossev ∧
    exec (.hdec f) s = .next (complete (storeDecoded s v (decodedBytes s v) lossev) e fs) := by
  simp only [exec, execHdec, hf, decodeArray_of_passes h, HdecEnds]
  split_ifs with hover hrest
  · exact ⟨_, _, _, ⟨rfl, rfl, rfl⟩, rfl⟩
  · exact ⟨_, _, _, ⟨rfl, rfl, rfl⟩, rfl⟩
  · exact ⟨_, _, _, ⟨rfl, rfl, rfl⟩, rfl⟩

end Hdec

theorem Sel.eq_zero_of_ofField {f : BitVec 2} (h : Sel.ofField f = some .qc) : f = 0#2 := by
  unfold Sel.ofField at h
  split_ifs at h with h0 h1
  · exact h0
  · exact absurd h (by decide)

theorem Sel.ne_zero_of_ofField {f : BitVec 2} (h : Sel.ofField f = some .qe) : f ≠ 0#2 := by
  rintro rfl
  exact absurd h (by decide)

end Sys2Proof.Machine
end

section
/-! CERTIFICATE. The statement about HDEC. -/

namespace Sys2Proof.Proofs
open Sys2Proof Sys2Proof.Machine

/-- HDEC's lines of the table of what commands write (10_state R67). -/
theorem hdec_writes_only_array {f : BitVec 2} {v : Sel} (hf : Sel.ofField f = some v) {s t : State}
    (h : exec (.hdec f) s = .next t) :
    (v = .qc → t = { s.bookFrom t with qc := t.qc, clen := t.clen, dcount := t.dcount, lossev := t.lossev }) ∧
    (v = .qe → t = { s.bookFrom t with mem := t.mem, elen := t.elen, dcount := t.dcount, lossev := t.lossev }) := by
  obtain ⟨hfields, -⟩ := commandsWriteOnlyWhatTheTableLists (.hdec f) s t h
  refine ⟨?_, ?_⟩ <;> rintro rfl
  · exact hfields.trans (if_pos (Sel.eq_zero_of_ofField hf))
  · exact hfields.trans (if_neg (Sel.ne_zero_of_ofField hf))

/-- Settles O35: the model's scan is the parse, and each of the three ends commits what was decoded. -/
theorem hdecDecodesTheStream : Obligations.HdecDecodesTheStream := by
  refine ⟨(legalWordsAreExactlySeventeen _ _).2 (by decide), (legalWordsAreExactlySeventeen _ _).2 (by decide),
    fun s f v hf => ⟨fun hlen => ?badLength, fun hlen => ?_⟩⟩
  case badLength => exact raises_of_exec (execHdec_of_check hf (lengthCheck_of_length hlen))
  obtain ⟨e, fs, lossev, hend, hexec⟩ := execHdec_of_passes hf ((lengthCheck_eq_none _ _).2 hlen)
  have hout := length_decodedBytes_le s v
  obtain ⟨hqc, hqe⟩ := hdec_writes_only_array hf hexec
  have hcompleted : CompletedWith s (complete (storeDecoded s v (decodedBytes s v) lossev) e fs) e fs :=
    completedWith_complete_of_eq _ _ (by simp) (by simp) (by simp)
  refine ⟨_, s.parsed.units, s.parsed.rest, parses_parsed s, hexec, ?ends, ?count, ?length, fun i hi => ?values,
    fun hv => ⟨fun k hk hk' => ?cleared, hqc hv⟩, hqe, fun k hk => ?bytes⟩
  case count => rw [complete_dcount, storeDecoded_dcount s v lossev hout, decodedBytes]
  case length => rw [complete_selLen, storeDecoded_selLen s v lossev hout, decodedBytes]
  case values => rw [complete_selHalf, storeDecoded_selHalf s v lossev hout hi, decodedBytes]
  case cleared =>
    subst hv
    exact (complete_qcHalf _ e fs k).trans (storeDecoded_qcHalf_of_lt s _ lossev hk hk')
  case bytes => exact (complete_byteAt _ e fs k).trans (storeDecoded_byteAt s v _ lossev hk)
  case ends =>
    rw [complete_lossev, storeDecoded_lossev]
    unfold HdecEnds at hend
    split_ifs at hend ⊢ <;> obtain ⟨rfl, rfl, rfl⟩ := hend
    · exact ⟨hcompleted, rfl⟩
    · exact ⟨hcompleted, satCount_toNat _ _⟩
    · exact ⟨hcompleted, rfl⟩

end Sys2Proof.Proofs
end

section
/-! SUPPORT. Where no codeword begins another, a stream of codewords has one parse, and it gives the symbols back
(43_entropy R260). -/

namespace Sys2Proof.Machine

/-- No codeword of the table begins another. -/
def State.PrefixFree (s : State) : Prop :=
  ∀ b c : Byte, b ≠ c → (s.entry b).len ≠ 0#6 → (s.entry c).len ≠ 0#6 → ¬ (s.entry b).bits <+: (s.entry c).bits

/-- A bit sequence is the codeword of a symbol when it is the bits of a usable entry (43_entropy R236, R237). -/
theorem isCodeword_iff_bits (s : State) (b : Byte) (w : List Bool) :
    s.IsCodeword b w ↔ (1 ≤ (s.entry b).len.toNat ∧ (s.entry b).len.toNat ≤ 32) ∧ (s.entry b).bits = w := by
  constructor
  · rintro ⟨hpos, hle, hlen, hcode⟩
    refine ⟨by omega, eq_of_bitValue_eq (by rw [length_codeEntry_bits, hlen]) ?_⟩
    rw [bitValue_bits, hlen, hcode]
  · rintro ⟨⟨hpos, hle⟩, rfl⟩
    rw [State.IsCodeword, length_codeEntry_bits, bitValue_bits]
    exact ⟨hpos, hle, rfl, rfl⟩

theorem State.IsCodeword.len_ne_zero {s : State} {b : Byte} {w : List Bool} (h : s.IsCodeword b w) :
    (s.entry b).len ≠ 0#6 := by
  obtain ⟨⟨hpos, -⟩, -⟩ := (isCodeword_iff_bits s b w).1 h
  intro hzero
  rw [hzero] at hpos
  exact absurd hpos (by decide)

/-- Two codewords that begin one stream are the same one. -/
theorem eq_of_codeword_prefix {s : State} (hfree : s.PrefixFree) {b c : Byte} {p q bits : List Bool}
    (hb : s.IsCodeword b p) (hc : s.IsCodeword c q) (hp : p <+: bits) (hq : q <+: bits) : b = c ∧ p = q := by
  obtain ⟨-, hbBits⟩ := (isCodeword_iff_bits s b p).1 hb
  obtain ⟨-, hcBits⟩ := (isCodeword_iff_bits s c q).1 hc
  have hsym : b = c := by
    by_contra hne
    obtain hpq | hqp := List.prefix_or_prefix_of_prefix hp hq
    · exact hfree b c hne hb.len_ne_zero hc.len_ne_zero (hbBits.symm ▸ hcBits.symm ▸ hpq)
    · exact hfree c b (Ne.symm hne) hc.len_ne_zero hb.len_ne_zero
        (hbBits.symm ▸ hcBits.symm ▸ hqp)
  exact ⟨hsym, by rw [← hbBits, ← hcBits, hsym]⟩

/-- By induction on the symbols encoded: the first unit of a parse is the first codeword. -/
theorem State.Parses.units_eq {s : State} (hfree : s.PrefixFree) {bs : List Byte}
    (hcoded : ∀ b ∈ bs, 1 ≤ (s.entry b).len.toNat ∧ (s.entry b).len.toNat ≤ 32) {units : List (Byte × List Bool)}
    {rest : List Bool} (h : s.Parses (encodeBytes s bs) units rest) : units.map Prod.fst = bs ∧ rest = [] := by
  induction bs generalizing units with
  | nil =>
    obtain ⟨hbits, hunits, -⟩ := h
    obtain ⟨hempty, hrest⟩ := List.append_eq_nil_iff.1 hbits
    cases units with
    | nil => exact ⟨rfl, hrest⟩
    | cons u units =>
      obtain ⟨⟨⟨hpos, -⟩, -⟩, -⟩ := hunits u List.mem_cons_self
      rw [List.flatMap_cons, List.append_eq_nil_iff] at hempty
      obtain ⟨hword, -⟩ := hempty
      rw [hword] at hpos
      exact absurd hpos (by decide)
  | cons b bs ih =>
    obtain ⟨hbits, hunits, hrest⟩ := h
    have hb : s.IsCodeword b (s.entry b).bits :=
      (isCodeword_iff_bits s b _).2 ⟨hcoded b List.mem_cons_self, rfl⟩
    rw [encodeBytes, List.flatMap_cons] at hbits
    cases units with
    | nil =>
      rw [List.flatMap_nil, List.nil_append] at hbits
      exact absurd hb (hrest _ (hbits ▸ List.prefix_append _ _) b)
    | cons u units =>
      obtain ⟨⟨hu, -⟩, -⟩ := hunits u List.mem_cons_self
      rw [List.flatMap_cons, List.append_assoc] at hbits
      have huPrefix := List.prefix_append u.2 (units.flatMap Prod.snd ++ rest)
      rw [hbits] at huPrefix
      obtain ⟨hsym, hword⟩ := eq_of_codeword_prefix hfree hu hb huPrefix (List.prefix_append _ _)
      rw [hword, List.append_cancel_left_eq] at hbits
      obtain ⟨hbs, hnil⟩ := ih (fun c hc => hcoded c (List.mem_cons_of_mem b hc))
        ⟨hbits, fun x hx => hunits x (List.mem_cons_of_mem u hx), hrest⟩
      exact ⟨by rw [List.map_cons, hsym, hbs], hnil⟩

/-- A parse of what HENC stored gives the array's bytes back, and no bit is left over. -/
theorem State.Parses.units_eq_of_storeStream {t : State} {v : Sel} {units : List (Byte × List Bool)} {rest : List Bool}
    (hfree : t.PrefixFree) (hcoded : t.Coded v) (hfits : encodedLength t (t.src v) ≤ 1048576)
    (h : (complete (storeStream t v) .ok []).Parses
      ((complete (storeStream t v) .ok []).stream (complete (storeStream t v) .ok []).blen.toNat) units rest) :
    units.map Prod.fst = t.src v ∧ rest = [] := by
  have hentry : (complete (storeStream t v) .ok []).entry = t.entry := by
    funext b
    rw [complete_entry, storeStream_entry]
  rw [complete_stream, complete_blen, storeStream_blen hfits, storeStream_stream, encodeBytes, ← hentry] at h
  refine h.units_eq ?free ?coded
  case free => rwa [State.PrefixFree, hentry]
  case coded => rwa [hentry]

/-- The pairs of an array's bytes are its values (20_memory R96). -/
theorem src_getD_pair (s : State) (v : Sel) {i : Nat} (hi : i < s.selLen v) :
    (s.src v).getD (2 * i + 1) 0#8 ++ (s.src v).getD (2 * i) 0#8 = s.selHalf v i := by
  rw [← getD_halvesOf _ _ (by rw [length_src]; omega), State.src, halvesOf_bytesOf, State.selArray,
    List.getD_eq_getElem _ _ (by simpa using hi), List.getElem_map, List.getElem_range]

end Sys2Proof.Machine
end

section
/-! CERTIFICATE. The statement about the coder as a whole. -/

namespace Sys2Proof.Proofs
open Sys2Proof Sys2Proof.Machine

/-- Settles O36: no codeword of HBUILD's table begins another, so HDEC parses HENC's stream into the codewords it was
made of. -/
theorem entropyCodingIsLossless : Obligations.EntropyCodingIsLossless := by
  intro s t u f v hf hbuild hok henc _
  obtain ⟨hlen, htLen, htSrc, -⟩ := hbuild_ok hf hbuild hok
  obtain ⟨hcoded, hbits⟩ := coded_of_hbuild hf hbuild hok
  have hfits := hbits.trans (eight_mul_selLen_le hlen)
  obtain rfl := Host.Outcome.next.inj ((execHenc_of_passes hf (htLen ▸ hlen) hcoded hfits).symm.trans henc)
  obtain ⟨-, -, hdecodes⟩ := hdecDecodesTheStream
  obtain ⟨-, hpasses⟩ := hdecodes (complete (storeStream t v) .ok []) f v hf
  obtain ⟨w, units, rest, hparses, hexec, hends, hdcount, hwLen, hvalues, -⟩ := hpasses
    (by rwa [complete_blen, storeStream_blen hfits])
  obtain ⟨hunits, rfl⟩ := hparses.units_eq_of_storeStream (hbuildCodesArePrefixFree s t f v hf hbuild hok) hcoded hfits
  have hcount : units.length = 2 * s.selLen v := by rw [← length_src, ← htSrc, ← hunits, List.length_map]
  have hout : (units.map Prod.fst).take (2 * v.capacity) = s.src v := by
    rw [hunits, htSrc, List.take_of_length_le (by rw [length_src]; omega)]
  rw [hout, length_src] at hdcount hwLen
  rw [hout, length_src, Nat.mul_div_cancel_left _ (by decide)] at hvalues
  rw [if_neg (by omega), if_neg (not_not.2 rfl)] at hends
  obtain ⟨hcompleted, -⟩ := hends
  refine ⟨w, hexec, errByte_of_completedWith hcompleted, ?count, by omega, fun i hi => ?value⟩
  case count =>
    refine BitVec.eq_of_toNat_eq (hdcount.trans ?_)
    rw [complete_symcount, storeStream_symcount (htLen ▸ hlen), htLen]
  case value => rw [hvalues i hi, src_getD_pair s v hi]

end Sys2Proof.Proofs
end

section
/-! SUPPORT. The random source after a number of draws, and the units of a stream that survive one draw each
(44_channel R271, R272). -/

namespace Sys2Proof.Machine

theorem toNat_lcgNext (x : Word) : (lcgNext x).toNat = lcgStep x.toNat := by
  rw [lcgNext, lcgStep, BitVec.toNat_add, BitVec.toNat_mul, BitVec.toNat_ofNat, BitVec.toNat_ofNat,
    Nat.mod_eq_of_lt (show 1664525 < 2 ^ 32 by decide), Nat.mod_eq_of_lt (show 1013904223 < 2 ^ 32 by decide),
    Nat.mod_add_mod]

theorem draw_fst_of_lcg {d : Draws} (h : d.source = .lcg) : (draw d).1 = lcgStep d.rng.toNat / 65536 := by
  rw [draw_eq, h, lcgStep]

theorem draw_snd_of_lcg {d : Draws} (h : d.source = .lcg) : (draw d).2 = { d with rng := lcgNext d.rng } := by
  rw [draw_eq, h]

theorem draw_of_injected {d : Draws} (h : d.source = .injected) :
    draw d = ((Config.injectedDraw d.count).toNat, { d with count := d.count + 1 }) := by
  rw [draw_eq, h]

/-- The random source of a state after `n` draws. -/
def State.drawsAfter (s : State) : Nat → Draws
  | 0 => s.draws
  | n + 1 => (draw (s.drawsAfter n)).2

/-- `n` draws of the generator step RNG `n` times (44_channel R271). -/
theorem drawsAfter_of_lcg {s : State} (h : s.drawSource = .lcg) (n : Nat) :
    (s.drawsAfter n).source = .lcg ∧ (s.drawsAfter n).rng.toNat = lcgStep^[n] s.rng.toNat := by
  induction n with
  | zero => exact ⟨h, by rw [Function.iterate_zero_apply, State.drawsAfter, State.draws]⟩
  | succ n ih =>
    obtain ⟨hsource, hrng⟩ := ih
    rw [State.drawsAfter, draw_snd_of_lcg hsource, Function.iterate_succ_apply', ← hrng, ← toNat_lcgNext]
    exact ⟨hsource, rfl⟩

/-- `n` injected draws are counted, and leave RNG (assumption 7). -/
theorem drawsAfter_of_injected {s : State} (h : s.drawSource = .injected) (n : Nat) :
    s.drawsAfter n = { s.draws with count := s.freeCount + n } := by
  induction n with
  | zero => rfl
  | succ n ih =>
    rw [State.drawsAfter, ih, draw_of_injected h]
    rfl

theorem drawsAfter_rng (s : State) (n : Nat) : (s.drawsAfter n).rng.toNat = s.rngAfter n := by
  cases h : s.drawSource with
  | lcg =>
    obtain ⟨-, hrng⟩ := drawsAfter_of_lcg h n
    rw [hrng, State.rngAfter, h]
  | injected => rw [drawsAfter_of_injected h, State.rngAfter, h, State.draws]

/-- The model's draw for unit `n` is the spec's. -/
theorem draw_drawsAfter (s : State) (n : Nat) : (draw (s.drawsAfter n)).1 = s.drawAt n := by
  cases h : s.drawSource with
  | lcg =>
    obtain ⟨hsource, hrng⟩ := drawsAfter_of_lcg h n
    rw [draw_fst_of_lcg hsource, hrng, State.drawAt, h, Function.iterate_succ_apply']
  | injected => rw [drawsAfter_of_injected h, draw_of_injected h, State.drawAt, h]

/-- A draw is an integer 0..65535 (44_channel R271). -/
theorem drawAt_lt (s : State) (n : Nat) : s.drawAt n < 65536 := by
  cases h : s.drawSource with
  | lcg =>
    have hrng : lcgStep (lcgStep^[n] s.rng.toNat) < 2 ^ 32 := Nat.mod_lt _ (by decide)
    simp only [State.drawAt, h, Function.iterate_succ_apply']
    omega
  | injected =>
    simp only [State.drawAt, h]
    exact BitVec.isLt _

section Survivors
variable {α : Type} (s : State)

/-- The units, the first of them unit `n` of the stream, whose draw is at least LOSS_T, each with its number. -/
def State.survivorsFrom (n : Nat) (us : List α) : List (α × Nat) :=
  (us.zipIdx n).filter fun p => s.lossT.toNat ≤ s.drawAt p.2

theorem survivorsFrom_cons (n : Nat) (u : α) (us : List α) : s.survivorsFrom n (u :: us) =
    if s.lossT.toNat ≤ s.drawAt n then (u, n) :: s.survivorsFrom (n + 1) us else s.survivorsFrom (n + 1) us := by
  simp only [State.survivorsFrom, List.zipIdx_cons, List.filter_cons, decide_eq_true_eq]

theorem length_survivorsFrom_le (n : Nat) (us : List α) : (s.survivorsFrom n us).length ≤ us.length :=
  (List.length_filter_le _ _).trans_eq List.length_zipIdx

/-- What the channel keeps of units whose bits `f` gives: the bits of the survivors, one draw a unit. -/
theorem eraseUnits_map (f : α → List Bool) (us : List α) : ∀ n,
    eraseUnits s.lossT.toNat (s.drawsAfter n) (us.map f) =
      ⟨(s.survivorsFrom n us).flatMap (fun p => f p.1), us.length - (s.survivorsFrom n us).length,
        s.drawsAfter (n + us.length)⟩ := by
  induction us with
  | nil => exact fun n => rfl
  | cons u us ih =>
    intro n
    have hle := length_survivorsFrom_le s (n + 1) us
    have hcount : n + 1 + us.length = n + (us.length + 1) := by omega
    rw [List.map_cons, eraseUnits, draw_drawsAfter, survivorsFrom_cons, List.length_cons, ← hcount,
      ← State.drawsAfter, ih]
    by_cases hdraw : s.lossT.toNat ≤ s.drawAt n
    · rw [if_pos hdraw, if_pos hdraw, List.flatMap_cons, List.length_cons, Nat.add_sub_add_right]
    · rw [if_neg hdraw, if_neg hdraw, Nat.sub_add_comm hle]

theorem eraseUnits_draws (f : α → List Bool) (us : List α) :
    eraseUnits s.lossT.toNat s.draws (us.map f) =
      ⟨(s.survivorsFrom 0 us).flatMap (fun p => f p.1), us.length - (s.survivorsFrom 0 us).length,
        s.drawsAfter us.length⟩ := by
  have h := eraseUnits_map s f us 0
  rwa [Nat.zero_add] at h

/-- No draw is below a loss threshold of 0 (44_channel R275 (a)). -/
theorem survivorsFrom_of_lossT_zero {s : State} (h : s.lossT = 0#32) (n : Nat) (us : List α) :
    s.survivorsFrom n us = us.zipIdx n :=
  List.filter_eq_self.2 fun p _ => by simp [h]

/-- Every draw is below a loss threshold of 65536 (44_channel R275 (b)). -/
theorem survivorsFrom_of_lossT_full {s : State} (h : s.lossT = 65536#32) (n : Nat) (us : List α) :
    s.survivorsFrom n us = [] :=
  List.filter_eq_nil_iff.2 fun p _ => by
    have hdraw := drawAt_lt s p.2
    simpa [h] using hdraw

end Survivors

end Sys2Proof.Machine
end

section
/-! SUPPORT. ERASE of a stream that is cut into units and a rest: what it stores, and what it reports
(44_channel R273, R274). -/

namespace Sys2Proof.Machine

/-- The bits that survive: those of the surviving units, whole and in order, then the rest. -/
def keptBits {α : Type} (s : State) (f : α → List Bool) (us : List α) (rest : List Bool) : List Bool :=
  (s.survivorsFrom 0 us).flatMap (fun p => f p.1) ++ rest

/-- `s` with what ERASE stores when `us` are the units of the stream, with the bits `f` gives, and `rest` its end. -/
def storeSurvivors {α : Type} (s : State) (f : α → List Bool) (us : List α) (rest : List Bool) : State :=
  storeErased s (eraseUnits s.lossT.toNat s.draws (us.map f)) (keptBits s f us rest)

/-- The stream is cut into units of at least one bit and a rest. -/
structure Cuts {α : Type} (s : State) (f : α → List Bool) (us : List α) (rest : List Bool) : Prop where
  bits : us.flatMap f ++ rest = s.stream s.blen.toNat
  pos : ∀ u ∈ us, 1 ≤ (f u).length

theorem cuts_bits (s : State) : Cuts s (fun b => [b]) (s.stream s.blen.toNat) [] :=
  ⟨by rw [List.append_nil, List.flatMap_singleton'], fun _ _ => le_rfl⟩

theorem cuts_parsed (s : State) : Cuts s Prod.snd s.parsed.units s.parsed.rest := by
  obtain ⟨hbits, hunits, -⟩ := parses_parsed s
  refine ⟨hbits, fun u hu => ?_⟩
  obtain ⟨⟨⟨hpos, -⟩, -⟩, -⟩ := hunits u hu
  exact hpos

section Stored
variable {α : Type} {s : State} {f : α → List Bool} {us : List α} {rest : List Bool}

@[simp] theorem storeSurvivors_sticky : (storeSurvivors s f us rest).sticky = s.sticky := rfl
@[simp] theorem storeSurvivors_cmdcnt : (storeSurvivors s f us rest).cmdcnt = s.cmdcnt := rfl
@[simp] theorem storeSurvivors_ip : (storeSurvivors s f us rest).ip = s.ip := rfl
@[simp] theorem storeSurvivors_mem :
    (storeSurvivors s f us rest).mem = storeBits s.mem (keptBits s f us rest) := rfl

theorem storeSurvivors_rng (s : State) (f : α → List Bool) (us : List α) (rest : List Bool) :
    (storeSurvivors s f us rest).rng.toNat = s.rngAfter us.length := by
  rw [storeSurvivors, eraseUnits_draws, storeErased, drawsAfter_rng]

/-- The stored stream reads back (43_entropy R240). -/
theorem storeSurvivors_stream :
    (storeSurvivors s f us rest).stream (keptBits s f us rest).length = keptBits s f us rest := by
  refine List.ext_getElem (length_stream _ _) fun i hi hi' => ?_
  have hword : i < 32 * streamWords (keptBits s f us rest).length := by
    rw [streamWords]
    omega
  simp only [State.stream, storeSurvivors_mem, List.getElem_map, List.getElem_range, streamBit_storeBits, if_pos hword]
  exact List.getD_eq_getElem _ _ hi'

/-- The rest of the last word is 0 (43_entropy R240). -/
theorem storeSurvivors_streamBit_of_le {i : Nat} (h : (keptBits s f us rest).length ≤ i)
    (h' : i < 32 * streamWords (keptBits s f us rest).length) :
    (storeSurvivors s f us rest).mem.streamBit i = false := by
  rw [storeSurvivors_mem, streamBit_storeBits, if_pos h']
  exact List.getD_eq_default _ _ h

theorem storeSurvivors_byteAt_of_outside {k : Nat}
    (h : ¬ (bsBase ≤ k / 4 ∧ k / 4 < bsBase + streamWords (keptBits s f us rest).length)) :
    (storeSurvivors s f us rest).byteAt k = s.byteAt k :=
  byteAt_storeBits_of_outside s.mem _ h

variable (hcuts : Cuts s f us rest)
include hcuts

theorem Cuts.sum_length : (us.map fun u => (f u).length).sum + rest.length = s.blen.toNat := by
  have h := congrArg List.length hcuts.bits
  rwa [List.length_append, List.length_flatMap, length_stream] at h

theorem Cuts.length_le : us.length ≤ s.blen.toNat := by
  have hpos := List.length_le_sum_of_one_le (us.map fun u => (f u).length) (List.forall_mem_map.2 hcuts.pos)
  have hsum := hcuts.sum_length
  rw [List.length_map] at hpos
  omega

theorem Cuts.length_keptBits_le : (keptBits s f us rest).length ≤ s.blen.toNat := by
  obtain ⟨hkept, -⟩ := eraseUnits_length_le s.lossT.toNat (us.map f) s.draws
  rw [eraseUnits_draws, List.map_map] at hkept
  rw [keptBits, List.length_append, ← hcuts.sum_length]
  exact Nat.add_le_add_right hkept _

theorem storeSurvivors_blen : (storeSurvivors s f us rest).blen.toNat = (keptBits s f us rest).length := by
  have hle := hcuts.length_keptBits_le
  rw [storeSurvivors, storeErased, BitVec.toNat_ofNat, Nat.mod_eq_of_lt (hle.trans_lt s.blen.isLt)]

theorem storeSurvivors_dropcnt :
    (storeSurvivors s f us rest).dropcnt.toNat + (s.survivorsFrom 0 us).length = us.length := by
  have hle := hcuts.length_le
  have hsurvivors := length_survivorsFrom_le s 0 us
  have hblen := s.blen.isLt
  simp only [storeSurvivors, eraseUnits_draws, storeErased, BitVec.toNat_ofNat]
  omega

end Stored

end Sys2Proof.Machine
end

section
/-! SUPPORT. ERASE is the storing of the survivors, of the stream's bits or of its codewords, and a stream has one parse
into codewords (44_channel R273, R274, 43_entropy R238). -/

namespace Sys2Proof.Machine

theorem execErase_of_check {g : BitVec 1} {s : State} {e : ErrCode} (h : lengthCheck s.blen Config.bsmax = some e) :
    exec (.erase g) s = .next (raise s e) := by
  simp only [exec, execErase, h]

theorem eraseBits_eq (s : State) : eraseBits s = storeSurvivors s (fun b => [b]) (s.stream s.blen.toNat) [] := by
  rw [eraseBits, storeSurvivors, keptBits, List.append_nil]
  simp only [eraseUnits_draws]

theorem eraseCodewords_eq (s : State) :
    eraseCodewords s = storeSurvivors s Prod.snd s.parsed.units s.parsed.rest := by
  rw [eraseCodewords, storeSurvivors, keptBits]
  simp only [eraseUnits_draws]

section Passes
variable {s : State} (h : s.blen.toNat ≤ 1048576)
include h

theorem execErase_bit : exec (.erase 0#1) s =
    .next (complete (storeSurvivors s (fun b => [b]) (s.stream s.blen.toNat) []) .ok []) := by
  simp only [exec, execErase, (lengthCheck_eq_none _ _).2 h, if_true, eraseBits_eq]

theorem execErase_codeword : exec (.erase 1#1) s =
    .next (complete (storeSurvivors s Prod.snd s.parsed.units s.parsed.rest) .ok []) := by
  simp only [exec, execErase, (lengthCheck_eq_none _ _).2 h, eraseCodewords_eq]
  rfl

end Passes

theorem keptBits_bits (s : State) (bits : List Bool) :
    keptBits s (fun b => [b]) bits [] = (s.survivorsFrom 0 bits).map Prod.fst := by
  rw [keptBits, List.append_nil, List.map_eq_flatMap]

section EndsOfTheLossRate
variable {α : Type} {s : State} {f : α → List Bool} {us : List α} {rest : List Bool}

theorem keptBits_of_lossT_zero (h : s.lossT = 0#32) : keptBits s f us rest = us.flatMap f ++ rest := by
  rw [keptBits, survivorsFrom_of_lossT_zero h, ← List.flatMap_map Prod.fst f, List.zipIdx_map_fst]

theorem keptBits_of_lossT_full (h : s.lossT = 65536#32) : keptBits s f us rest = rest := by
  rw [keptBits, survivorsFrom_of_lossT_full h, List.flatMap_nil, List.nil_append]

/-- At loss rate 0 the stream, however it is cut, is unchanged (44_channel R275 (a)). -/
theorem storeSurvivors_of_lossT_zero (hcuts : Cuts s f us rest) (h : s.lossT = 0#32) :
    (storeSurvivors s f us rest).blen = s.blen ∧
      (storeSurvivors s f us rest).stream s.blen.toNat = s.stream s.blen.toNat ∧
      (storeSurvivors s f us rest).dropcnt = 0#32 := by
  have hkept : keptBits s f us rest = s.stream s.blen.toNat := (keptBits_of_lossT_zero h).trans hcuts.bits
  have hlen : (keptBits s f us rest).length = s.blen.toNat := by rw [hkept, length_stream]
  have hdropped := storeSurvivors_dropcnt hcuts
  rw [survivorsFrom_of_lossT_zero h, List.length_zipIdx] at hdropped
  refine ⟨BitVec.eq_of_toNat_eq ?_, ?_, BitVec.eq_of_toNat_eq ?_⟩
  · rw [storeSurvivors_blen hcuts, hlen]
  · rw [← hkept, ← hlen, storeSurvivors_stream]
  · rw [BitVec.toNat_ofNat]
    omega

/-- At loss rate 1 a stream that is cut into units with no rest is emptied, and no byte is stored (44_channel
R275 (b)). -/
theorem storeSurvivors_of_lossT_full (hcuts : Cuts s f us []) (h : s.lossT = 65536#32) :
    (storeSurvivors s f us []).blen = 0#32 ∧ (storeSurvivors s f us []).dropcnt.toNat = us.length ∧
      ∀ k, (storeSurvivors s f us []).byteAt k = s.byteAt k := by
  have hkept : keptBits s f us [] = [] := keptBits_of_lossT_full h
  have hdropped := storeSurvivors_dropcnt hcuts
  rw [survivorsFrom_of_lossT_full h, List.length_nil, Nat.add_zero] at hdropped
  refine ⟨BitVec.eq_of_toNat_eq ?_, hdropped, fun k => storeSurvivors_byteAt_of_outside ?_⟩
  · rw [storeSurvivors_blen hcuts, hkept]
    rfl
  · rw [hkept, streamWords, List.length_nil]
    omega

end EndsOfTheLossRate

/-- A unit of a parse: a symbol with the bits that match it, no shorter beginning of which is a codeword. -/
def State.IsUnit (s : State) (u : Byte × List Bool) : Prop :=
  s.Matches u.2 u.1 ∧ ∀ w, w <+: u.2 → w ≠ u.2 → ∀ c, ¬ s.IsCodeword c w

/-- A sequence begins with one unit at most: of two, the shorter would have matched before the longer, and the lookup
finds one symbol. -/
theorem State.IsUnit.eq_of_prefix {s : State} {u u' : Byte × List Bool} {bits : List Bool} (h : s.IsUnit u)
    (h' : s.IsUnit u') (hu : u.2 <+: bits) (hu' : u'.2 <+: bits) : u = u' := by
  obtain ⟨hmatch, hfirst⟩ := h
  obtain ⟨hmatch', hfirst'⟩ := h'
  obtain ⟨hcode, -⟩ := id hmatch
  obtain ⟨hcode', -⟩ := id hmatch'
  have hword : u.2 = u'.2 := by
    by_contra hne
    obtain hle | hle := List.prefix_or_prefix_of_prefix hu hu'
    · exact hfirst' u.2 hle hne u.1 hcode
    · exact hfirst u'.2 hle (Ne.symm hne) u'.1 hcode'
  have hfound := (matchBits_eq_some_iff s u.2 u.1).2 hmatch
  rw [hword, (matchBits_eq_some_iff s u'.2 u'.1).2 hmatch'] at hfound
  exact Prod.ext (Option.some.inj hfound).symm hword

/-- When a parse has no unit the sequence begins with no codeword, so no parse of it has one. -/
theorem State.Parses.units_eq_nil {s : State} {bits rest rest' : List Bool} {units : List (Byte × List Bool)}
    (h : s.Parses bits [] rest) (h' : s.Parses bits units rest') : units = [] := by
  obtain ⟨rfl, -, hrest⟩ := h
  obtain ⟨hbits, hunits, -⟩ := h'
  cases units with
  | nil => rfl
  | cons u units =>
    obtain ⟨⟨hcode, -⟩, -⟩ := hunits u List.mem_cons_self
    rw [List.flatMap_cons, List.append_assoc] at hbits
    exact absurd hcode (hrest u.2 ⟨_, hbits⟩ u.1)

/-- A sequence has one parse, by induction on the units: the first units of two parses are the same. -/
theorem State.Parses.unique {s : State} {bits rest rest' : List Bool} {units units' : List (Byte × List Bool)}
    (h : s.Parses bits units rest) (h' : s.Parses bits units' rest') : units = units' ∧ rest = rest' := by
  induction units generalizing bits units' with
  | nil =>
    obtain rfl := h.units_eq_nil h'
    obtain ⟨hbits, -⟩ := h
    obtain ⟨hbits', -⟩ := h'
    exact ⟨rfl, hbits.trans hbits'.symm⟩
  | cons u units ih =>
    cases units' with
    | nil => exact absurd (h'.units_eq_nil h) (List.cons_ne_nil _ _)
    | cons u' units' =>
      obtain ⟨hbits, hunits, hrest⟩ := h
      obtain ⟨hbits', hunits', hrest'⟩ := h'
      rw [List.flatMap_cons, List.append_assoc] at hbits hbits'
      obtain rfl : u = u' := State.IsUnit.eq_of_prefix (hunits u List.mem_cons_self) (hunits' u' List.mem_cons_self)
        ⟨_, hbits⟩ ⟨_, hbits'⟩
      have htail := List.append_cancel_left (hbits.trans hbits'.symm)
      obtain ⟨rfl, rfl⟩ := ih ⟨htail, fun x hx => hunits x (List.mem_cons_of_mem u hx), hrest⟩
        ⟨rfl, fun x hx => hunits' x (List.mem_cons_of_mem u hx), hrest'⟩
      exact ⟨rfl, rfl⟩

end Sys2Proof.Machine
end

section
/-! CERTIFICATE. The statements about the Channel Simulator. -/

namespace Sys2Proof.Proofs
open Sys2Proof Sys2Proof.Machine

/-- Settles O37: the bits of the stream are the units, one draw each. -/
theorem eraseBitKeepsByDraw : Obligations.EraseBitKeepsByDraw := by
  refine ⟨(legalWordsAreExactlySeventeen _ _).2 (by decide), fun s => ⟨fun hlen => ?badLength, fun hlen => ?_⟩⟩
  case badLength => exact raises_of_exec (execErase_of_check (lengthCheck_of_length hlen))
  intro kept
  have hexec := execErase_bit hlen
  have hcuts := cuts_bits s
  have hkept : keptBits s (fun b => [b]) (s.stream s.blen.toNat) [] = kept := keptBits_bits s _
  have hsurvivors : (s.survivorsFrom 0 (s.stream s.blen.toNat)).length = kept.length := (List.length_map _).symm
  refine ⟨_, hexec, completedWith_complete_of_eq _ _ (by simp) (by simp) (by simp), ?length, ?stream, ?dropped, ?rng,
    fun i hi hi' => ?filled, (commandsWriteOnlyWhatTheTableLists (.erase 0#1) s _ hexec).1, fun k hk => ?bytes⟩
  case length => rw [complete_blen, storeSurvivors_blen hcuts, hkept]
  case stream => rw [complete_stream, ← hkept, storeSurvivors_stream]
  case dropped => rw [complete_dropcnt, ← hsurvivors, storeSurvivors_dropcnt hcuts, length_stream]
  case rng => rw [complete_rng, storeSurvivors_rng, length_stream]
  case filled => exact storeSurvivors_streamBit_of_le (hkept ▸ hi) (hkept ▸ hi')
  case bytes => exact storeSurvivors_byteAt_of_outside (hkept ▸ hk)

/-- Settles O38: the model's scan is the parse, and its codewords are the units, one draw each. -/
theorem eraseCodewordKeepsByDraw : Obligations.EraseCodewordKeepsByDraw := by
  refine ⟨(legalWordsAreExactlySeventeen _ _).2 (by decide), fun s => ⟨fun hlen => ?badLength, fun hlen => ?_⟩⟩
  case badLength => exact raises_of_exec (execErase_of_check (lengthCheck_of_length hlen))
  have hexec := execErase_codeword hlen
  have hcuts := cuts_parsed s
  exact ⟨_, s.parsed.units, s.parsed.rest, parses_parsed s, hexec,
    completedWith_complete_of_eq _ _ (by simp) (by simp) (by simp), storeSurvivors_blen hcuts, storeSurvivors_stream,
    storeSurvivors_dropcnt hcuts, storeSurvivors_rng s _ _ s.parsed.rest, fun i => storeSurvivors_streamBit_of_le,
    (commandsWriteOnlyWhatTheTableLists (.erase 1#1) s _ hexec).1, fun k => storeSurvivors_byteAt_of_outside⟩

/-- Settles O39: no draw is below 0 and every draw is below 65536; a stream has one parse, so the given one is the
scan's. -/
theorem eraseAtTheEndsOfTheLossRate : Obligations.EraseAtTheEndsOfTheLossRate := by
  intro s hlen
  refine ⟨fun hzero g => ?unchanged, fun hfull => ?noBits, fun hfull units hparses => ?noCodewords⟩
  case unchanged =>
    obtain rfl | rfl := BitVec.eq_zero_or_eq_one g
    · exact ⟨_, execErase_bit hlen, storeSurvivors_of_lossT_zero (cuts_bits s) hzero⟩
    · exact ⟨_, execErase_codeword hlen, storeSurvivors_of_lossT_zero (cuts_parsed s) hzero⟩
  case noBits =>
    obtain ⟨hblen, hdropped, hbytes⟩ := storeSurvivors_of_lossT_full (cuts_bits s) hfull
    rw [length_stream] at hdropped
    exact ⟨_, execErase_bit hlen, hblen, BitVec.eq_of_toNat_eq hdropped, hbytes⟩
  case noCodewords =>
    obtain ⟨hunits, hrest⟩ := (parses_parsed s).unique hparses
    have hexec := execErase_codeword hlen
    have hcuts := cuts_parsed s
    rw [hunits, hrest] at hexec hcuts
    exact ⟨_, hexec, storeSurvivors_of_lossT_full hcuts hfull⟩

end Sys2Proof.Proofs
end

section
/-! SUPPORT. FIDEL: its checks in their order, and the two energies, which fit 64 bits (45_fidelity R290). -/

namespace Sys2Proof.Machine

/-- LEN and YLEN have the same capacity, so either of them over it is reported alike. -/
theorem fidelCheck_of_length {s : State} (h : 65536 < s.len.toNat ∨ 65536 < s.ylen.toNat) :
    firstOf (lengthCheck s.len Config.nmax) (lengthCheck s.ylen Config.nmax) = some .invalidLength := by
  by_cases hlen : 65536 < s.len.toNat
  · rw [lengthCheck_of_length hlen, firstOf]
  · rw [(lengthCheck_eq_none _ _).2 (Nat.not_lt.1 hlen), firstOf, lengthCheck_of_length (h.resolve_left hlen)]

theorem fidelCheck_of_legal {s : State} (hlen : s.len.toNat ≤ 65536) (hylen : s.ylen.toNat ≤ 65536) :
    firstOf (lengthCheck s.len Config.nmax) (lengthCheck s.ylen Config.nmax) = none :=
  (firstOf_eq_none _ _).2 ⟨(lengthCheck_eq_none _ _).2 hlen, (lengthCheck_eq_none _ _).2 hylen⟩

theorem execFidel_of_check {m : BitVec 1} {s : State} {e : ErrCode}
    (h : firstOf (lengthCheck s.len Config.nmax) (lengthCheck s.ylen Config.nmax) = some e) :
    exec (.fidel m) s = .next (raise s e) := by
  rw [exec, execFidel, h]

section Passes
variable {m : BitVec 1} {s : State} (hlen : s.len.toNat ≤ 65536) (hylen : s.ylen.toNat ≤ 65536)
include hlen hylen

theorem execFidel_of_mismatch (hne : s.len ≠ s.ylen) (hm : m = 0#1) :
    exec (.fidel m) s = .next (raise s .lengthMismatch) := by
  rw [exec, execFidel, fidelCheck_of_legal hlen hylen]
  exact (if_neg hne).trans (if_pos hm)

/-- Equal lengths are their own minimum, so both forms compare the common prefix. -/
theorem execFidel_of_comparable (h : s.len = s.ylen ∨ m = 1#1) : exec (.fidel m) s =
    .next (storeEnergies s (min s.len.toNat s.ylen.toNat) (flagIf (s.len ≠ s.ylen) .degraded)) := by
  rw [exec, execFidel, fidelCheck_of_legal hlen hylen]
  by_cases heq : s.len = s.ylen
  · simp [heq, flagIf]
  · have hm : m = 1#1 := h.resolve_left heq
    simp [heq, hm, flagIf]

end Passes

theorem signalEnergy_eq_sum (s : State) (n : Nat) : signalEnergy s n = ∑ i ∈ Finset.range n, s.sample i ^ 2 := by
  simp only [signalEnergy, sumTo_eq_sum, pow_two]

theorem noiseEnergy_eq_sum (s : State) (n : Nat) :
    noiseEnergy s n = ∑ i ∈ Finset.range n, (s.sample i - s.recon i) ^ 2 := by
  simp only [noiseEnergy, sumTo_eq_sum, pow_two]

/-- The difference of two samples has magnitude below 2^16 (10_state R31, R33). -/
theorem sample_sub_recon_natAbs_le (s : State) (i : Nat) : (s.sample i - s.recon i).natAbs ≤ 65535 := by
  have hx := toInt16_mem (s.mem.half (xBase + i))
  have hy := toInt16_mem (s.mem.half (yBase + i))
  rw [State.sample, State.recon]
  omega

/-- At most 2^16 squares of less than 2^32 each: an energy stored as 64 bits reads back. -/
theorem toNat_ofInt64_sumTo_mul_self {n : Nat} (hn : n ≤ 65536) {f : Nat → Int} (hf : ∀ i, (f i).natAbs ≤ 65535) :
    ((BitVec.ofInt 64 (sumTo n fun i => f i * f i)).toNat : Int) = sumTo n fun i => f i * f i := by
  have hsquare : ∀ i < n, (f i * f i).natAbs ≤ 65535 * 65535 := fun i _ => by
    rw [Int.natAbs_mul]
    exact Nat.mul_le_mul (hf i) (hf i)
  have hsum := sumTo_natAbs_le hsquare
  have hnonneg : 0 ≤ sumTo n fun i => f i * f i := sumTo_nonneg fun i _ => mul_self_nonneg (f i)
  exact toNat_ofInt64 hnonneg (by omega)

section Stored
variable (s : State) {n : Nat} (fs : List Flag)

@[simp] theorem storeEnergies_byteAt (k : Nat) : (storeEnergies s n fs).byteAt k = s.byteAt k := by
  rw [storeEnergies, complete_byteAt]
  rfl

/-- Each undefined ratio is reported exactly when its energy is 0 (45_fidelity R292). -/
theorem completedWith_storeEnergies : CompletedWith s (storeEnergies s n fs) .ok
    (fs ++ flagIf (∑ i ∈ Finset.range n, (s.sample i - s.recon i) ^ 2 = 0) .enZero ++
      flagIf (∑ i ∈ Finset.range n, s.sample i ^ 2 = 0) .esZero) := by
  rw [← noiseEnergy_eq_sum, ← signalEnergy_eq_sum, ← beq_eq_decide, ← beq_eq_decide]
  exact completedWith_complete_of_eq _ _ rfl rfl rfl

variable (hn : n ≤ 65536)
include hn

theorem storeEnergies_es : ((storeEnergies s n fs).es.toNat : Int) = ∑ i ∈ Finset.range n, s.sample i ^ 2 := by
  rw [storeEnergies, complete_es, ← signalEnergy_eq_sum]
  exact toNat_ofInt64_sumTo_mul_self hn fun i => (sample_natAbs_le s i).trans (by omega)

theorem storeEnergies_en :
    ((storeEnergies s n fs).en.toNat : Int) = ∑ i ∈ Finset.range n, (s.sample i - s.recon i) ^ 2 := by
  rw [storeEnergies, complete_en, ← noiseEnergy_eq_sum]
  exact toNat_ofInt64_sumTo_mul_self hn (sample_sub_recon_natAbs_le s)

theorem storeEnergies_flen : (storeEnergies s n fs).flen.toNat = n := by
  rw [storeEnergies, complete_flen, BitVec.toNat_ofNat, Nat.mod_eq_of_lt (by omega)]

end Stored

end Sys2Proof.Machine
end

section
/-! CERTIFICATE. The statement about the Fidelity Evaluator. -/

namespace Sys2Proof.Proofs
open Sys2Proof Sys2Proof.Machine

/-- Settles O40: the samples compared are at most 2^16, so both energies fit their 64 bits. -/
theorem fidelSumsTheEnergies : Obligations.FidelSumsTheEnergies := by
  refine ⟨(legalWordsAreExactlySeventeen _ _).2 (by decide), (legalWordsAreExactlySeventeen _ _).2 (by decide),
    fun s m => ⟨fun hlen => ?badLength, fun hlen hylen hne hstrict => ?mismatch, fun hlen hylen hcomparable => ?_⟩⟩
  case badLength => exact raises_of_exec (execFidel_of_check (fidelCheck_of_length hlen))
  case mismatch => exact raises_of_exec (execFidel_of_mismatch hlen hylen hne hstrict)
  intro n es en
  have hexec := execFidel_of_comparable hlen hylen hcomparable
  have hn : n ≤ 65536 := min_le_of_left_le hlen
  exact ⟨_, hexec, completedWith_storeEnergies s _, storeEnergies_es s _ hn, storeEnergies_en s _ hn,
    storeEnergies_flen s _ hn, (commandsWriteOnlyWhatTheTableLists (.fidel m) s _ hexec).1, storeEnergies_byteAt s _⟩

end Sys2Proof.Proofs
end

section
/-! SUPPORT. The fields that host accesses of the busy window write, and the commands beside them: a command ends
alike whatever those fields hold, and with a code other than 0 it has written nothing, HDEC excepted (46_system R304,
R305). -/

namespace Sys2Proof.Machine

/-- The fields that the accesses of the busy window write: STICKY, IE and IP (20_memory R101), and the model's own
record, list and count. -/
structure WindowFields where
  sticky : Word
  ie : Word
  ip : Word
  reads : List Word
  script : List HostOp
  windowLeft : Nat

/-- `s` with those fields replaced. -/
def State.withWindow (s : State) (w : WindowFields) : State :=
  { s with
    sticky := w.sticky, ie := w.ie, ip := w.ip, reads := w.reads, script := w.script, windowLeft := w.windowLeft }

/-- Those fields of `s`. -/
def State.window (s : State) : WindowFields := ⟨s.sticky, s.ie, s.ip, s.reads, s.script, s.windowLeft⟩

theorem withWindow_window (s : State) : s.withWindow s.window = s := rfl

/-- From `s` the command completes `u` with a code and flags, and the same work is done and reported beside any values
of the window's fields. -/
def EndsAlike (i : Instr) (s u : State) (e : ErrCode) (fs : List Flag) : Prop :=
  ∀ w, exec i (s.withWindow w) = .next (complete (u.withWindow w) e fs)

/-- The command raises a code, or completes with code 0. -/
def RaisesOrSucceeds (i : Instr) (s : State) : Prop :=
  (∃ e, EndsAlike i s s e []) ∨ ∃ u fs, EndsAlike i s u .ok fs

theorem RaisesOrSucceeds.ends {i : Instr} {s : State} (h : RaisesOrSucceeds i s) : ∃ u e fs, EndsAlike i s u e fs := by
  obtain ⟨e, h⟩ | ⟨u, fs, h⟩ := h
  · exact ⟨s, e, [], h⟩
  · exact ⟨u, .ok, fs, h⟩

theorem execLevd_of_negative {s : State} (hcheck : estCheck s = none) (h0 : s.lag 0 < 0) :
    exec .levd s = .next (raise s .invalidAutocorr) := by
  rw [exec, execLevd, hcheck]
  exact if_pos h0

theorem execLevd_of_exceeds {s : State} (hcheck : estCheck s = none) (h0 : 0 < s.lag 0) (h : lagsExceed s = true) :
    exec .levd s = .next (raise s .invalidAutocorr) := by
  rw [exec, execLevd, hcheck]
  exact (if_neg (by omega)).trans ((if_neg (by omega)).trans (if_pos h))

/-! A `sel` that names no array is an illegal command (30_encoding R122). -/

theorem execHbuild_of_noArray {f : BitVec 2} (hf : Sel.ofField f = none) (s : State) :
    exec (.hbuild f) s = .next (raise s .illegalCommand) := by
  rw [exec, execHbuild, hf, illegalCommand]

theorem execHenc_of_noArray {f : BitVec 2} (hf : Sel.ofField f = none) (s : State) :
    exec (.henc f) s = .next (raise s .illegalCommand) := by
  rw [exec, execHenc, hf, illegalCommand]

theorem execHdec_of_noArray {f : BitVec 2} (hf : Sel.ofField f = none) (s : State) :
    exec (.hdec f) s = .next (raise s .illegalCommand) := by
  rw [exec, execHdec, hf, illegalCommand]

/-! Each command by the branches of its rule. No check, condition or stored value reads a window field, so the lemma of
a branch applies to `s.withWindow w` by the same fact about `s`. -/

theorem acorr_ends (s : State) : RaisesOrSucceeds .acorr s := by
  cases h : estCheck s with
  | some e => exact .inl ⟨e, fun w => execAcorr_of_check (s := s.withWindow w) h⟩
  | none => exact .inr ⟨storeLags s, [], fun w => execAcorr_of_passes (s := s.withWindow w) h⟩

theorem levd_ends (s : State) : RaisesOrSucceeds .levd s := by
  cases h : estCheck s with
  | some e => exact .inl ⟨e, fun w => execLevd_of_check (s := s.withWindow w) h⟩
  | none =>
    obtain h0 | h0 | h0 := lt_trichotomy (s.lag 0) 0
    · exact .inl ⟨_, fun w => execLevd_of_negative (s := s.withWindow w) h h0⟩
    · exact .inr ⟨storeSilence s, _, fun w => execLevd_of_silence (s := s.withWindow w) h h0⟩
    · cases hlags : lagsExceed s with
      | true => exact .inl ⟨_, fun w => execLevd_of_exceeds (s := s.withWindow w) h h0 hlags⟩
      | false =>
        exact .inr ⟨storeLevWork s (levRun s), flagIf (levRun s).stopped .ldstop ++ flagIf (levRun s).satA .satA,
          fun w => execLevd_of_signal (s := s.withWindow w) h h0 hlags⟩

theorem qcoef_ends (s : State) : RaisesOrSucceeds .qcoef s := by
  cases h : orderCheck s with
  | some e => exact .inl ⟨e, fun w => execQcoef_of_check (s := s.withWindow w) h⟩
  | none => exact .inr ⟨storeQcoef s, flagIf (0 < coefClamps s s.order.toNat) .qovf,
      fun w => execQcoef_of_passes (s := s.withWindow w) h⟩

theorem dqcoef_ends (s : State) : RaisesOrSucceeds .dqcoef s := by
  cases h : firstOf (orderCheck s) (lengthCheck s.clen Config.pmax) with
  | some e => exact .inl ⟨e, fun w => execDqcoef_of_check (s := s.withWindow w) h⟩
  | none => exact .inr ⟨storeDqcoef s, flagIf (s.clen ≠ s.order) .degraded,
      fun w => execDqcoef_of_passes (s := s.withWindow w) h⟩

theorem analyze_ends (s : State) : RaisesOrSucceeds .analyze s := by
  cases h : firstOf (lengthCheck s.len Config.nmax) (orderCheck s) with
  | some e => exact .inl ⟨e, fun w => execAnalyze_of_check (s := s.withWindow w) h⟩
  | none => exact .inr ⟨storeResidual s, flagIf (0 < (residual s).countP (clamped 16)) .qovf,
      fun w => execAnalyze_of_passes (s := s.withWindow w) h⟩

theorem synth_ends (s : State) : RaisesOrSucceeds .synth s := by
  cases h : firstOf (lengthCheck s.elen Config.nmax) (orderCheck s) with
  | some e => exact .inl ⟨e, fun w => execSynth_of_check (s := s.withWindow w) h⟩
  | none => exact .inr ⟨storeReconstruction s, flagIf (0 < (reconstruction s).countP (clamped 16)) .satY,
      fun w => execSynth_of_passes (s := s.withWindow w) h⟩

theorem hbuild_ends (f : BitVec 2) (s : State) : RaisesOrSucceeds (.hbuild f) s := by
  cases hf : Sel.ofField f with
  | none => exact .inl ⟨_, fun w => execHbuild_of_noArray hf (s.withWindow w)⟩
  | some v =>
    cases h : srcCheck s v with
    | some e => exact .inl ⟨e, fun w => execHbuild_of_check hf (s := s.withWindow w) h⟩
    | none =>
      have hlen := (srcCheck_eq_none s v).1 h
      exact .inr ⟨storeTable s v, flagIf ((s.src v).toFinset.card = 1) .degen,
        fun w => execHbuild_of_passes (s := s.withWindow w) hlen hf⟩

theorem henc_ends (f : BitVec 2) (s : State) : RaisesOrSucceeds (.henc f) s := by
  cases hf : Sel.ofField f with
  | none => exact .inl ⟨_, fun w => execHenc_of_noArray hf (s.withWindow w)⟩
  | some v =>
    cases h : srcCheck s v with
    | some e => exact .inl ⟨e, fun w => execHenc_of_check hf (s := s.withWindow w) h⟩
    | none =>
      have hlen := (srcCheck_eq_none s v).1 h
      by_cases hcoded : s.Coded v
      · obtain htotal | htotal := Nat.lt_or_ge 1048576 (encodedLength s (s.src v))
        · exact .inl ⟨_, fun w => execHenc_of_overflow hf (s := s.withWindow w) hlen hcoded htotal⟩
        · exact .inr ⟨storeStream s v, _, fun w => execHenc_of_passes hf (s := s.withWindow w) hlen hcoded htotal⟩
      · exact .inl ⟨_, fun w => execHenc_of_not_coded hf (s := s.withWindow w) hlen hcoded⟩

theorem erase_ends (m : BitVec 1) (s : State) : RaisesOrSucceeds (.erase m) s := by
  cases h : lengthCheck s.blen Config.bsmax with
  | some e => exact .inl ⟨e, fun w => execErase_of_check (s := s.withWindow w) h⟩
  | none =>
    have hlen := (lengthCheck_eq_none _ _).1 h
    obtain rfl | rfl := BitVec.eq_zero_or_eq_one m
    · exact .inr ⟨storeSurvivors s (fun b => [b]) (s.stream s.blen.toNat) [], _,
        fun w => execErase_bit (s := s.withWindow w) hlen⟩
    · exact .inr ⟨storeSurvivors s Prod.snd s.parsed.units s.parsed.rest, _,
        fun w => execErase_codeword (s := s.withWindow w) hlen⟩

/-- What FIDEL writes apart from the bookkeeping. -/
def withEnergies (s : State) (n : Nat) : State :=
  { s with
    es := BitVec.ofInt 64 (signalEnergy s n), en := BitVec.ofInt 64 (noiseEnergy s n), flen := BitVec.ofNat 32 n }

/-- The flags FIDEL reports after `fs` (45_fidelity R292). -/
def energyFlags (s : State) (n : Nat) (fs : List Flag) : List Flag :=
  fs ++ flagIf (noiseEnergy s n == 0) .enZero ++ flagIf (signalEnergy s n == 0) .esZero

theorem storeEnergies_eq (s : State) (n : Nat) (fs : List Flag) :
    storeEnergies s n fs = complete (withEnergies s n) .ok (energyFlags s n fs) := rfl

theorem fidel_ends (m : BitVec 1) (s : State) : RaisesOrSucceeds (.fidel m) s := by
  cases h : firstOf (lengthCheck s.len Config.nmax) (lengthCheck s.ylen Config.nmax) with
  | some e => exact .inl ⟨e, fun w => execFidel_of_check (s := s.withWindow w) h⟩
  | none =>
    obtain ⟨hx, hy⟩ := (firstOf_eq_none _ _).1 h
    have hlen := (lengthCheck_eq_none _ _).1 hx
    have hylen := (lengthCheck_eq_none _ _).1 hy
    by_cases hcomparable : s.len = s.ylen ∨ m = 1#1
    · refine .inr ⟨withEnergies s (min s.len.toNat s.ylen.toNat),
        energyFlags s (min s.len.toNat s.ylen.toNat) (flagIf (s.len ≠ s.ylen) .degraded), fun w => ?_⟩
      rw [execFidel_of_comparable (s := s.withWindow w) hlen hylen hcomparable, storeEnergies_eq]
      rfl
    · obtain ⟨hne, hm⟩ := not_or.1 hcomparable
      have hm0 := (BitVec.eq_zero_or_eq_one m).resolve_right hm
      exact .inl ⟨_, fun w => execFidel_of_mismatch (s := s.withWindow w) hlen hylen hne hm0⟩

/-- How HDEC ends is determined. -/
theorem HdecEnds.unique {s : State} {v : Sel} {e e' : ErrCode} {fs fs' : List Flag} {lossev lossev' : Word}
    (h : HdecEnds s v e fs lossev) (h' : HdecEnds s v e' fs' lossev') : e = e' ∧ fs = fs' ∧ lossev = lossev' := by
  unfold HdecEnds at h h'
  split_ifs at h h' <;> (obtain ⟨rfl, rfl, rfl⟩ := h; obtain ⟨rfl, rfl, rfl⟩ := h'; exact ⟨rfl, rfl, rfl⟩)

/-- HDEC commits what it decoded with two of its error codes, so it need not raise them. -/
theorem hdec_ends (f : BitVec 2) (s : State) : ∃ u e fs, EndsAlike (.hdec f) s u e fs := by
  cases hf : Sel.ofField f with
  | none => exact ⟨s, _, [], fun w => execHdec_of_noArray hf (s.withWindow w)⟩
  | some v =>
    cases h : lengthCheck s.blen Config.bsmax with
    | some e => exact ⟨s, e, [], fun w => execHdec_of_check hf (s := s.withWindow w) h⟩
    | none =>
      obtain ⟨e, fs, lossev, hends, -⟩ := execHdec_of_passes hf h
      refine ⟨storeDecoded s v (decodedBytes s v) lossev, e, fs, fun w => ?_⟩
      obtain ⟨e', fs', lossev', hends', hexec⟩ := execHdec_of_passes hf (s := s.withWindow w) h
      obtain ⟨rfl, rfl, rfl⟩ := hends.unique hends'
      cases v <;> exact hexec

/-- A command other than HDEC that ends with an error has raised it (60_exceptions R320). -/
theorem exec_raisesOrSucceeds (i : Instr) (s : State) (hi : ∀ sel, i ≠ .hdec sel) : RaisesOrSucceeds i s := by
  cases i with
  | nop => exact .inr ⟨s, [], fun _ => rfl⟩
  | acorr => exact acorr_ends s
  | levd => exact levd_ends s
  | qcoef => exact qcoef_ends s
  | dqcoef => exact dqcoef_ends s
  | analyze => exact analyze_ends s
  | synth => exact synth_ends s
  | hbuild sel => exact hbuild_ends sel s
  | henc sel => exact henc_ends sel s
  | hdec sel => exact absurd rfl (hi sel)
  | erase g => exact erase_ends g s
  | fidel t => exact fidel_ends t s

/-- Every command ends alike whatever the fields of the window hold. -/
theorem exec_endsAlike (i : Instr) (s : State) : ∃ u e fs, EndsAlike i s u e fs := by
  by_cases hi : ∃ sel, i = .hdec sel
  · obtain ⟨sel, rfl⟩ := hi
    exact hdec_ends sel s
  · exact (exec_raisesOrSucceeds i s (not_exists.1 hi)).ends

/-- A command other than HDEC raises a code or completes with code 0. -/
theorem exec_raises_or_errByte {i : Instr} (s : State) (hi : ∀ sel, i ≠ .hdec sel) :
    (∃ e, exec i s = .next (raise s e)) ∨ ∃ t, exec i s = .next t ∧ t.errByte = 0 := by
  obtain ⟨e, h⟩ | ⟨u, fs, h⟩ := exec_raisesOrSucceeds i s hi
  · exact .inl ⟨e, h s.window⟩
  · exact .inr ⟨_, h s.window, complete_errByte _ _ _⟩

theorem ErrCode.code_eq_zero_iff (e : ErrCode) : e.code = 0 ↔ e = .ok := by
  cases e <;> decide

theorem written_cmdcnt (s u : State) (i : Instr) : (written s u i).cmdcnt = s.cmdcnt := by
  cases i with
  | hdec sel => rw [written]; split <;> rfl
  | _ => rfl

/-- Every command ends with the bookkeeping, BUSERR not among its flags (46_system R305). -/
theorem exec_completedWith (i : Instr) (s : State) :
    ∃ t e fs, exec i s = .next t ∧ CompletedWith s t e fs ∧ Flag.busErr ∉ fs := by
  obtain ⟨u, e, fs, hexec, hfs, hu, -⟩ := exec_completes i s
  obtain ⟨-, hsticky, -, hip⟩ := written_keeps s u i
  have hcnt := written_cmdcnt s u i
  rw [← hu] at hsticky hip hcnt
  exact ⟨_, e, fs, hexec, completedWith_complete_of_eq e fs hsticky hcnt hip, hfs⟩

end Sys2Proof.Machine
end

section
/-! SUPPORT. The engine's turn: the decoded command or the illegal one, and the block is idle after it (46_system R304
to R306). -/

namespace Sys2Proof.Machine

theorem engineTurn_eq_true_iff (s : State) :
    engineTurn s = true ↔ s.busy = true ∧ (s.windowLeft = 0 ∨ s.script = []) := by
  simp [engineTurn]

theorem step_of_engineTurn {s : State} (h : engineTurn s = true) : step s = runEngine s := by
  rw [step, if_pos h]

theorem runEngine_of_decode {s : State} {i : Instr} (h : decode s.cmd = .ok i) : runEngine s = exec i s := by
  rw [runEngine, fetchWord, h]

/-- A word that decodes to no command completes with code 5 (46_system R306). -/
theorem runEngine_of_illegal {s : State} (h : ∀ i, decode s.cmd ≠ .ok i) :
    runEngine s = .next (raise s .illegalCommand) := by
  cases hdecode : decode s.cmd with
  | ok i => exact absurd hdecode (h i)
  | error r => rw [runEngine, fetchWord, hdecode, illegalCommand]

/-- The engine's step always answers a next state, in which nothing is pending. -/
theorem runEngine_idle (s : State) : ∃ t, runEngine s = .next t ∧ t.busy = false := by
  by_cases h : ∃ i, decode s.cmd = .ok i
  · obtain ⟨i, hi⟩ := h
    obtain ⟨u, e, fs, hexec, -⟩ := exec_completes i s
    exact ⟨_, (runEngine_of_decode hi).trans hexec, complete_busy u e fs⟩
  · exact ⟨_, runEngine_of_illegal (not_exists.1 h), complete_busy s _ _⟩

end Sys2Proof.Machine
end

section
/-! SUPPORT. The resets: which items of the host's list are one, and the mixture that an abandoned command leaves
(46_system R301, 70_reset R360, R362). -/

namespace Sys2Proof.Machine

/-- The reset input, or a write to CTRL with bit 0 set (46_system R301, 70_reset R360). -/
def HostOp.IsReset (op : HostOp) : Prop := op = .hardReset ∨ ∃ v, op = .write 0x02#19 v ∧ v.getLsbD 0 = true

theorem HostOp.IsReset.ne_wait {op : HostOp} (h : op.IsReset) : op ≠ .wait := by
  obtain rfl | ⟨v, rfl, -⟩ := h <;> simp

/-- Both resets have one effect, while busy as on an idle block. -/
theorem hostEffect_of_isReset (s : State) {op : HostOp} (h : op.IsReset) : hostEffect s op = performReset s := by
  obtain rfl | ⟨v, rfl, hbit⟩ := h
  · rw [hostEffect]
  · rw [hostEffect, busWrite_statusGroup s (r := .ctrl) v rfl (by decide), writeReg, if_pos hbit]

theorem performReset_of_idle {s : State} (hb : s.busy = false) : performReset s = resetRegisters s s.mem := by
  rw [performReset, hb, if_neg Bool.false_ne_true]

/-- A reset while busy: the registers at their reset values, and the buffers mixed with those of the state `u` that the
abandoned command would have left. -/
theorem performReset_of_busy {s u : State} (hb : s.busy = true) (hu : runEngine s = .next u) :
    performReset s =
      resetRegisters { s with freeCount := u.freeCount + 1 } (mixMemory u.freeCount s.mem u.mem) := by
  rw [performReset, if_pos hb, completedState, hu]

theorem performReset_busy (s : State) : (performReset s).busy = false := by
  obtain ⟨m, n, h, -⟩ := performReset_eq s
  rw [h]
  rfl

/-- A byte that nothing has written holds the power-on value of its address (10_state R68). -/
theorem Memory.byteAt_eq_getD (m : Memory) (k : Nat) : m.byteAt k = (m.lookup k).getD (Config.memInit k) := rfl

theorem mixByte_bit (mask old new : Byte) (j : Nat) :
    (mixByte mask old new).getLsbD j = old.getLsbD j ∨ (mixByte mask old new).getLsbD j = new.getLsbD j := by
  simp only [mixByte, BitVec.getLsbD_or, BitVec.getLsbD_and, BitVec.getLsbD_not]
  cases hmask : mask.getLsbD j with
  | false =>
    by_cases hj : j < 8
    · simp [hj]
    · simp [BitVec.getLsbD_of_ge old j (Nat.not_lt.1 hj)]
  | true => simp

/-- The mixture lists the cells of the new memory. -/
theorem lookup_mixMemory (n : Nat) (old : Memory) (k : Nat) : ∀ new : Memory,
    (mixMemory n old new).lookup k = (new.lookup k).map (mixByte (Config.abandonMask n k) (old.byteAt k))
  | [] => rfl
  | (a, b) :: new => by
    have ih := lookup_mixMemory n old k new
    rw [mixMemory] at ih ⊢
    rw [List.map_cons, Memory.lookup, Memory.lookup]
    split
    next h => rw [h, Option.map_some]
    next => exact ih

/-- Every bit of the mixture is old or new: a listed cell is mixed, and one that the new memory does not list is its
own, not written since power-on. -/
theorem mixMemory_bit (n : Nat) (old new : Memory) (k j : Nat) :
    ((mixMemory n old new).byteAt k).getLsbD j = (old.byteAt k).getLsbD j ∨
      ((mixMemory n old new).byteAt k).getLsbD j = (new.byteAt k).getLsbD j := by
  rw [Memory.byteAt_eq_getD (mixMemory n old new), Memory.byteAt_eq_getD new, lookup_mixMemory]
  cases new.lookup k with
  | none => exact .inr rfl
  | some b => exact mixByte_bit _ _ _ j

end Sys2Proof.Machine
end

section
/-! SUPPORT. A host access inside the busy window, resets apart, writes only the window's fields (46_system R304,
20_memory R101). -/

namespace Sys2Proof.Machine

/-- A bus write while busy is a reset, or it sets or clears bits of STICKY, IE or IP, or it is ignored. -/
theorem busWrite_in_window {s : State} {a : Addr} {v : Word} (hb : s.busy = true)
    (h : ¬ (HostOp.write a v).IsReset) : ∃ w, w.windowLeft = s.windowLeft ∧ busWrite s a v = s.withWindow w := by
  by_cases hstatus : a.toNat ∈ [0x02, 0x06, 0x07, 0x08]
  · have write : ∀ r : CtrlReg, a.toNat = r.addr → busWrite s a v = writeReg s v r :=
      fun r ha => busWrite_statusGroup s v ha (ha ▸ hstatus)
    simp only [List.mem_cons, List.not_mem_nil, or_false] at hstatus
    obtain hctrl | hsticky | hie | hip := hstatus
    · obtain rfl : a = 0x02#19 := BitVec.eq_of_toNat_eq hctrl
      have hbit : ¬ v.getLsbD 0 = true := fun hbit => h (.inr ⟨v, rfl, hbit⟩)
      refine ⟨s.window, rfl, ?_⟩
      rw [write .ctrl hctrl, writeReg, if_neg hbit, withWindow_window]
    · exact ⟨{ s.window with sticky := s.sticky &&& ~~~v }, rfl, write .sticky hsticky⟩
    · exact ⟨{ s.window with ie := v &&& 0x3#32 }, rfl, write .ie hie⟩
    · exact ⟨{ s.window with ip := s.ip &&& ~~~v }, rfl, write .ip hip⟩
  · rw [busWrite_of_busy hb]
    split
    next hlet =>
      obtain ⟨hro, -⟩ := hlet.resolve_left hstatus
      exact ⟨s.window, rfl, writeLoc_of_readOnly s v hro⟩
    next => exact ⟨{ s.window with sticky := s.sticky ||| Flag.busErr.mask }, rfl, rfl⟩

theorem hostEffect_in_window {s : State} {op : HostOp} (hb : s.busy = true) (h : ¬ op.IsReset) :
    ∃ w, w.windowLeft = s.windowLeft ∧ hostEffect s op = s.withWindow w := by
  cases op with
  | write a v => exact busWrite_in_window hb h
  | read a =>
    rw [hostEffect, busRead_reads]
    obtain ⟨hread, -⟩ | ⟨hread, -⟩ := busRead_cases s a <;> rw [hread]
    · exact ⟨{ s.window with reads := readLoc s (Loc.ofAddr a.toNat) :: s.reads }, rfl, rfl⟩
    · exact ⟨{ s.window with sticky := s.sticky ||| Flag.busErr.mask, reads := 0#32 :: s.reads }, rfl, rfl⟩
  | wait => exact ⟨s.window, rfl, rfl⟩
  | hardReset => exact absurd (.inl rfl) h

/-- The host's move takes one access off the count of the window. -/
theorem hostTurn_in_window {s : State} {op : HostOp} {ops : List HostOp} (hb : s.busy = true)
    (hscript : s.script = op :: ops) (h : ¬ op.IsReset) :
    ∃ w, w.windowLeft = s.windowLeft - 1 ∧ hostTurn s = s.withWindow w := by
  by_cases hwait : op = .wait
  · subst hwait
    exact ⟨{ s.window with windowLeft := s.windowLeft - 1 }, rfl, hostTurn_wait_of_busy hscript hb⟩
  · obtain ⟨w, hleft, heffect⟩ :=
      hostEffect_in_window (s := { s with script := ops, windowLeft := s.windowLeft - 1 }) hb h
    exact ⟨w, hleft, (hostTurn_cons hscript hwait).trans heffect⟩

/-- A reset at the head of the list is performed, on an idle block and inside the window. -/
theorem step_of_isReset {s : State} {op : HostOp} {ops : List HostOp} (hs : s.busy = false ∨ s.windowLeft ≠ 0)
    (hscript : s.script = op :: ops) (hop : op.IsReset) :
    step s = .next (performReset { s with script := ops, windowLeft := s.windowLeft - 1 }) := by
  rw [step_hostOp hs hscript hop.ne_wait, hostEffect_of_isReset _ hop]

/-- A step inside the window ends the pending command, by performing or by abandoning it, or takes one access off the
count of the window. -/
theorem step_in_window {s : State} (hb : s.busy = true) : ∃ t, step s = .next t ∧
    (t.busy = false ∨ (s.windowLeft ≠ 0 ∧ t.busy = true ∧ t.windowLeft = s.windowLeft - 1)) := by
  cases hturn : engineTurn s with
  | true =>
    obtain ⟨t, ht, hidle⟩ := runEngine_idle s
    exact ⟨t, (step_of_engineTurn hturn).trans ht, .inl hidle⟩
  | false =>
    obtain hidle | ⟨hleft, hscript⟩ := (engineTurn_eq_false_iff s).1 hturn
    · exact absurd hb (by simp [hidle])
    · obtain ⟨op, ops, hscript⟩ := List.exists_cons_of_ne_nil hscript
      by_cases hop : op.IsReset
      · exact ⟨_, step_of_isReset (.inr hleft) hscript hop, .inl (performReset_busy _)⟩
      · obtain ⟨w, hw, hhost⟩ := hostTurn_in_window hb hscript hop
        rw [step_of_hostTurn hturn, hhost]
        exact ⟨_, rfl, .inr ⟨hleft, hb, hw⟩⟩

theorem run_succ_of_step {s t : State} (h : step s = .next t) (n : Nat) :
    Host.Core.run core (n + 1) s = Host.Core.run core n t := by
  have hcore : core.step s = .next t := h
  simp only [Host.Core.run, hcore]

/-- By induction on the accesses that the window still takes. -/
theorem exists_run_idle (n : Nat) : ∀ s : State, s.busy = true → s.windowLeft = n →
    ∃ k t, k ≤ n + 1 ∧ Host.Core.run core k s = .next t ∧ t.busy = false := by
  induction n with
  | zero =>
    intro s hb hleft
    obtain ⟨t, hstep, hidle | ⟨hne, -⟩⟩ := step_in_window hb
    · exact ⟨1, t, le_rfl, run_succ_of_step hstep 0, hidle⟩
    · exact absurd hleft hne
  | succ n ih =>
    intro s hb hleft
    obtain ⟨t, hstep, hidle | ⟨-, htb, htleft⟩⟩ := step_in_window hb
    · exact ⟨1, t, by omega, run_succ_of_step hstep 0, hidle⟩
    · obtain ⟨k, u, hk, hrun, hu⟩ := ih t htb (by omega)
      exact ⟨k + 1, u, by omega, (run_succ_of_step hstep k).trans hrun, hu⟩

end Sys2Proof.Machine
end

section
/-! CERTIFICATE. The statements about the life of a command: acceptance, the busy window, completion, and the resets. -/

namespace Sys2Proof.Proofs
open Sys2Proof Sys2Proof.Machine

/-- Settles O4: it is the engine's turn, and the engine performs what CMD decodes to. -/
theorem stepRunsTheDecodedCommand : Obligations.StepRunsTheDecodedCommand := by
  intro s i hb hwindow hdecode
  rw [step_of_engineTurn ((engineTurn_eq_true_iff s).2 ⟨hb, hwindow⟩), runEngine_of_decode hdecode]

/-- Settles O5: the host's move is the write to CMD, which an idle block accepts and a busy one refuses. -/
theorem commandWriteIsAcceptedOrRefused : Obligations.CommandWriteIsAcceptedOrRefused := by
  intro s w ops hscript
  let r : State := { s with script := ops, windowLeft := s.windowLeft - 1 }
  refine ⟨fun hb => ?accepted, fun hb hleft => ?refused⟩
  case accepted =>
    have hwrite : busWrite r 0x03#19 w = accept r w := busWrite_reg (s := r) (r := .cmd) hb rfl w
    exact (step_hostOp (.inl hb) hscript (by simp)).trans (congrArg _ hwrite)
  case refused =>
    have hwrite : busWrite r 0x03#19 w = refuse r := busWrite_refused (s := r) hb w (by decide) (by decide)
    exact (step_hostOp (.inr hleft) hscript (by simp)).trans (congrArg _ hwrite)

/-- Settles O7: the engine raises the illegal command, and a raise writes nothing but the bookkeeping. -/
theorem illegalWordCompletesWithCodeFive : Obligations.IllegalWordCompletesWithCodeFive := by
  intro s hturn hillegal
  exact ⟨_, (step_of_engineTurn hturn).trans (runEngine_of_illegal hillegal), completedWith_complete s _ [], rfl⟩

/-- Settles O16: the word 0 is on the list of legal words, and NOP completes the state as it was. -/
theorem nopOnlyCompletes : Obligations.NopOnlyCompletes :=
  ⟨(legalWordsAreExactlySeventeen _ _).2 (by decide),
    fun s => ⟨complete s .ok [], rfl, completedWith_complete s .ok [], rfl, complete_byteAt s .ok []⟩⟩

/-- Settles O52: either reset performs the same, which on an idle block leaves the memory. -/
theorem resetOfAnIdleBlockKeepsTheBuffers : Obligations.ResetOfAnIdleBlockKeepsTheBuffers := by
  intro s op ops hb hscript hreset
  let r : State := { s with script := ops, windowLeft := s.windowLeft - 1 }
  have hkept : performReset r = resetRegisters r s.mem := performReset_of_idle hb
  exact (step_of_isReset (.inl hb) hscript hreset).trans (congrArg _ hkept)

/-- Settles O6: a command other than HDEC raises its error code, and one that ends with code 0 owes the bookkeeping
only. -/
theorem everyCommandEndsWithTheBookkeeping : Obligations.EveryCommandEndsWithTheBookkeeping := by
  intro i s
  obtain ⟨t, e, fs, hexec, hcompleted, hfs⟩ := exec_completedWith i s
  by_cases hi : ∃ sel, i = .hdec sel
  · obtain ⟨sel, rfl⟩ := hi
    exact ⟨t, e, fs, hexec, hcompleted, hfs, fun _ hne => absurd rfl (hne sel)⟩
  · obtain ⟨e', hraise⟩ | ⟨t', hok, hcode⟩ := exec_raises_or_errByte s (not_exists.1 hi)
    · exact ⟨raise s e', e', [], hraise, completedWith_complete s e' [], List.not_mem_nil, fun _ _ => ⟨rfl, rfl⟩⟩
    · obtain rfl := Host.Outcome.next.inj (hok.symm.trans hexec)
      rw [errByte_of_completedWith hcompleted, ErrCode.code_eq_zero_iff] at hcode
      exact ⟨t', e, fs, hexec, hcompleted, hfs, fun hne => absurd hcode hne⟩

/-- Settles O12: the same work is completed beside the given fields, and the bookkeeping adds to what they hold. -/
theorem commandsIgnoreTheStatusGroup : Obligations.CommandsIgnoreTheStatusGroup := by
  intro i s sticky ie ip reads script left
  obtain ⟨u, e, fs, h⟩ := exec_endsAlike i s
  refine ⟨_, h s.window, (h ⟨sticky, ie, ip, reads, script, left⟩).trans (congrArg Host.Outcome.next ?_)⟩
  simp only [complete_errByte, ErrCode.code_eq_zero_iff]
  rfl

/-- Settles O11: the host's move is an access that writes the window's fields only. -/
theorem windowAccessesTouchOnlyTheStatusGroup : Obligations.WindowAccessesTouchOnlyTheStatusGroup := by
  intro s op ops hb hturn hscript hhard hctrl
  have hop : ¬ op.IsReset := by
    rintro (hop | ⟨v, hop, hbit⟩)
    · exact hhard hop
    · rw [hctrl v hop] at hbit
      exact absurd hbit Bool.false_ne_true
  obtain ⟨w, -, hhost⟩ := hostTurn_in_window hb hscript hop
  exact ⟨s.withWindow w, (step_of_hostTurn hturn).trans (congrArg _ hhost), rfl⟩

/-- Settles O10: each step ends the command or uses up an access of the window. -/
theorem busyWindowIsFinite : Obligations.BusyWindowIsFinite :=
  fun s hb => exists_run_idle s.windowLeft s hb rfl

/-- Settles O53: the reset keeps nothing of the command but the mixture of its memory with the old one. -/
theorem resetAbandonsThePendingCommand : Obligations.ResetAbandonsThePendingCommand := by
  intro s op ops hb hleft hscript hreset
  let r : State := { s with script := ops, windowLeft := s.windowLeft - 1 }
  obtain ⟨u, hu, -⟩ := runEngine_idle r
  have hmixed := performReset_of_busy (s := r) hb hu
  exact ⟨_, u, (step_of_isReset (.inr hleft) hscript hreset).trans (congrArg _ hmixed), hu, rfl,
    mixMemory_bit u.freeCount s.mem u.mem⟩

end Sys2Proof.Proofs
end

section
/-! SUPPORT. The lags that ACORR writes, as LEVD checks them: `R[0]` is an energy, and no other lag exceeds it in
magnitude (60_exceptions R338, 40_estimator R162). -/

namespace Sys2Proof.Machine

@[simp] theorem storeLags_len (s : State) : (storeLags s).len = s.len := by rw [storeLags]
@[simp] theorem storeLags_order (s : State) : (storeLags s).order = s.order := by rw [storeLags]

/-- Twice a sum of products is at most the two sums of squares, for `2 |a b| ≤ a^2 + b^2` term by term. -/
theorem two_mul_abs_sum_mul_le (ι : Finset Nat) (f g : Nat → Int) :
    2 * |∑ n ∈ ι, f n * g n| ≤ ∑ n ∈ ι, f n ^ 2 + ∑ n ∈ ι, g n ^ 2 := by
  have hterm : ∀ n, 2 * |f n * g n| ≤ f n ^ 2 + g n ^ 2 := fun n => by
    have h := two_mul_le_add_sq |f n| |g n|
    rwa [sq_abs, sq_abs, mul_assoc, ← abs_mul] at h
  calc 2 * |∑ n ∈ ι, f n * g n| ≤ 2 * ∑ n ∈ ι, |f n * g n| :=
        Int.mul_le_mul_of_nonneg_left (Finset.abs_sum_le_sum_abs _ _) (by decide)
    _ = ∑ n ∈ ι, 2 * |f n * g n| := Finset.mul_sum _ _ _
    _ ≤ ∑ n ∈ ι, (f n ^ 2 + g n ^ 2) := Finset.sum_le_sum fun n _ => hterm n
    _ = ∑ n ∈ ι, f n ^ 2 + ∑ n ∈ ι, g n ^ 2 := Finset.sum_add_distrib

theorem autocorr_zero (s : State) : autocorr s 0 = ∑ n ∈ Finset.range s.len.toNat, s.sample n ^ 2 := by
  simp only [autocorr_eq_sum, Nat.sub_zero, Nat.add_zero, ← sq]

theorem autocorr_zero_nonneg (s : State) : 0 ≤ autocorr s 0 := by
  rw [autocorr_zero]
  exact Finset.sum_nonneg fun n _ => sq_nonneg _

/-- A window of the signal has at most the energy of the whole. -/
theorem sum_window_le_autocorr_zero (s : State) {lo hi : Nat} (h : hi ≤ s.len.toNat) :
    ∑ n ∈ Finset.Ico lo hi, s.sample n ^ 2 ≤ autocorr s 0 := by
  rw [autocorr_zero]
  refine Finset.sum_le_sum_of_subset_of_nonneg (fun n hn => ?_) fun n _ _ => sq_nonneg _
  exact Finset.mem_range.2 ((Finset.mem_Ico.1 hn).2.trans_le h)

/-- The products at lag `k` pair the signal without its end and the signal without its beginning, and each of the two
has at most the energy of the whole. -/
theorem abs_autocorr_le (s : State) {k : Nat} (hk : k ≤ s.len.toNat) : |autocorr s k| ≤ autocorr s 0 := by
  have hproducts := two_mul_abs_sum_mul_le (Finset.range (s.len.toNat - k)) s.sample fun n => s.sample (n + k)
  rw [← autocorr_eq_sum, Finset.range_eq_Ico, Finset.sum_Ico_add' (fun n => s.sample n ^ 2)] at hproducts
  have hbegin := sum_window_le_autocorr_zero s (lo := 0) (Nat.sub_le s.len.toNat k)
  have hend := sum_window_le_autocorr_zero s (lo := 0 + k) (hi := s.len.toNat - k + k) (by omega)
  omega

/-- LEVD succeeds on every energy that no lag exceeds: silence ends with DEGEN, a signal with the recursion. -/
theorem execLevd_errByte_eq_zero {s : State} (hcheck : estCheck s = none) (h0 : 0 ≤ s.lag 0)
    (hlags : ∀ k, 1 ≤ k → k ≤ s.order.toNat → |s.lag k| ≤ s.lag 0) :
    ∃ t, exec .levd s = .next t ∧ t.errByte = 0 := by
  obtain hsilent | hsignal := h0.eq_or_lt
  · exact ⟨_, execLevd_of_silence hcheck hsilent.symm, complete_errByte _ _ _⟩
  · exact ⟨_, execLevd_of_signal hcheck hsignal (lagsExceed_eq_false hlags), complete_errByte _ _ _⟩

/-- One lag in `1..ORDER` above `R[0]` in magnitude is enough. -/
theorem lagsExceed_of_lt {s : State} {k : Nat} (hk : 1 ≤ k) (hk' : k ≤ s.order.toNat) (h : s.lag 0 < |s.lag k|) :
    lagsExceed s = true := by
  rw [Int.abs_eq_natAbs] at h
  refine List.any_eq_true.2 ⟨k - 1, List.mem_range.2 (by omega), decide_eq_true ?_⟩
  rwa [Nat.sub_add_cancel hk]

end Sys2Proof.Machine
end

section
/-! SUPPORT. STATUS bit by bit (10_state R43), and the registers and files of a state that a reset left (70_reset
R361). -/

namespace Sys2Proof.Machine

/-- A word that is one bit on a condition, read bit by bit. -/
theorem getLsbD_ite_twoPow (c : Bool) {i : Nat} (hi : i < 32) (j : Nat) :
    (if c then BitVec.twoPow 32 i else 0#32).getLsbD j = (decide (j = i) && c) := by
  cases c with
  | false => simp
  | true => simp [BitVec.getLsbD_twoPow, hi, eq_comm]

theorem irq_eq_true_iff (s : State) : s.irq = true ↔ s.ie &&& s.ip &&& 0x3#32 ≠ 0#32 :=
  bne_iff_ne

/-- `STATUS.ERR` is about the code's number. -/
theorem errBit_eq (s : State) : s.errBit = decide (s.errByte ≠ 0) := by
  rw [Bool.eq_iff_iff, State.errBit, bne_iff_ne, decide_eq_true_iff, State.errByte, ne_eq, BitVec.toNat_eq]
  rfl

/-- STATUS with its four bits as powers of 2. -/
theorem status_eq (s : State) : s.status =
    (if s.busy then BitVec.twoPow 32 0 else 0#32) ||| (if s.done then BitVec.twoPow 32 1 else 0#32) |||
      (if s.errBit then BitVec.twoPow 32 2 else 0#32) ||| (if s.irq then BitVec.twoPow 32 3 else 0#32) := rfl

/-- A reset of either kind, or power-on, left the state: the buffers and the model's own fields are free, but for the
window count. -/
def State.AtReset (s : State) : Prop :=
  ∃ (s' : State) (m : Memory) (n : Nat), s = { resetRegisters s' m with freeCount := n }

theorem atReset_reset : State.reset.AtReset := ⟨State.reset, [], 0, rfl⟩

theorem atReset_performReset (s : State) : (performReset s).AtReset := by
  obtain ⟨m, n, h, -⟩ := performReset_eq s
  exact ⟨s, m, n, h⟩

section AtReset
variable {s : State} (h : s.AtReset)
include h

theorem State.AtReset.busy : s.busy = false := by obtain ⟨s', m, n, rfl⟩ := h; rfl

theorem State.AtReset.done : s.done = false := by obtain ⟨s', m, n, rfl⟩ := h; rfl

theorem State.AtReset.irq : s.irq = false := by
  obtain ⟨s', m, n, rfl⟩ := h
  exact (by decide : State.reset.irq = false)

/-- No control register depends on the fields that a reset leaves free. -/
theorem State.AtReset.readReg_eq (r : CtrlReg) : readReg s r = readReg State.reset r := by
  obtain ⟨s', m, n, rfl⟩ := h
  cases r <;> rfl

end AtReset

/-- Each line of the reset table is a register's address and reset value (10_state R65). -/
theorem exists_reg_of_mem_resetTable :
    ∀ p ∈ resetTable, ∃ r ∈ CtrlReg.all, r.addr = p.1 ∧ readReg State.reset r = p.2 := by decide

theorem getD_replicate {α : Type} (n i : Nat) (v : α) : ((Vector.replicate n v)[i]?).getD v = v := by
  rw [Vector.getElem?_replicate]
  split <;> rfl

/-- Every element of FREQ, CT, A, QC and R is 0 after a reset, and what is unmapped between the files reads 0 (10_state
R66, 20_memory R102). -/
theorem State.AtReset.readLoc_eq_zero {s : State} (h : s.AtReset) {l : Loc} {n : Nat} (hl : l.standsAt n)
    (hn : 0x100 ≤ n) (hn' : n < 0x500) : readLoc s l = 0#32 := by
  obtain ⟨s', m, c, rfl⟩ := h
  cases l with
  | reg r =>
    obtain rfl := hl
    exact absurd r.addr_lt (Nat.not_lt.2 hn)
  | freq b => exact getD_replicate 256 b 0#32
  | ctLen b => exact congrArg (fun e : CodeEntry => e.len.setWidth 32) (getD_replicate 256 b ⟨0#6, 0#32⟩)
  | ctCode b => exact congrArg CodeEntry.code (getD_replicate 256 b ⟨0#6, 0#32⟩)
  | a k => exact getD_replicate 32 (k - 1) 0#32
  | qc k => exact congrArg (BitVec.signExtend 32) (getD_replicate 32 (k - 1) 0#16)
  | rLo k => exact congrArg (BitVec.extractLsb' 0 32) (getD_replicate 33 k 0#64)
  | rHi k => exact congrArg (BitVec.extractLsb' 32 32) (getD_replicate 33 k 0#64)
  | unmapped => rfl
  | x i | qe i | y i | bsWord i =>
    obtain ⟨-, rfl⟩ := hl
    omega

end Sys2Proof.Machine
end

section
/-! CERTIFICATE. The statements about the exceptions and the resets. -/

namespace Sys2Proof.Proofs
open Sys2Proof Sys2Proof.Machine

/-- Settles O19: ACORR leaves the check's registers, and its lags are sums of products, bounded by the energy. -/
theorem levdAcceptsWhatAcorrWrote : Obligations.LevdAcceptsWhatAcorrWrote := by
  intro s t hlen hpos hmax hlt hacorr
  have hcheck := (estCheck_eq_none s).2 ⟨hlen, hpos, hmax, hlt⟩
  obtain rfl := Host.Outcome.next.inj ((execAcorr_of_passes hcheck).symm.trans hacorr)
  have hlag : ∀ k ≤ s.order.toNat, (complete (storeLags s) .ok []).lag k = autocorr s k := fun k hk => by
    rw [complete_lag, storeLags_lag_of_le hlen hk (by omega)]
  refine execLevd_errByte_eq_zero ?check ?energy fun k _ hk => ?bound
  case check => simpa [estCheck_eq_none] using hcheck
  case energy => rw [hlag 0 (Nat.zero_le _)]; exact autocorr_zero_nonneg s
  case bound =>
    rw [complete_order, storeLags_order] at hk
    rw [hlag k hk, hlag 0 (Nat.zero_le _)]
    exact abs_autocorr_le s (by omega)

/-- Settles O20: a branch of the rule for each of the two conditions, and a raise writes nothing but the bookkeeping. -/
theorem levdRaisesOnImpossibleLags : Obligations.LevdRaisesOnImpossibleLags := by
  intro s hlen hpos hmax hlt hlags
  have hcheck := (estCheck_eq_none s).2 ⟨hlen, hpos, hmax, hlt⟩
  obtain hneg | ⟨h0, k, hk, hk', hexceeds⟩ := hlags
  · exact raises_of_exec (execLevd_of_negative hcheck hneg)
  · exact raises_of_exec (execLevd_of_exceeds hcheck h0 (lagsExceed_of_lt hk hk' hexceeds))

/-- Settles O49: STATUS is the four bits ORed, each read on its own. -/
theorem statusShowsBusyDoneErrIrq : Obligations.StatusShowsBusyDoneErrIrq := by
  refine fun s => ⟨irq_eq_true_iff s, fun j _ => ?_⟩
  simp (disch := decide) only [status_eq, BitVec.getLsbD_or, getLsbD_ite_twoPow, errBit_eq]

/-- Settles O51: power-on and every reset leave a state `AtReset`, which is idle, so every read is performed. -/
theorem registersAfterAnyReset : Obligations.RegistersAfterAnyReset := by
  intro s hs
  have h : s.AtReset := by
    obtain rfl | ⟨s', rfl⟩ := hs
    · exact atReset_reset
    · exact atReset_performReset s'
  refine ⟨fun p hp => ?registers, fun a ha ha' => ?files, h.busy, h.done, h.irq⟩
  case registers =>
    obtain ⟨r, -, haddr, hvalue⟩ := exists_reg_of_mem_resetTable p hp
    have hsmall := r.addr_lt
    rw [busRead_reg_of_idle h.busy (r := r) (by rw [← haddr, BitVec.toNat_ofNat, Nat.mod_eq_of_lt (by omega)]),
      h.readReg_eq, hvalue]
  case files => rw [busRead_of_idle h.busy, h.readLoc_eq_zero (Loc.ofAddr_standsAt _) ha ha']

/-- Settles O9: the engine always answers a next state, and the host's turn is a function of the state. -/
theorem everyStepAnswersNext : Obligations.EveryStepAnswersNext := by
  intro s
  cases hturn : engineTurn s with
  | true =>
    obtain ⟨t, ht, -⟩ := runEngine_idle s
    exact ⟨t, (step_of_engineTurn hturn).trans ht⟩
  | false => exact ⟨hostTurn s, step_of_hostTurn hturn⟩

end Sys2Proof.Proofs
end
